-- ==== Sys2Proof/Word.lean ====
section
/-! DEFINITION. The two word types of the block: a byte of memory and a 32-bit register. -/

namespace Sys2Proof

/-- A byte (`00_scope.md` R12). -/
abbrev Byte := BitVec 8

/-- The contents of a host-visible register or a command word (`00_scope.md` R8, `30_encoding.md` R100). -/
abbrev Word := BitVec 32

end Sys2Proof
end

