-- ==== Sys2Proof/Machine/Bytes.lean ====
section
/-! DEFINITION. Byte strings and the little-endian conversions (`00_scope.md` R12, `20_memory.md` R70): the one place
where byte order is decided. -/

namespace Sys2Proof.Machine

/-- `Σ b[i]·2^(8i)` (`00_scope.md` R12). -/
def leNat : List Byte → Nat
  | [] => 0
  | b :: bs => b.toNat + 256 * leNat bs

/-- `LE_n(b)`, the value of a byte string at width `n`; missing bytes count as 0 (`00_scope.md` R12). -/
def leValue (n : Nat) (bytes : List Byte) : BitVec n := BitVec.ofNat n (leNat bytes)

/-- `BYTES_n(v)`: byte `i` is bits `8i+7:8i` (`00_scope.md` R12). -/
def leBytes {n : Nat} (v : BitVec n) : List Byte := (List.range (n / 8)).map fun i => v.extractLsb' (8 * i) 8

/-- The byte string held by consecutive registers: byte `i` is byte `i mod 4` of register `i div 4`
(`10_state.md` R36 to R38, R42). -/
def regBytes {m : Nat} (regs : Vector Word m) : List Byte := regs.toList.flatMap fun w => leBytes w

/-- The registers that hold a byte string, low byte first; bytes past its end are 0. -/
def packWords (m : Nat) (bytes : List Byte) : Vector Word m :=
  Vector.ofFn fun r : Fin m => leValue 32 ((bytes.drop (4 * r.val)).take 4)

end Sys2Proof.Machine
end

