-- ==== Sys2Proof/Syntax.lean ====
section
/-! DEFINITION. The syntax: the twenty commands, the fields of a command word, the host's registers and accesses, and
the statements of a host program. -/

namespace Sys2Proof

/-- The commands, one constructor per row of spec/opcode_table.json (`30_encoding.md` R104). No command word carries
an operand (R103). -/
inductive Instr where
  | nop
  | hash16
  | hash32
  | hash64
  | hash128
  | hash256
  | kexpS
  | kexpH
  | kexpIV
  | kclrS
  | kclrH
  | kclrIV
  | ecbEncS
  | ecbEncH
  | ecbEncIV
  | ecbDecS
  | ecbDecH
  | ecbDecIV
  | ctrS
  | ctrH
  deriving DecidableEq, Repr

/-- The three fields of the one command format (`30_encoding.md` R100). -/
structure CommandFields where
  /-- bits 31:8, reserved -/
  rsv : BitVec 24
  /-- bits 7:4, the command class -/
  cls : BitVec 4
  /-- bits 3:0, the function within the class -/
  func : BitVec 4
  deriving DecidableEq, Repr

/-- The SLOT codes of the FUNC field (`30_encoding.md` R102). -/
inductive SlotCode where
  | S
  | H
  | IV
  deriving DecidableEq, Repr

/-- The two bits of a SLOT code (`30_encoding.md` R102). -/
def SlotCode.bits : SlotCode → BitVec 2
  | .S => 0
  | .H => 1
  | .IV => 2

/-- FUNC of the classes KEY and ECB: a reserved 0, the CLR or DEC bit, the SLOT code (`30_encoding.md` R101). -/
def slotFunc (flag : Bool) (slot : SlotCode) : BitVec 4 := 0#1 ++ BitVec.ofBool flag ++ slot.bits

/-- The fields of each command (`30_encoding.md` R100 to R102): class 0 CTRL, 1 HASH, 2 KEY, 3 ECB, 4 CTR. -/
def Instr.fields : Instr → CommandFields
  | .nop => ⟨0, 0, 0⟩
  | .hash16 => ⟨0, 1, 0⟩
  | .hash32 => ⟨0, 1, 1⟩
  | .hash64 => ⟨0, 1, 2⟩
  | .hash128 => ⟨0, 1, 3⟩
  | .hash256 => ⟨0, 1, 4⟩
  | .kexpS => ⟨0, 2, slotFunc false .S⟩
  | .kexpH => ⟨0, 2, slotFunc false .H⟩
  | .kexpIV => ⟨0, 2, slotFunc false .IV⟩
  | .kclrS => ⟨0, 2, slotFunc true .S⟩
  | .kclrH => ⟨0, 2, slotFunc true .H⟩
  | .kclrIV => ⟨0, 2, slotFunc true .IV⟩
  | .ecbEncS => ⟨0, 3, slotFunc false .S⟩
  | .ecbEncH => ⟨0, 3, slotFunc false .H⟩
  | .ecbEncIV => ⟨0, 3, slotFunc false .IV⟩
  | .ecbDecS => ⟨0, 3, slotFunc true .S⟩
  | .ecbDecH => ⟨0, 3, slotFunc true .H⟩
  | .ecbDecIV => ⟨0, 3, slotFunc true .IV⟩
  | .ctrS => ⟨0, 4, slotFunc false .S⟩
  | .ctrH => ⟨0, 4, slotFunc false .H⟩

/-- The host-visible registers by name (`10_state.md` R31). -/
inductive Reg where
  | cmd
  | status
  | ctrl
  | src
  | dst
  | len
  | key (r : Fin 8)
  | nonce (r : Fin 4)
  | block (r : Fin 4)
  | digest (r : Fin 8)
  deriving DecidableEq, Repr

/-- The width of a host access (`10_state.md` R32, `20_memory.md` R76). -/
inductive AccessWidth where
  | byte
  | half
  | word
  deriving DecidableEq, Repr

/-- The bytes of an access. -/
def AccessWidth.bytes : AccessWidth → Nat
  | .byte => 1
  | .half => 2
  | .word => 4

/-- A host read, or a host write of the low bytes of a value. -/
inductive Access where
  | read (width : AccessWidth)
  | write (width : AccessWidth) (value : Word)
  deriving DecidableEq, Repr

/-- The width of an access. -/
def Access.width : Access → AccessWidth
  | .read w => w
  | .write w _ => w

/-- One move of the host or the platform. -/
inductive HostEvent where
  /-- an access at a byte offset of the register window (`10_state.md` R32) -/
  | register (offset : Nat) (access : Access)
  /-- an access at a byte address of DMEM (`20_memory.md` R76) -/
  | dmem (address : Nat) (access : Access)
  /-- an access at an address of the host's own map (`20_memory.md` R73) -/
  | platform (hostAddress : Nat) (access : Access)
  /-- the polling of `wait`: read STATUS again until BUSY reads 0 (`30_encoding.md` R109) -/
  | awaitIdle
  /-- the platform asserts reset (`70_reset_and_hazards.md` R280) -/
  | reset
  deriving DecidableEq, Repr

/-- The statements and pseudo-instructions of a host program (`30_encoding.md` R108, R109). -/
inductive HostStmt where
  | wr (reg : Reg) (value : Word)
  | rd (reg : Reg)
  | cmd (mnemonic : Instr)
  | mwb (address : Nat) (bytes : List Byte)
  | mrb (address : Nat) (count : Nat)
  | wait
  | clrst
  | ldkey (bytes : List Byte)
  | ldnonce (bytes : List Byte)
  | ldblk (bytes : List Byte)
  | run (mnemonic : Instr)
  deriving DecidableEq, Repr

end Sys2Proof
end

