-- ==== Sys2Proof/WellFormed.lean ====
section
/-! DEFINITION. When the fields of a command word are those of a legal command (`30_encoding.md` R100 to R102, R106).
A command itself has no operand (R103), so `Instr.wf` says that its own fields are legal. -/

namespace Sys2Proof

/-- RSV is 0 (`30_encoding.md` R100). -/
def CommandFields.rsvOk (f : CommandFields) : Bool := f.rsv == 0

/-- CLASS is assigned: 0 to 4 (`30_encoding.md` R100). -/
def CommandFields.classOk (f : CommandFields) : Bool := decide (f.cls.toNat ≤ 4)

/-- FUNC is one of its class's legal values (`30_encoding.md` R101): NOP only; WSEL 0 to 4; a reserved bit 0 and
SLOT 0 to 2; two reserved bits 0 and SLOT 0 or 1. -/
def CommandFields.funcOk (f : CommandFields) : Bool :=
  match f.cls.toNat with
  | 0 => f.func == 0
  | 1 => decide (f.func.toNat ≤ 4)
  | 2 | 3 => f.func.extractLsb' 3 1 == 0 && decide ((f.func.extractLsb' 0 2).toNat ≤ 2)
  | 4 => f.func.extractLsb' 2 2 == 0 && decide ((f.func.extractLsb' 0 2).toNat ≤ 1)
  | _ => false

/-- The fields are those of a legal command. -/
def CommandFields.wf (f : CommandFields) : Bool := f.rsvOk && f.classOk && f.funcOk

/-- A command is well-formed when its fields are legal. -/
def Instr.wf (i : Instr) : Bool := i.fields.wf

end Sys2Proof
end

