-- ==== Sys2Proof/Decode.lean ====
section
/-! DEFINITION. Decoding, total on every word and every byte string, and the encoder (`30_encoding.md` R100 to R107). -/

namespace Sys2Proof

/-- Why a word is illegal. The spec has the one answer `Illegal` (`30_encoding.md` R105, R106); the names say which
field made it so (notes/assumptions/18.md). -/
inductive DecodeError where
  /-- RSV is not 0. -/
  | reservedBits
  /-- CLASS is 5 to 15. -/
  | reservedClass
  /-- FUNC is unassigned in its class, a reserved SLOT and a CTR with SLOT = IV among them. -/
  | unassignedFunc
  /-- fewer than four bytes: no word at all. -/
  | shortWord
  deriving DecidableEq, Repr

/-- Class HASH: `f` selects `N = 16 << f` (`30_encoding.md` R105). -/
def decodeHash (f : BitVec 4) : Except DecodeError Instr :=
  match f.toNat with
  | 0 => .ok .hash16
  | 1 => .ok .hash32
  | 2 => .ok .hash64
  | 3 => .ok .hash128
  | 4 => .ok .hash256
  | _ => .error .unassignedFunc

/-- Class KEY: `f[3]` is 0, `f[2]` is CLR, `f[1:0]` is SLOT (`30_encoding.md` R105). -/
def decodeKey (f : BitVec 4) : Except DecodeError Instr :=
  match f.toNat with
  | 0 => .ok .kexpS
  | 1 => .ok .kexpH
  | 2 => .ok .kexpIV
  | 4 => .ok .kclrS
  | 5 => .ok .kclrH
  | 6 => .ok .kclrIV
  | _ => .error .unassignedFunc

/-- Class ECB: `f[3]` is 0, `f[2]` is DEC, `f[1:0]` is SLOT (`30_encoding.md` R105). -/
def decodeEcb (f : BitVec 4) : Except DecodeError Instr :=
  match f.toNat with
  | 0 => .ok .ecbEncS
  | 1 => .ok .ecbEncH
  | 2 => .ok .ecbEncIV
  | 4 => .ok .ecbDecS
  | 5 => .ok .ecbDecH
  | 6 => .ok .ecbDecIV
  | _ => .error .unassignedFunc

/-- Class CTR: `f[3:2]` is 0, `f[1:0]` is SLOT, 0 or 1 (`30_encoding.md` R105). -/
def decodeCtr (f : BitVec 4) : Except DecodeError Instr :=
  match f.toNat with
  | 0 => .ok .ctrS
  | 1 => .ok .ctrH
  | _ => .error .unassignedFunc

/-- The split of a word into its fields (`30_encoding.md` R100). -/
def CommandFields.ofWord (v : Word) : CommandFields := ⟨v.extractLsb' 8 24, v.extractLsb' 4 4, v.extractLsb' 0 4⟩

/-- Decoding by class (`30_encoding.md` R105). -/
def decodeFields (f : CommandFields) : Except DecodeError Instr :=
  if f.rsv = 0 then
    match f.cls.toNat with
    | 0 => if f.func = 0 then .ok .nop else .error .unassignedFunc
    | 1 => decodeHash f.func
    | 2 => decodeKey f.func
    | 3 => decodeEcb f.func
    | 4 => decodeCtr f.func
    | _ => .error .reservedClass
  else .error .reservedBits

/-- `decode(v)` (`30_encoding.md` R105). -/
def decode (v : Word) : Except DecodeError Instr := decodeFields (CommandFields.ofWord v)

/-- Decoding a byte string: its first four bytes, little-endian, are the command word (`30_encoding.md` R107,
`10_state.md` R32); the rest is returned. -/
def decodeBytes (bytes : List Byte) : Except DecodeError (Instr × List Byte) :=
  match bytes with
  | b0 :: b1 :: b2 :: b3 :: rest =>
    match decode (Machine.leValue 32 [b0, b1, b2, b3]) with
    | .ok i => .ok (i, rest)
    | .error e => .error e
  | _ => .error .shortWord

/-- The decoder on a word numbered as spec/opcode_table.json numbers it: the word's four bytes, low byte first, are
given to `decodeBytes`; a number that is no 32-bit word, or needs more than `nbits` bits, is no instruction. -/
def decodeTableWord (nbits w : Nat) : Option Instr :=
  if w < 2 ^ nbits ∧ w < 2 ^ 32 then
    match decodeBytes (Machine.leBytes (BitVec.ofNat 32 w)) with
    | .ok (i, _) => some i
    | .error _ => none
  else none

/-- The word with the given fields (`30_encoding.md` R100). -/
def CommandFields.toWord (f : CommandFields) : Word := f.rsv ++ f.cls ++ f.func

/-- The word of a command, from its fields (`30_encoding.md` R100 to R102). -/
def encode (i : Instr) : Word := i.fields.toWord

end Sys2Proof
end

