-- ==== Sys2Proof/Config.lean ====
section
/-! DEFINITION. What an implementation or the platform fixes (the OPEN parameters of `00_scope.md` R6 and R8), the
checks the spec puts on them, and the free values the spec leaves open. -/

namespace Sys2Proof.Config

/-- The OPEN parameters: fixed for one machine, no value of them stated by the spec (`00_scope.md` R6, R8;
`93_implementation_defined.md` U14 to U20). -/
structure Params where
  /-- `MEM_SIZE`, bytes in DMEM (R8). -/
  memSize : Nat := 1
  /-- `SBOX`, the S-box ROM (`10_state.md` R47, `41_pearson.md` R140). -/
  sbox : Vector Byte 256 := ⟨((List.range 256).map (BitVec.ofNat 8)).toArray, by simp⟩
  /-- `PERM_2` (`41_pearson.md` R145). -/
  perm2 : Vector (Fin 2) 2 := Vector.ofFn id
  /-- `PERM_4` (`41_pearson.md` R145). -/
  perm4 : Vector (Fin 4) 4 := Vector.ofFn id
  /-- `PERM_8` (`41_pearson.md` R145). -/
  perm8 : Vector (Fin 8) 8 := Vector.ofFn id
  /-- `MASK16` (`41_pearson.md` R142). -/
  mask16 : Vector Byte 2 := Vector.ofFn fun _ => 0
  /-- `MASK32` (`41_pearson.md` R142). -/
  mask32 : Vector Byte 4 := Vector.ofFn fun _ => 0
  /-- `MASK64` (`41_pearson.md` R142). -/
  mask64 : Vector Byte 8 := Vector.ofFn fun _ => 0
  /-- `MASK_LOWER` (`41_pearson.md` R142). -/
  maskLower : Vector Byte 8 := Vector.ofFn fun _ => 0
  /-- `MASK_UPPER` (`41_pearson.md` R142). -/
  maskUpper : Vector Byte 8 := Vector.ofFn fun _ => 1
  /-- `ORDER128`: entry `i` is the lane that supplies digest bytes `8i..8i+7` (lane 0 lower, 1 upper;
  `41_pearson.md` R149). -/
  order128 : Vector (Fin 2) 2 := Vector.ofFn id
  /-- `ORDER256`, likewise (lane 0 lower, 1 upper, 2 high-lower, 3 high-upper; `41_pearson.md` R149). -/
  order256 : Vector (Fin 4) 4 := Vector.ofFn id
  /-- `REG_BASE`, where the platform places the register window (`20_memory.md` R73). -/
  regBase : Nat := 0
  /-- `DMEM_BASE`, where the platform places DMEM (`20_memory.md` R73). -/
  dmemBase : Nat := 4096
  /-- `IRQ_LINE`, the platform's interrupt line (`60_exceptions.md` R258). -/
  irqLine : Nat := 0
  deriving DecidableEq, Repr

/-- A high mask: 0x10 added to every byte of a base mask, modulo 256 (`41_pearson.md` R143). -/
def highMask (mask : Vector Byte 8) : Vector Byte 8 := Vector.ofFn fun j => mask[j] + 0x10

/-- The masks of HASH128, in lane order (`41_pearson.md` R142). -/
def Params.masks128 (p : Params) : Vector (Vector Byte 8) 2 := #v[p.maskLower, p.maskUpper]

/-- The masks of HASH256, in lane order (`41_pearson.md` R142). -/
def Params.masks256 (p : Params) : Vector (Vector Byte 8) 4 :=
  #v[p.maskLower, p.maskUpper, highMask p.maskLower, highMask p.maskUpper]

/-- `1 ≤ MEM_SIZE ≤ 2^32` (`00_scope.md` R8). -/
def Params.memSizeOk (p : Params) : Bool := decide (1 ≤ p.memSize ∧ p.memSize ≤ 2 ^ 32)

/-- `SBOX` is a bijection: among its 256 entries every byte value occurs (`41_pearson.md` R140). -/
def Params.sboxOk (p : Params) : Bool := (List.range 256).all fun v => p.sbox.toList.any fun b => b.toNat == v

/-- Each `PERM_w` is a permutation (`41_pearson.md` R145). -/
def Params.permsOk (p : Params) : Bool :=
  decide (p.perm2.toList.Nodup ∧ p.perm4.toList.Nodup ∧ p.perm8.toList.Nodup)

/-- The masks of one digest width are pairwise distinct (`41_pearson.md` R143); those of HASH128 are among those of
HASH256. -/
def Params.masksOk (p : Params) : Bool := decide p.masks256.toList.Nodup

/-- `ORDER128` and `ORDER256` are permutations of the lanes (`41_pearson.md` R149). -/
def Params.ordersOk (p : Params) : Bool := decide (p.order128.toList.Nodup ∧ p.order256.toList.Nodup)

/-- The two windows the platform places do not overlap (DESIGN CHOICE, notes/assumptions/2.md: the spec leaves the
placement to the platform). -/
def Params.windowsOk (p : Params) : Bool :=
  decide (p.regBase + 4096 ≤ p.dmemBase ∨ p.dmemBase + p.memSize ≤ p.regBase)

/-- Every constraint on the parameters. -/
def Params.wf (p : Params) : Bool :=
  p.memSizeOk && p.permsOk && p.masksOk && p.ordersOk && p.windowsOk && p.sboxOk

/-- Parameters together with the constraints the spec puts on them. The default values of the fields of `Params` and
of this structure serve one purpose, to show that the type has a member; no constant of the model is built from them. -/
structure Platform where
  /-- the parameters -/
  params : Params := {}
  /-- they meet the spec's constraints -/
  wf : params.wf = true := by decide +kernel
  deriving Inhabited

/-- The parameters of this machine: a free value, known only to meet `Params.wf` (notes/assumptions/1.md). -/
opaque platform : Platform

/-- What a DMEM byte holds that nothing has written since reset, a free value for each epoch of DMEM and address, so
that two reads with nothing between them agree (`20_memory.md` R74, R75, `93_implementation_defined.md` U4, U6;
notes/assumptions/5.md). -/
opaque unwrittenByte : (epoch address : Nat) → Byte

/-- What a written DMEM byte holds after a host write to DMEM has disturbed a running command, a free value for each
draw and address (`20_memory.md` R84, `93_implementation_defined.md` U3; notes/assumptions/4.md). -/
opaque disturbedByte : (draw address : Nat) → Byte

/-- Whether a host DMEM access while BUSY gets a bus error, a free value for each draw (`60_exceptions.md` R259: its
response is unspecified; notes/assumptions/4.md). -/
opaque busyDmemBusError : (draw : Nat) → Bool

/-- What a host DMEM read while BUSY returns, a free value for each draw (`20_memory.md` R84, `60_exceptions.md` R259;
notes/assumptions/4.md). -/
opaque busyDmemValue : (draw : Nat) → Word

/-- What a read of NONCE, BLOCK or DIGEST returns while BUSY, a free value for each draw (`10_state.md` R34,
`93_implementation_defined.md` U5; notes/assumptions/6.md). -/
opaque busyReadValue : (draw : Nat) → Word

/-- How many host moves come between a CMD write and the engine's step, a free value for each draw
(`60_exceptions.md` R254, `70_reset_and_hazards.md` R291; notes/assumptions/7.md). -/
opaque engineDelay : (draw : Nat) → Nat

end Sys2Proof.Config
end

