-- ==== Sys2Proof/Machine/State.lean ====
section
/-! DEFINITION. The state of the machine (`10_state.md` R30), the reasons a step can stop, and the state after reset
(`10_state.md` R51, `70_reset_and_hazards.md` R280). INVENTORY.md lists every field with its rule. -/

namespace Sys2Proof.Machine

/-- The fault events of `60_exceptions.md` R259. Each is recorded in `State.faults`, never cleared, and the run goes on
(`00_scope.md` R14; notes/assumptions/3.md, 4.md); no step ends in one. -/
inductive Fault where
  /-- A register access that is not an aligned 32-bit access within 0x000..0xFFF (`10_state.md` R32). Recorded by the
  host port; safe. -/
  | registerBusError
  /-- A host DMEM access beyond `MEM_SIZE` (`20_memory.md` R76). Recorded by the host port; safe. -/
  | dmemBusError
  /-- A read of a DMEM byte that nothing has written since reset (`20_memory.md` R75). Recorded by the host port, HASH
  and CTR; safe: the byte read is a free value. -/
  | unwrittenRead
  /-- A host DMEM access while BUSY (`20_memory.md` R84), whose hardware effect is unspecified. Recorded by the host
  port; safe: the response and the bytes it may disturb are free values. -/
  | dmemAccessWhileBusy
  deriving DecidableEq, Repr

/-- Why an instruction has no meaning. -/
inductive Refusal where
  /-- An instruction that this model gives no meaning yet; no arm of `exec` raises it. Safe: the run stops. -/
  | notModelled (mnemonic : String)
  deriving DecidableEq, Repr

/-- The error codes a rejection records (`60_exceptions.md` R250). -/
inductive ErrorCode where
  | illegal
  | noKey
  | range
  | overlap
  deriving DecidableEq, Repr

/-- What the host port answers an access (`10_state.md` R32, `20_memory.md` R76). -/
inductive Response where
  /-- the data of a read, zero-extended to 32 bits -/
  | data (value : Word)
  /-- a write taken in, or ignored without a bus error -/
  | accepted
  /-- a bus error of a read, with the value it returns -/
  | readBusError (value : Word)
  /-- a bus error of a write -/
  | writeBusError
  deriving DecidableEq, Repr

/-- A context slot: `T` round keys of `n` bits and the VALID bit (`10_state.md` R40). -/
structure Slot (n T : Nat) where
  /-- the round keys `RK[slot][0..T-1]` -/
  rk : Vector (BitVec n) T
  /-- `VALID_slot`, STATUS bit 8, 9 or 10 -/
  valid : Bool
  deriving DecidableEq, Repr

/-- A slot after reset: every entry 0, not valid (`10_state.md` R51). -/
def Slot.empty (n T : Nat) : Slot n T := ⟨Vector.replicate T 0, false⟩

/-- The DMEM bytes written since reset, by rising address (notes/assumptions/5.md). -/
abbrev Memory := List Host.Cell

/-- The state (`10_state.md` R30), and after it the fields of the model's own. -/
structure State where
  /-- the OPEN parameters, the S-box ROM among them (`10_state.md` R47); no step changes them -/
  params : Config.Params
  /-- the command latch CMDL (R35) -/
  cmdl : Word
  /-- STATUS.BUSY (R43) -/
  busy : Bool
  /-- STATUS.DONE (R43) -/
  done : Bool
  /-- STATUS.ERR (R43) -/
  err : Bool
  /-- STATUS.OVR (R43) -/
  ovr : Bool
  /-- STATUS.ERRCODE (R43) -/
  errcode : BitVec 4
  /-- CTRL.IE (R45) -/
  ie : Bool
  /-- SRC (R39) -/
  src : Word
  /-- DST (R39) -/
  dst : Word
  /-- LEN (R39) -/
  len : Word
  /-- KEY0..KEY7 (R37) -/
  key : Vector Word 8
  /-- NONCE0..NONCE3 (R36) -/
  nonce : Vector Word 4
  /-- BLOCK0..BLOCK3 (R38) -/
  block : Vector Word 4
  /-- DIGEST0..DIGEST7 (R42) -/
  digest : Vector Word 8
  /-- context slot S, with STATUS.VALID_S (R40) -/
  slotS : Slot 64 34
  /-- context slot H, with STATUS.VALID_H (R40) -/
  slotH : Slot 64 32
  /-- context slot IV, with STATUS.VALID_IV (R40) -/
  slotIV : Slot 48 28
  /-- DMEM (`20_memory.md` R74, R75) -/
  mem : Memory
  /-- the fault events recorded, never cleared (`00_scope.md` R14, `60_exceptions.md` R259) -/
  faults : List Fault
  /-- the model's own: the host's events still to come, oldest first (notes/assumptions/8.md) -/
  pending : List HostEvent
  /-- the model's own: the answers the host has been given, oldest first (notes/assumptions/10.md) -/
  responses : List Response
  /-- the model's own: host moves that may still come before the engine's step (notes/assumptions/7.md) -/
  hostTurns : Nat
  /-- the model's own: free values drawn so far (notes/assumptions/4.md, 6.md, 7.md) -/
  draws : Nat
  /-- the model's own: how often the bytes of DMEM have lost their values, by a reset or a disturbance
  (notes/assumptions/4.md, 5.md) -/
  epoch : Nat
  /-- the model's own: the host has written DMEM during the command that is running (notes/assumptions/4.md) -/
  disturbed : Bool
  deriving DecidableEq, Repr

/-- The machine right after reset: every register, field, slot and VALID bit 0, no DMEM byte written, the parameters
those of the machine (`10_state.md` R51, `70_reset_and_hazards.md` R280). -/
def State.reset : State where
  params := Config.platform.params
  cmdl := 0
  busy := false
  done := false
  err := false
  ovr := false
  errcode := 0
  ie := false
  src := 0
  dst := 0
  len := 0
  key := Vector.replicate 8 0
  nonce := Vector.replicate 4 0
  block := Vector.replicate 4 0
  digest := Vector.replicate 8 0
  slotS := Slot.empty 64 34
  slotH := Slot.empty 64 32
  slotIV := Slot.empty 48 28
  mem := []
  faults := []
  pending := []
  responses := []
  hostTurns := 0
  draws := 0
  epoch := 0
  disturbed := false

end Sys2Proof.Machine
end

