-- ==== Sys2Proof/Machine/Ops.lean ====
section
/-! DEFINITION. The shared operations: DMEM, the fault record, the end of a command by completion or by rejection, the
host's acknowledgement of either, and reset. -/

namespace Sys2Proof.Machine

/-- What an engine step or a host move answers. -/
abbrev Result := Host.Outcome State Fault Refusal

/-! ### DMEM (`20_memory.md` R74 to R76) -/

/-- The byte written last at an address, if any was written since reset. -/
def Memory.load? (m : Memory) (a : Nat) : Option Byte :=
  match m with
  | [] => none
  | c :: rest => if c.1 = a then some c.2 else Memory.load? rest a

/-- Write one byte, keeping the addresses rising. -/
def Memory.store (m : Memory) (a : Nat) (b : Byte) : Memory :=
  match m with
  | [] => [(a, b)]
  | c :: rest =>
    if a < c.1 then (a, b) :: c :: rest
    else if a = c.1 then (a, b) :: rest
    else c :: Memory.store rest a b

/-- `MemWrite(a, k, s)`: `DMEM[a+i] <- s[i]` (`00_scope.md` R13). -/
def Memory.storeBytes (m : Memory) (a : Nat) : List Byte → Memory
  | [] => m
  | b :: bs => Memory.storeBytes (Memory.store m a b) (a + 1) bs

/-- The canonical form: addresses strictly rising. A byte not listed has no defined value, so no entry can equal it
(notes/assumptions/5.md). -/
def Memory.wf (m : Memory) : Bool := decide (m.Pairwise fun c d => c.1 < d.1)

/-- The byte a read of DMEM gives: the one written last, or the free value of a byte not written since reset, the same at
every read until a write (`20_memory.md` R74, R75; notes/assumptions/5.md). -/
def State.readByte (s : State) (a : Nat) : Byte :=
  (Memory.load? s.mem a).getD (Config.unwrittenByte s.epoch a)

/-- `MemRead(a, k)` (`00_scope.md` R13). -/
def State.readBytes (s : State) (a k : Nat) : List Byte := (List.range k).map fun i => s.readByte (a + i)

/-- Whether every byte of `DMEM[a..a+k-1]` has been written since reset. -/
def State.allWritten (s : State) (a k : Nat) : Bool :=
  (List.range k).all fun i => (Memory.load? s.mem (a + i)).isSome

/-! ### The fault record (`00_scope.md` R14, `60_exceptions.md` R259) -/

/-- A record with a fault event added; an event already there stays as it is. -/
def addFault (f : Fault) (faults : List Fault) : List Fault := if f ∈ faults then faults else faults ++ [f]

/-- Record a fault event. -/
def State.record (s : State) (f : Fault) : State := { s with faults := addFault f s.faults }

/-- Record the fault of a read of `DMEM[a..a+k-1]`, if one of its bytes has not been written since reset
(`20_memory.md` R75). -/
def State.noteReads (s : State) (a k : Nat) : State :=
  { s with faults := if s.allWritten a k then s.faults else addFault .unwrittenRead s.faults }

/-- DMEM with the byte string written at `a`. -/
def State.writeBytes (s : State) (a : Nat) (bytes : List Byte) : State :=
  { s with mem := Memory.storeBytes s.mem a bytes }

/-- Every written byte replaced by a free value of one draw. -/
def Memory.disturb (draw : Nat) (m : Memory) : Memory := m.map fun c => (c.1, Config.disturbedByte draw c.1)

/-- DMEM with unspecified contents, the bytes not written since reset among them; which bytes those are stays
(`20_memory.md` R84, `93_implementation_defined.md` U3; notes/assumptions/4.md). -/
def State.disturb (s : State) : State :=
  { s with mem := Memory.disturb s.draws s.mem, draws := s.draws + 1, epoch := s.epoch + 1 }

/-- The disturbed command has ended. -/
def State.settle (s : State) : State := { s with disturbed := false }

/-! ### The end of a command -/

/-- `complete()` (`40_control.md` R132). -/
def State.complete (s : State) : State := { s with done := true, busy := false }

/-- The ERRCODE of an error (`60_exceptions.md` R250). -/
def ErrorCode.code : ErrorCode → BitVec 4
  | .illegal => 1
  | .noKey => 2
  | .range => 3
  | .overlap => 4

/-- `raise Reject(code)`, the block's one way to report an error: it saves the code and nothing else, and no trap is
entered (`60_exceptions.md` R251, R252, R255). -/
def State.reject (s : State) (e : ErrorCode) : State := { s with err := true, errcode := e.code, busy := false }

/-- The host's acknowledgement of a completion or an error, a write of `v` to STATUS, which stands where other machines
return from an exception (`10_state.md` R44, `60_exceptions.md` R256). -/
def State.acknowledge (s : State) (v : Word) : State :=
  { s with
    done := s.done && !v.getLsbD 1
    ovr := s.ovr && !v.getLsbD 3
    err := s.err && !v.getLsbD 2
    errcode := if v.getLsbD 2 then 0 else s.errcode }

/-! ### Reset -/

/-- The platform asserts reset, at idle or during a command: all state takes its value after reset, every DMEM byte is
again unwritten, the ROM and the other parameters stay (`70_reset_and_hazards.md` R280, R281). The fault record is
never cleared (`00_scope.md` R14), and what belongs to the host stays (notes/assumptions/9.md). -/
def State.applyReset (s : State) : State :=
  { State.reset with
    params := s.params
    faults := s.faults
    pending := s.pending
    responses := s.responses
    draws := s.draws
    epoch := s.epoch + 1 }

end Sys2Proof.Machine
end

