-- ==== Sys2Proof/Machine/Control.lean ====
section
/-! DEFINITION. The control command (`40_control.md` section 2). -/

namespace Sys2Proof.Machine

/-- NOP: its body does nothing (`40_control.md` R133). -/
def execNop (s : State) : Result := .next s.complete

end Sys2Proof.Machine
end

