-- ==== Sys2Proof/Machine/Operands.lean ====
section
/-! DEFINITION. The operands of the commands (`30_encoding.md` R103): the register byte strings, the StreamCounter, the
buffers with their checks, and the writes of the result registers. -/

namespace Sys2Proof.Machine

/-- `KB[0..31]`, the master key (`10_state.md` R37). -/
def State.keyBytes (s : State) : List Byte := regBytes s.key

/-- `BB[0..15]`, the ECB block (`10_state.md` R38). -/
def State.blockBytes (s : State) : List Byte := regBytes s.block

/-- `NONCE_LO` (`10_state.md` R36). -/
def State.nonceLo (s : State) : BitVec 64 := s.nonce[1] ++ s.nonce[0]

/-- `NONCE_HI` (`10_state.md` R36). -/
def State.nonceHi (s : State) : BitVec 64 := s.nonce[3] ++ s.nonce[2]

/-- `NONCE_LO <- v`; NONCE2 and NONCE3 stay (`10_state.md` R36). -/
def State.setNonceLo (s : State) (v : BitVec 64) : State :=
  { s with nonce := #v[v.extractLsb' 0 32, v.extractLsb' 32 32, s.nonce[2], s.nonce[3]] }

/-- `DG[0..k-1] <- d; DG[k..31] <- 0` (`10_state.md` R42, `41_pearson.md` R150). -/
def State.setDigest (s : State) (d : List Byte) : State := { s with digest := packWords 8 d }

/-- `BB[0..k-1] <- b`, the bytes past `k` staying (`10_state.md` R38, `43_ecb.md` R206). -/
def State.setBlock (s : State) (b : List Byte) : State :=
  { s with block := packWords 4 (b ++ s.blockBytes.drop b.length) }

/-- `a + LEN > MEM_SIZE`, the sum not wrapped (`20_memory.md` R79). -/
def State.exceedsMem (s : State) (a : Word) : Bool := decide (s.params.memSize < a.toNat + s.len.toNat)

/-- `SRC ≠ DST` and the two buffers intersect (`20_memory.md` R80). -/
def State.buffersOverlap (s : State) : Bool :=
  decide (s.src ≠ s.dst ∧ s.src.toNat < s.dst.toNat + s.len.toNat ∧ s.dst.toNat < s.src.toNat + s.len.toNat)

/-- `MemRead(SRC, LEN)` (`20_memory.md` R78). -/
def State.inputBytes (s : State) : List Byte := s.readBytes s.src.toNat s.len.toNat

/-- The state after `MemRead(SRC, LEN)` (`20_memory.md` R75). -/
def State.noteInput (s : State) : State := s.noteReads s.src.toNat s.len.toNat

end Sys2Proof.Machine
end

