-- ==== Sys2Proof/Machine/Speck.lean ====
section
/-! DEFINITION. The SPECK round, its inverse, block encryption and decryption, and the key schedule
(`42_speck_core.md`), at any half-word width `n`. -/

namespace Sys2Proof.Machine

/-- `ROR_n(v, r)` (`00_scope.md` R11). -/
def ror {n : Nat} (v : BitVec n) (r : Nat) : BitVec n := (v >>> r) ||| (v <<< (n - r))

/-- `ROL_n(v, r)` (`00_scope.md` R11). -/
def rol {n : Nat} (v : BitVec n) (r : Nat) : BitVec n := (v <<< r) ||| (v >>> (n - r))

/-- `ER_n(x, y, k)` (`42_speck_core.md` R173). -/
def encRound {n : Nat} (x y k : BitVec n) : BitVec n × BitVec n :=
  let x' := (ror x 8 + y) ^^^ k
  (x', rol y 3 ^^^ x')

/-- `DR_n(x, y, k)` (`42_speck_core.md` R174). -/
def decRound {n : Nat} (x y k : BitVec n) : BitVec n × BitVec n :=
  let y' := ror (y ^^^ x) 3
  (rol ((x ^^^ k) - y') 8, y')

/-- `E` over a list of round keys (`42_speck_core.md` R175). -/
def encKeys {n : Nat} (rk : List (BitVec n)) (x y : BitVec n) : BitVec n × BitVec n :=
  rk.foldl (fun p k => encRound p.1 p.2 k) (x, y)

/-- `D` over a list of round keys, the last one first (`42_speck_core.md` R176). -/
def decKeys {n : Nat} (rk : List (BitVec n)) (x y : BitVec n) : BitVec n × BitVec n :=
  rk.foldr (fun k p => decRound p.1 p.2 k) (x, y)

/-- `E(rk, x, y)` (`42_speck_core.md` R175). -/
def encryptBlock {n T : Nat} (rk : Vector (BitVec n) T) (x y : BitVec n) : BitVec n × BitVec n := encKeys rk.toList x y

/-- `D(rk, x, y)` (`42_speck_core.md` R176). -/
def decryptBlock {n T : Nat} (rk : Vector (BitVec n) T) (x y : BitVec n) : BitVec n × BitVec n := decKeys rk.toList x y

/-- The key schedule from step `i`: `k` is `k_i`, `l` is `l_i`, `rest` the helper words after it, oldest first. Each
step yields `k_i`, and from `(l_i, k_i)` makes the next round key and the newest helper word (`42_speck_core.md`
R179). -/
def scheduleFrom {n : Nat} : (steps i : Nat) → (k l : BitVec n) → (rest : List (BitVec n)) → List (BitVec n)
  | 0, _, _, _, _ => []
  | steps + 1, i, k, l, rest =>
    let p := encRound l k (BitVec.ofNat n i)
    k :: match rest with
      | [] => scheduleFrom steps (i + 1) p.2 p.1 []
      | r :: rs => scheduleFrom steps (i + 1) p.2 r (rs ++ [p.1])

theorem scheduleFrom_length {n : Nat} (steps i : Nat) (k l : BitVec n) (rest : List (BitVec n)) :
    (scheduleFrom steps i k l rest).length = steps := by
  induction steps generalizing i k l rest with
  | zero => rfl
  | succ steps ih => cases rest <;> simp [scheduleFrom, ih]

/-- `KS(k_0, l_0 .. l_{m-2}) : rk[0 .. T-1]` (`42_speck_core.md` R179). -/
def keySchedule {n : Nat} (T : Nat) (k0 l0 : BitVec n) (rest : List (BitVec n)) : Vector (BitVec n) T :=
  ⟨(scheduleFrom T 0 k0 l0 rest).toArray, by simp [scheduleFrom_length]⟩

/-- The half-word of `n` bits at byte `offset` of a byte string (`42_speck_core.md` R171, R172). -/
def halfWord (n : Nat) (bytes : List Byte) (offset : Nat) : BitVec n := leValue n ((bytes.drop offset).take (n / 8))

/-- The bytes of a block `(x, y)`: `BYTES_n(y) || BYTES_n(x)` (`42_speck_core.md` R171). -/
def blockOf {n : Nat} (p : BitVec n × BitVec n) : List Byte := leBytes p.2 ++ leBytes p.1

end Sys2Proof.Machine
end

