-- ==== Sys2Proof/Machine/Ctr.lean ====
section
/-! DEFINITION. The CTR streaming commands (`44_ctr.md`). -/

namespace Sys2Proof.Machine

/-- `KSB(s, j)` (`44_ctr.md` R221): the counter block has `x = NONCE_HI` and `y = NONCE_LO + j` modulo 2^64, the carry
out of it discarded (R223). -/
def keystreamBlock {T : Nat} (rk : Vector (BitVec 64) T) (hi lo : BitVec 64) (j : Nat) : List Byte :=
  blockOf (encryptBlock rk hi (lo + BitVec.ofNat 64 j))

/-- `ceil(len/16)`, the keystream blocks consumed (`44_ctr.md` R224). -/
def blocksUsed (len : Nat) : Nat := (len + 15) / 16

/-- The first `len` bytes of `KS(s)`; the rest of a partial final block is discarded (`44_ctr.md` R221, R222). -/
def keystream {T : Nat} (rk : Vector (BitVec 64) T) (hi lo : BitVec 64) (len : Nat) : List Byte :=
  ((List.range (blocksUsed len)).flatMap fun j => keystreamBlock rk hi lo j).take len

/-- `in XOR ks`, byte by byte (`44_ctr.md` R220). -/
def xorBytes (a b : List Byte) : List Byte := List.zipWith (· ^^^ ·) a b

/-- The body of a CTR command once its checks have passed: the input read whole, the output written, the counter
advanced (`44_ctr.md` R220, `20_memory.md` R81). -/
def State.ctrBody {T : Nat} (s : State) (rk : Vector (BitVec 64) T) : State :=
  (s.noteInput.writeBytes s.dst.toNat (xorBytes s.inputBytes (keystream rk s.nonceHi s.nonceLo s.len.toNat))).setNonceLo
    (s.nonceLo + BitVec.ofNat 64 (blocksUsed s.len.toNat))

/-- `ctr_cmd(s)` (`44_ctr.md` R220), its checks in the order of `60_exceptions.md` R253. -/
def ctrCommand {T : Nat} (slot : Slot 64 T) (s : State) : Result :=
  if slot.valid = false then .next (s.reject .noKey)
  else if s.len = 0 then .next s.complete
  else if s.exceedsMem s.src || s.exceedsMem s.dst then .next (s.reject .range)
  else if s.buffersOverlap then .next (s.reject .overlap)
  else .next (s.ctrBody slot.rk).complete

/-- CTR.S (`44_ctr.md` R225). -/
def execCtrS (s : State) : Result := ctrCommand s.slotS s

/-- CTR.H (`44_ctr.md` R226). -/
def execCtrH (s : State) : Result := ctrCommand s.slotH s

end Sys2Proof.Machine
end

