-- ==== Sys2Proof/Machine/Ecb.lean ====
section
/-! DEFINITION. The ECB single-block commands (`43_ecb.md`). -/

namespace Sys2Proof.Machine

/-- ENC or DEC (`43_ecb.md` R207). -/
inductive Direction where
  | enc
  | dec
  deriving DecidableEq, Repr

/-- One block in the given direction (`43_ecb.md` R207). -/
def cipherBlock {n T : Nat} (dir : Direction) (rk : Vector (BitVec n) T) (x y : BitVec n) : BitVec n × BitVec n :=
  match dir with
  | .enc => encryptBlock rk x y
  | .dec => decryptBlock rk x y

/-- `ecb_cmd(slot, dir)`: `y` from `BB[0..n/8-1]`, `x` from the `n/8` bytes after it (`43_ecb.md` R207). -/
def ecbCommand {n T : Nat} (slot : Slot n T) (dir : Direction) (s : State) : Result :=
  if slot.valid = false then .next (s.reject .noKey)
  else
    .next (s.setBlock
      (blockOf (cipherBlock dir slot.rk (halfWord n s.blockBytes (n / 8)) (halfWord n s.blockBytes 0)))).complete

/-- ECB.ENC.S (`43_ecb.md` R200). -/
def execEcbEncS (s : State) : Result := ecbCommand s.slotS .enc s

/-- ECB.ENC.H (`43_ecb.md` R201). -/
def execEcbEncH (s : State) : Result := ecbCommand s.slotH .enc s

/-- ECB.ENC.IV (`43_ecb.md` R202). -/
def execEcbEncIV (s : State) : Result := ecbCommand s.slotIV .enc s

/-- ECB.DEC.S (`43_ecb.md` R203). -/
def execEcbDecS (s : State) : Result := ecbCommand s.slotS .dec s

/-- ECB.DEC.H (`43_ecb.md` R204). -/
def execEcbDecH (s : State) : Result := ecbCommand s.slotH .dec s

/-- ECB.DEC.IV (`43_ecb.md` R205). -/
def execEcbDecIV (s : State) : Result := ecbCommand s.slotIV .dec s

end Sys2Proof.Machine
end

