-- ==== Sys2Proof/Machine/Key.lean ====
section
/-! DEFINITION. The key commands: KEXP expands the master key into a slot, KCLR clears a slot (`42_speck_core.md`
section 6). None of them checks or rejects anything. -/

namespace Sys2Proof.Machine

/-- Write slot S whole (`10_state.md` R40). -/
def State.setSlotS (s : State) (slot : Slot 64 34) : State := { s with slotS := slot }

/-- Write slot H whole (`10_state.md` R40). -/
def State.setSlotH (s : State) (slot : Slot 64 32) : State := { s with slotH := slot }

/-- Write slot IV whole (`10_state.md` R40). -/
def State.setSlotIV (s : State) (slot : Slot 48 28) : State := { s with slotIV := slot }

/-- `KS` over the key bytes, at width `n` with `m` key words (`42_speck_core.md` R172, R179). -/
def scheduleOfKey (n T m : Nat) (kb : List Byte) : Vector (BitVec n) T :=
  keySchedule T (halfWord n kb 0) (halfWord n kb (n / 8))
    ((List.range (m - 2)).map fun i => halfWord n kb ((i + 2) * (n / 8)))

/-- KEXP.S: `n = 64`, `T = 34`, `m = 4` (`42_speck_core.md` R190). -/
def execKexpS (s : State) : Result := .next (s.setSlotS ⟨scheduleOfKey 64 34 4 s.keyBytes, true⟩).complete

/-- KEXP.H: `n = 64`, `T = 32`, `m = 2` (`42_speck_core.md` R191). -/
def execKexpH (s : State) : Result := .next (s.setSlotH ⟨scheduleOfKey 64 32 2 s.keyBytes, true⟩).complete

/-- KEXP.IV: `n = 48`, `T = 28`, `m = 2` (`42_speck_core.md` R192). -/
def execKexpIV (s : State) : Result := .next (s.setSlotIV ⟨scheduleOfKey 48 28 2 s.keyBytes, true⟩).complete

/-- A cleared slot: every entry 0, VALID 0 (`42_speck_core.md` R193 to R195). -/
def clearedSlot (n T : Nat) : Slot n T := ⟨Vector.replicate T 0, false⟩

/-- KCLR.S (`42_speck_core.md` R193). -/
def execKclrS (s : State) : Result := .next (s.setSlotS (clearedSlot 64 34)).complete

/-- KCLR.H (`42_speck_core.md` R194). -/
def execKclrH (s : State) : Result := .next (s.setSlotH (clearedSlot 64 32)).complete

/-- KCLR.IV (`42_speck_core.md` R195). -/
def execKclrIV (s : State) : Result := .next (s.setSlotIV (clearedSlot 48 28)).complete

end Sys2Proof.Machine
end

