-- ==== Sys2Proof/Machine/Pearson.lean ====
section
/-! DEFINITION. The Pearson hash diffusion engine and the HASH commands (`41_pearson.md`), over the OPEN parameters. -/

namespace Sys2Proof.Machine

/-- `SBOX[b]` (`41_pearson.md` R140). -/
def sboxAt (sbox : Vector Byte 256) (b : Byte) : Byte := sbox[b.toNat]'b.isLt

/-- `absorb(L, c, M)` (`41_pearson.md` R144). -/
def absorb {w : Nat} (lane : Vector Byte w) (c : Byte) (mask : Vector Byte w) : Vector Byte w :=
  Vector.ofFn fun j => lane[j] ^^^ c ^^^ mask[j]

/-- `round_w(L)` (`41_pearson.md` R145). -/
def diffuse {w : Nat} (sbox : Vector Byte 256) (perm : Vector (Fin w) w) (lane : Vector Byte w) : Vector Byte w :=
  Vector.ofFn fun j => sboxAt sbox lane[perm[j]]

/-- One lane over the whole input, from all zero bytes. The lanes of a digest never read each other, so each is
computed by itself (`41_pearson.md` R141, R148; notes/assumptions/14.md). -/
def laneHash {w : Nat} (sbox : Vector Byte 256) (perm : Vector (Fin w) w) (mask : Vector Byte w) (input : List Byte) :
    Vector Byte w :=
  input.foldl (fun lane c => diffuse sbox perm (absorb lane c mask)) (Vector.replicate w 0)

/-- The digest widths (`00_scope.md` R6). -/
inductive DigestWidth where
  | w16
  | w32
  | w64
  | w128
  | w256
  deriving DecidableEq, Repr

/-- The digest bytes, `N/8`. -/
def DigestWidth.bytes : DigestWidth → Nat
  | .w16 => 2
  | .w32 => 4
  | .w64 => 8
  | .w128 => 16
  | .w256 => 32

/-- Lane `l` of HASH128 (`41_pearson.md` R142). -/
def lane128 (p : Config.Params) (input : List Byte) (l : Fin 2) : Vector Byte 8 :=
  laneHash p.sbox p.perm8 p.masks128[l] input

/-- Lane `l` of HASH256 (`41_pearson.md` R142). -/
def lane256 (p : Config.Params) (input : List Byte) (l : Fin 4) : Vector Byte 8 :=
  laneHash p.sbox p.perm8 p.masks256[l] input

/-- `PEARSON(N, in)`: the lanes of the width, in its order (`41_pearson.md` R142, R148, R149). -/
def pearson (p : Config.Params) (width : DigestWidth) (input : List Byte) : List Byte :=
  match width with
  | .w16 => (laneHash p.sbox p.perm2 p.mask16 input).toList
  | .w32 => (laneHash p.sbox p.perm4 p.mask32 input).toList
  | .w64 => (laneHash p.sbox p.perm8 p.mask64 input).toList
  | .w128 => p.order128.toList.flatMap fun l => (lane128 p input l).toList
  | .w256 => p.order256.toList.flatMap fun l => (lane256 p input l).toList

/-- `hash_cmd(N)` (`41_pearson.md` R150). -/
def hashCommand (width : DigestWidth) (s : State) : Result :=
  if s.len ≠ 0 ∧ s.exceedsMem s.src then .next (s.reject .range)
  else .next (s.noteInput.setDigest (pearson s.params width s.inputBytes)).complete

/-- HASH16 (`41_pearson.md` R152). -/
def execHash16 (s : State) : Result := hashCommand .w16 s

/-- HASH32 (`41_pearson.md` R153). -/
def execHash32 (s : State) : Result := hashCommand .w32 s

/-- HASH64 (`41_pearson.md` R154). -/
def execHash64 (s : State) : Result := hashCommand .w64 s

/-- HASH128 (`41_pearson.md` R155). -/
def execHash128 (s : State) : Result := hashCommand .w128 s

/-- HASH256 (`41_pearson.md` R156). -/
def execHash256 (s : State) : Result := hashCommand .w256 s

end Sys2Proof.Machine
end

