-- ==== Sys2Proof/Machine/Dispatch.lean ====
section
/-! DEFINITION. One engine step on a decoded command: its checks, its body and its end (`40_control.md` R130). -/

namespace Sys2Proof.Machine

def exec (i : Instr) (s : State) : Host.Outcome State Fault Refusal :=
  match i with
  | .nop => Sys2Proof.Machine.execNop s
  | .hash16 => Sys2Proof.Machine.execHash16 s
  | .hash32 => Sys2Proof.Machine.execHash32 s
  | .hash64 => Sys2Proof.Machine.execHash64 s
  | .hash128 => Sys2Proof.Machine.execHash128 s
  | .hash256 => Sys2Proof.Machine.execHash256 s
  | .kexpS => Sys2Proof.Machine.execKexpS s
  | .kexpH => Sys2Proof.Machine.execKexpH s
  | .kexpIV => Sys2Proof.Machine.execKexpIV s
  | .kclrS => Sys2Proof.Machine.execKclrS s
  | .kclrH => Sys2Proof.Machine.execKclrH s
  | .kclrIV => Sys2Proof.Machine.execKclrIV s
  | .ecbEncS => Sys2Proof.Machine.execEcbEncS s
  | .ecbEncH => Sys2Proof.Machine.execEcbEncH s
  | .ecbEncIV => Sys2Proof.Machine.execEcbEncIV s
  | .ecbDecS => Sys2Proof.Machine.execEcbDecS s
  | .ecbDecH => Sys2Proof.Machine.execEcbDecH s
  | .ecbDecIV => Sys2Proof.Machine.execEcbDecIV s
  | .ctrS => Sys2Proof.Machine.execCtrS s
  | .ctrH => Sys2Proof.Machine.execCtrH s

end Sys2Proof.Machine
end

