-- ==== Sys2Proof/Machine/Engine.lean ====
section
/-! DEFINITION. The engine step on the latched word (`40_control.md` R130, R131), the one on a command that the host has
disturbed among them (`20_memory.md` R84). -/

namespace Sys2Proof.Machine

/-- `engine_step()`: the latch is decoded; an illegal word is rejected with ILLEGAL and changes nothing else; a legal
one runs (`40_control.md` R130, R131). -/
def runLatch (s : State) : Result :=
  match decode s.cmdl with
  | .error _ => .next (s.reject .illegal)
  | .ok i => exec i s

/-- A next state followed by what the disturbance leaves. -/
def settleResult : Result → Result
  | .next t => .next t.disturb.settle
  | .fault f => .fault f
  | .refused r => .refused r

/-- The engine's step. Where the host has written DMEM during the command, the command reads bytes of unspecified value
and leaves bytes of unspecified value (`20_memory.md` R84; notes/assumptions/4.md). -/
def engineStep (s : State) : Result := if s.disturbed then settleResult (runLatch s.disturb) else runLatch s

end Sys2Proof.Machine
end

