-- ==== Sys2Proof/Machine/Flags.lean ====
section
/-! DEFINITION. The words the host reads of the flags, and the interrupt computed from them. -/

namespace Sys2Proof.Machine

/-- The STATUS register: bits 31:11 read 0 (`10_state.md` R43). -/
def State.statusWord (s : State) : Word :=
  0#21 ++ BitVec.ofBool s.slotIV.valid ++ BitVec.ofBool s.slotH.valid ++ BitVec.ofBool s.slotS.valid ++ s.errcode ++
    BitVec.ofBool s.ovr ++ BitVec.ofBool s.err ++ BitVec.ofBool s.done ++ BitVec.ofBool s.busy

/-- The CTRL register: bits 31:1 read 0 (`10_state.md` R45). -/
def State.ctrlWord (s : State) : Word := 0#31 ++ BitVec.ofBool s.ie

/-- `IRQ = CTRL.IE & (STATUS.DONE | STATUS.ERR)`, at every instant (`60_exceptions.md` R258). -/
def State.irq (s : State) : Bool := s.ie && (s.done || s.err)

/-- The interrupt where it leaves the block: the platform's line and its level (`60_exceptions.md` R258). -/
def State.platformIrq (s : State) : Nat × Bool := (s.params.irqLine, s.irq)

end Sys2Proof.Machine
end

