-- ==== Sys2Proof/Machine/HostPort.lean ====
section
/-! DEFINITION. The host port: register accesses, DMEM accesses, the platform's address map, the poll of `wait`, reset,
and which agent moves next. -/

namespace Sys2Proof.Machine

/-- The register at an aligned offset of the window, `none` where the offset is reserved (`10_state.md` R31). -/
def regAt (offset : Nat) : Option Reg :=
  if offset = 0x000 then some .cmd
  else if offset = 0x004 then some .status
  else if offset = 0x008 then some .ctrl
  else if offset = 0x010 then some .src
  else if offset = 0x014 then some .dst
  else if offset = 0x018 then some .len
  else if 0x020 ≤ offset ∧ offset < 0x040 then some (.key (Fin.ofNat 8 ((offset - 0x020) / 4)))
  else if 0x040 ≤ offset ∧ offset < 0x050 then some (.nonce (Fin.ofNat 4 ((offset - 0x040) / 4)))
  else if 0x050 ≤ offset ∧ offset < 0x060 then some (.block (Fin.ofNat 4 ((offset - 0x050) / 4)))
  else if 0x060 ≤ offset ∧ offset < 0x080 then some (.digest (Fin.ofNat 8 ((offset - 0x060) / 4)))
  else none

/-- Answer the host (notes/assumptions/10.md). -/
def State.respond (s : State) (r : Response) : State := { s with responses := s.responses ++ [r] }

/-- Count a free value as drawn (notes/assumptions/6.md). -/
def State.countDraw (s : State) : State := { s with draws := s.draws + 1 }

/-- A read of a register that a running command may change: its value while idle, a free value while BUSY
(`10_state.md` R34). -/
def State.readResult (s : State) (v : Word) : State :=
  if s.busy then (s.respond (.data (Config.busyReadValue s.draws))).countDraw else s.respond (.data v)

/-- An aligned 32-bit read of a register. CMD and KEY are write-only and read 0, as a reserved offset does
(`10_state.md` R31, R33, R34, R37). -/
def State.readReg (s : State) : Option Reg → State
  | none => s.respond (.data 0)
  | some .cmd => s.respond (.data 0)
  | some .status => s.respond (.data s.statusWord)
  | some .ctrl => s.respond (.data s.ctrlWord)
  | some .src => s.respond (.data s.src)
  | some .dst => s.respond (.data s.dst)
  | some .len => s.respond (.data s.len)
  | some (.key _) => s.respond (.data 0)
  | some (.nonce r) => s.readResult s.nonce[r]
  | some (.block r) => s.readResult s.block[r]
  | some (.digest r) => s.readResult s.digest[r]

/-- A write to CMD while idle: the word is latched, not decoded, and the command starts; how many host moves precede
the engine's step is a free value (`10_state.md` R35, R46; notes/assumptions/7.md). -/
def State.issue (s : State) (v : Word) : State :=
  { s with cmdl := v, busy := true, hostTurns := Config.engineDelay s.draws, draws := s.draws + 1, disturbed := false }

/-- A write to CMD or an operand register: `s'` while idle, ignored and OVR set while BUSY (`10_state.md` R34). -/
def State.guarded (s s' : State) : State := if s.busy then { s with ovr := true } else s'

/-- The effect of an aligned 32-bit write to a register (`10_state.md` R31, R33, R34, R44 to R46). -/
def State.writeReg (s : State) (v : Word) : Option Reg → State
  | none => s
  | some .cmd => s.guarded (s.issue v)
  | some .status => s.acknowledge v
  | some .ctrl => { s with ie := v.getLsbD 0 }
  | some .src => s.guarded { s with src := v }
  | some .dst => s.guarded { s with dst := v }
  | some .len => s.guarded { s with len := v }
  | some (.key r) => s.guarded { s with key := s.key.set r v }
  | some (.nonce r) => s.guarded { s with nonce := s.nonce.set r v }
  | some (.block r) => s.guarded { s with block := s.block.set r v }
  | some (.digest _) => s

/-- Whether an access is an aligned 32-bit access within 0x000..0xFFF (`10_state.md` R32). -/
def registerAccessOk (offset : Nat) (a : Access) : Bool :=
  decide (a.width = .word ∧ offset % 4 = 0 ∧ offset < 0x1000)

/-- The answer to an access that gets a bus error: a read returns 0 (`10_state.md` R32, `20_memory.md` R76). -/
def busErrorResponse : Access → Response
  | .read _ => .readBusError 0
  | .write _ _ => .writeBusError

/-- An access at an offset of the register window; a bus error changes no register (`10_state.md` R32). -/
def registerAccess (offset : Nat) (a : Access) (s : State) : State :=
  if registerAccessOk offset a then
    match a with
    | .read _ => s.readReg (regAt offset)
    | .write _ v => (s.writeReg v (regAt offset)).respond .accepted
  else (s.record .registerBusError).respond (busErrorResponse a)

/-- Whether a DMEM access ends beyond MEM_SIZE (`20_memory.md` R76). -/
def State.beyondMem (s : State) (address : Nat) (a : Access) : Bool :=
  decide (s.params.memSize < address + a.width.bytes)

/-- Record what a host DMEM access is, BUSY or not: one beyond MEM_SIZE (`20_memory.md` R76), or, within it, a read of a
byte not written since reset (R75). One beyond MEM_SIZE reads no byte. -/
def State.noteAccess (s : State) (address : Nat) (a : Access) : State :=
  { s with faults :=
      if s.beyondMem address a then addFault .dmemBusError s.faults
      else
        match a with
        | .read w => (s.noteReads address w.bytes).faults
        | .write _ _ => s.faults }

/-- Record a host DMEM access while BUSY, and every other event of `60_exceptions.md` R259 that it is: `20_memory.md` R75,
R76 and R84 each cover it, and none excepts another. Which bytes have been written since reset is asked of DMEM as it
stands before the running command's step (notes/assumptions/11.md). -/
def State.recordBusyAccess (s : State) (address : Nat) (a : Access) : State :=
  (s.noteAccess address a).record .dmemAccessWhileBusy

/-- The answer to a host DMEM access while BUSY, which is unspecified: a free value, at the width of a read
(`60_exceptions.md` R259; notes/assumptions/4.md). -/
def busyDmemResponse (draw : Nat) : Access → Response
  | .read w =>
    let v := ((Config.busyDmemValue draw).setWidth (8 * w.bytes)).setWidth 32
    if Config.busyDmemBusError draw then .readBusError v else .data v
  | .write _ _ => if Config.busyDmemBusError draw then .writeBusError else .accepted

/-- A host DMEM access while BUSY: the fault is recorded, and the run goes on with an unspecified effect. A read sees
some value and, as every read, has no side effect (`20_memory.md` R74); a write disturbs the running command
(`20_memory.md` R84, `93_implementation_defined.md` U3; notes/assumptions/4.md). -/
def busyDmemAccess (address : Nat) (a : Access) (s : State) : State :=
  let t := ((s.recordBusyAccess address a).respond (busyDmemResponse s.draws a)).countDraw
  match a with
  | .read _ => t
  | .write _ _ => { t with disturbed := true }

/-- An access at a DMEM address: forbidden while BUSY, whatever the address (`20_memory.md` R84); beyond MEM_SIZE a bus
error, nothing written (R76); else little-endian over `k` bytes, a read zero-extended (R71, R76). -/
def dmemAccess (address : Nat) (a : Access) (s : State) : Result :=
  if s.busy then .next (busyDmemAccess address a s)
  else if s.beyondMem address a then .next ((s.noteAccess address a).respond (busErrorResponse a))
  else
    match a with
    | .read w => .next ((s.noteAccess address a).respond (.data (leValue 32 (s.readBytes address w.bytes))))
    | .write w v => .next ((s.writeBytes address ((leBytes v).take w.bytes)).respond .accepted)

/-- The block's two addressable spaces (`20_memory.md` R72). -/
inductive Space where
  | registers
  | dmem
  deriving DecidableEq, Repr

/-- The space and the address in it that a host address stands for, the platform having placed the two windows
(`20_memory.md` R73); `none` is an address that is not the block's (notes/assumptions/15.md). -/
def route (p : Config.Params) (hostAddress : Nat) : Option (Space × Nat) :=
  if p.regBase ≤ hostAddress ∧ hostAddress < p.regBase + 0x1000 then some (.registers, hostAddress - p.regBase)
  else if p.dmemBase ≤ hostAddress ∧ hostAddress < p.dmemBase + p.memSize then some (.dmem, hostAddress - p.dmemBase)
  else none

/-- An access at an address of the host's own map (`20_memory.md` R73; notes/assumptions/15.md). -/
def platformAccess (hostAddress : Nat) (a : Access) (s : State) : Result :=
  match route s.params hostAddress with
  | some (.registers, offset) => .next (registerAccess offset a s)
  | some (.dmem, address) => dmemAccess address a s
  | none => .next s

/-- One poll of `wait`: a read of STATUS, repeated while bit 0 of the value read is 1 (`30_encoding.md` R109;
notes/assumptions/16.md). -/
def poll (s : State) : State :=
  let s' := s.readReg (some .status)
  if s.statusWord.getLsbD 0 then { s' with pending := .awaitIdle :: s'.pending } else s'

/-- One move of the host or the platform. -/
def hostMove (e : HostEvent) (s : State) : Result :=
  match e with
  | .register offset a => .next (registerAccess offset a s)
  | .dmem address a => dmemAccess address a s
  | .platform hostAddress a => platformAccess hostAddress a s
  | .awaitIdle => .next (poll s)
  | .reset => .next s.applyReset

/-- Whose move is next. -/
inductive Mover where
  | engine
  | host (event : HostEvent) (rest : List HostEvent)
  | nobody
  deriving DecidableEq, Repr

/-- The engine moves when it is BUSY and the host has no turn left or nothing to do; else the host moves, if it has
something to do (`40_control.md` R130, `60_exceptions.md` R254, `70_reset_and_hazards.md` R291;
notes/assumptions/7.md, 8.md). -/
def State.mover (s : State) : Mover :=
  match s.pending with
  | [] => if s.busy then .engine else .nobody
  | e :: rest => if s.busy && s.hostTurns == 0 then .engine else .host e rest

/-- The state in which the host makes its move: its event taken off, its turn counted. -/
def State.takeTurn (s : State) (rest : List HostEvent) : State :=
  { s with pending := rest, hostTurns := s.hostTurns - 1 }

end Sys2Proof.Machine
end

