-- ==== Sys2Proof/Machine/Step.lean ====
section
/-! DEFINITION. One step of the machine: one atomic transition of the agent that moves next (`00_scope.md` R9,
`40_control.md` R130, `60_exceptions.md` R254), and the placing of a command word from outside. -/

namespace Sys2Proof.Machine

/-- One step. While BUSY = 0 the engine has none; with no host move to come either, the state is kept
(`40_control.md` R130, `60_exceptions.md` R266; notes/assumptions/8.md). -/
def step (s : State) : Host.Outcome State Fault Refusal :=
  match s.mover with
  | .engine => engineStep s
  | .host e rest => hostMove e (s.takeTurn rest)
  | .nobody => .next s

/-- The state with a command word placed where the next step takes it: latched in CMDL, BUSY set, the engine's step
next. It stands for a host's write to CMD (`10_state.md` R46; notes/assumptions/8.md). -/
def State.withFetchWord (s : State) (nbits w : Nat) : State :=
  { s with cmdl := BitVec.ofNat 32 (w % 2 ^ nbits), busy := true, hostTurns := 0, disturbed := false }

end Sys2Proof.Machine
end

