-- ==== Sys2Proof/Machine/HostProgram.lean ====
section
/-! DEFINITION. Host programs: the events of each statement and pseudo-instruction (`30_encoding.md` R108, R109). -/

namespace Sys2Proof.Machine

/-- The offset of a register (`10_state.md` R31). -/
def regOffset : Reg → Nat
  | .cmd => 0x000
  | .status => 0x004
  | .ctrl => 0x008
  | .src => 0x010
  | .dst => 0x014
  | .len => 0x018
  | .key r => 0x020 + 4 * r.val
  | .nonce r => 0x040 + 4 * r.val
  | .block r => 0x050 + 4 * r.val
  | .digest r => 0x060 + 4 * r.val

/-- `wr REG, v`. -/
def writeEvent (r : Reg) (v : Word) : HostEvent := .register (regOffset r) (.write .word v)

/-- The writes of a byte string into a bank of registers, one for each register the bytes reach, missing bytes taken as
0 (`30_encoding.md` R109; notes/assumptions/19.md). -/
def loadEvents {m : Nat} (bank : Fin m → Reg) (bytes : List Byte) : List HostEvent :=
  ((List.finRange m).filter fun r => decide (4 * r.val < bytes.length)).map fun r =>
    writeEvent (bank r) (leValue 32 ((bytes.drop (4 * r.val)).take 4))

/-- `cmd MNEMONIC`. -/
def commandEvent (i : Instr) : HostEvent := writeEvent .cmd (encode i)

/-- The events of a statement (`30_encoding.md` R108, R109). -/
def expandStmt : HostStmt → List HostEvent
  | .wr r v => [writeEvent r v]
  | .rd r => [.register (regOffset r) (.read .word)]
  | .cmd i => [commandEvent i]
  | .mwb a bytes => bytes.zipIdx.map fun p => .dmem (a + p.2) (.write .byte (p.1.setWidth 32))
  | .mrb a k => (List.range k).map fun i => .dmem (a + i) (.read .byte)
  | .wait => [.awaitIdle]
  | .clrst => [writeEvent .status 0x0000000E]
  | .ldkey bytes => loadEvents Reg.key bytes
  | .ldnonce bytes => (List.finRange 4).map fun r =>
      writeEvent (.nonce r) (leValue 32 ((bytes.drop (4 * r.val)).take 4))
  | .ldblk bytes => loadEvents Reg.block bytes
  | .run i => [commandEvent i, .awaitIdle]

/-- The state with a host program still to run. -/
def State.withProgram (s : State) (program : List HostStmt) : State :=
  { s with pending := s.pending ++ program.flatMap expandStmt }

end Sys2Proof.Machine
end

