-- ==== Sys2Proof/Machine/Packed.lean ====
section
/-! DEFINITION. The packed datapath of the IV variant: a 48-bit half-word in the high bits of a 64-bit word
(`10_state.md` R41, `42_speck_core.md` R181 to R183). The spec calls it not observable; the commands are stated on
48-bit values, and the package states that this datapath computes the same (notes/assumptions/13.md). -/

namespace Sys2Proof.Machine

/-- `P(v) = v · 2^16` (`42_speck_core.md` R182). -/
def pack48 (v : BitVec 48) : BitVec 64 := v ++ 0#16

/-- The value of a packed word, `X >> 16` (`42_speck_core.md` R183). -/
def unpack48 (x : BitVec 64) : BitVec 48 := (x >>> 16).setWidth 48

/-- The mask `HM` (`42_speck_core.md` R182). -/
def packedMask : BitVec 64 := 0xFFFFFFFFFFFF0000

/-- `ROR8p` (`42_speck_core.md` R182). -/
def ror8p (x : BitVec 64) : BitVec 64 := ((x >>> 8) ||| (x <<< 40)) &&& packedMask

/-- `ROL3p` (`42_speck_core.md` R182). -/
def rol3p (x : BitVec 64) : BitVec 64 := ((x <<< 3) ||| (x >>> 45)) &&& packedMask

/-- The inverse rotates, in the same manner: right by 3 and left by 8 (`42_speck_core.md` R174, R182). -/
def ror3p (x : BitVec 64) : BitVec 64 := ((x >>> 3) ||| (x <<< 45)) &&& packedMask

/-- See `ror3p`. -/
def rol8p (x : BitVec 64) : BitVec 64 := ((x <<< 8) ||| (x >>> 40)) &&& packedMask

/-- The encryption round on packed words (`42_speck_core.md` R173, R182). -/
def encRoundPacked (x y k : BitVec 64) : BitVec 64 × BitVec 64 :=
  let x' := (ror8p x + y) ^^^ k
  (x', rol3p y ^^^ x')

/-- The decryption round on packed words (`42_speck_core.md` R174, R182). -/
def decRoundPacked (x y k : BitVec 64) : BitVec 64 × BitVec 64 :=
  let y' := ror3p (y ^^^ x)
  (rol8p ((x ^^^ k) - y'), y')

/-- Block encryption on packed words (`42_speck_core.md` R175). -/
def encKeysPacked (rk : List (BitVec 64)) (x y : BitVec 64) : BitVec 64 × BitVec 64 :=
  rk.foldl (fun p k => encRoundPacked p.1 p.2 k) (x, y)

/-- Block decryption on packed words (`42_speck_core.md` R176). -/
def decKeysPacked (rk : List (BitVec 64)) (x y : BitVec 64) : BitVec 64 × BitVec 64 :=
  rk.foldr (fun k p => decRoundPacked p.1 p.2 k) (x, y)

/-- The key schedule on packed words, the round constant `i` packed as `i · 2^16` (`42_speck_core.md` R179, R182). -/
def schedulePackedFrom : (steps i : Nat) → (k l : BitVec 64) → (rest : List (BitVec 64)) → List (BitVec 64)
  | 0, _, _, _, _ => []
  | steps + 1, i, k, l, rest =>
    let p := encRoundPacked l k (pack48 (BitVec.ofNat 48 i))
    k :: match rest with
      | [] => schedulePackedFrom steps (i + 1) p.2 p.1 []
      | r :: rs => schedulePackedFrom steps (i + 1) p.2 r (rs ++ [p.1])

end Sys2Proof.Machine
end

