-- ==== Sys2Proof/Safety.lean ====
section
/-! DEFINITION. What counts as a good state and a safe run, in the terms the statements use. -/

namespace Sys2Proof.Machine

/-- What holds of the state at reset and is kept by every step. -/
structure Inv (s : State) : Prop where
  /-- the parameters meet the spec's constraints (`00_scope.md` R6, R8) -/
  paramsOk : s.params.wf = true
  /-- DMEM keeps its canonical form -/
  memCanonical : Memory.wf s.mem = true
  /-- no byte is held outside DMEM (`20_memory.md` R74) -/
  memInRange : ∀ c ∈ s.mem, c.1 < s.params.memSize
  /-- ERRCODE is 0 when ERR = 0 (`10_state.md` R43) -/
  noCodeWithoutErr : s.err = false → s.errcode = 0
  /-- ERRCODE is one of the four codes when ERR = 1: 5 to 15 are never written (`60_exceptions.md` R250) -/
  knownCode : s.err = true → s.errcode = 1 ∨ s.errcode = 2 ∨ s.errcode = 3 ∨ s.errcode = 4
  /-- a slot that is not valid holds no key (`10_state.md` R40, R51) -/
  noKeyInS : s.slotS.valid = false → s.slotS = Slot.empty 64 34
  /-- likewise slot H -/
  noKeyInH : s.slotH.valid = false → s.slotH = Slot.empty 64 32
  /-- likewise slot IV -/
  noKeyInIV : s.slotIV.valid = false → s.slotIV = Slot.empty 48 28
  /-- only a running command is disturbed (notes/assumptions/4.md) -/
  disturbedWhileBusy : s.disturbed = true → s.busy = true

/-- A run of `k` steps is safe when it goes on and has recorded no fault event (`00_scope.md` R14). -/
def SafeRun (k : Nat) (s : State) : Prop := ∃ t, Host.Core.run Sys2Proof.core k s = .next t ∧ t.faults = []

/-- It is the engine's turn, with a command to run (`40_control.md` R130). -/
def State.engineTurn (s : State) : Prop := s.busy = true ∧ (s.hostTurns = 0 ∨ s.pending = [])

end Sys2Proof.Machine
end

