-- ==== Sys2Proof/Certificates/Slice0/Obligations.lean ====
section
/-! DEFINITION. The statements for the provers, and before them the words they are made in, written from the rules of
spec/ rather than from the meanings. A name `t` is the state a command or a move answers. -/

namespace Sys2Proof.Spec

open Sys2Proof Sys2Proof.Machine

/-- The opcode map, word by word (`30_encoding.md` R104). -/
def opcodeTable : List (Word × Instr) := List.flatten [
  [(0x00000000, .nop), (0x00000010, .hash16), (0x00000011, .hash32), (0x00000012, .hash64), (0x00000013, .hash128),
    (0x00000014, .hash256)],
  [(0x00000020, .kexpS), (0x00000021, .kexpH), (0x00000022, .kexpIV), (0x00000024, .kclrS), (0x00000025, .kclrH),
    (0x00000026, .kclrIV)],
  [(0x00000030, .ecbEncS), (0x00000031, .ecbEncH), (0x00000032, .ecbEncIV), (0x00000034, .ecbDecS),
    (0x00000035, .ecbDecH), (0x00000036, .ecbDecIV), (0x00000040, .ctrS), (0x00000041, .ctrH)]]

/-- Byte `k` of the byte string a bank of registers holds: byte `k mod 4` of register `k div 4` (`10_state.md` R36 to
R38, R42). -/
def regByte {m : Nat} (regs : Vector Word m) (k : Nat) : Byte :=
  (regs.toList.getD (k / 4) 0).extractLsb' (8 * (k % 4)) 8

/-- `[a, a + LEN)` lies within DMEM (`20_memory.md` R79). -/
def inDmem (s : State) (a : Word) : Prop := a.toNat + s.len.toNat ≤ s.params.memSize

/-- The command is rejected with error code `c` and changes nothing else (`60_exceptions.md` R252). -/
def rejectedWith (c : BitVec 4) (i : Instr) (s : State) : Prop :=
  exec i s = .next { s with err := true, errcode := c, busy := false }

/-- The state `s` ended by a completion, nothing else changed (`40_control.md` R132). -/
def completed (s : State) : State := { s with done := true, busy := false }

/-- Byte `j` of a lane after the input bytes, newest first: the lane starts at zero, and each byte `c` gives
`L'[j] = SBOX[L[PERM[j]] ^ c ^ M[PERM[j]]]` (`41_pearson.md` R144, R145, R148). -/
def laneByte {w : Nat} (sbox : Vector Byte 256) (perm : Vector (Fin w) w) (mask : Fin w → Byte) :
    List Byte → Fin w → Byte
  | [], _ => 0
  | c :: earlier, j =>
    sbox[(laneByte sbox perm mask earlier perm[j] ^^^ c ^^^ mask perm[j]).toNat]'(BitVec.isLt _)

/-- Byte `j` of the mask of lane `l` (0 lower, 1 upper, 2 high-lower, 3 high-upper): a high mask adds 0x10 to every byte
(`41_pearson.md` R142, R143). -/
def laneMask (p : Config.Params) (l : Nat) (j : Fin 8) : Byte :=
  (if l % 2 = 0 then p.maskLower[j] else p.maskUpper[j]) + (if l < 2 then 0 else 0x10)

/-- The input of HASH and CTR, newest byte first. -/
def inputReversed (s : State) : List Byte :=
  ((List.range s.len.toNat).map fun i => s.readByte (s.src.toNat + i)).reverse

/-- The input of HASH and CTR has been written since reset, all of it. -/
def inputWritten (s : State) : Prop :=
  ∀ i < s.len.toNat, (Memory.load? s.mem (s.src.toNat + i)).isSome = true

/-- `t` is `s` with the command completed and nothing changed but DIGEST, and, where it read a byte not written since
reset, the fault record. -/
def onlyDigest (s t : State) : Prop :=
  t = { completed s with digest := t.digest, faults := t.faults } ∧ (inputWritten s → t.faults = s.faults)

/-- A CTR command passes its checks with something to do: the slot is valid, LEN is not 0, both buffers lie in DMEM,
and they are one buffer or do not intersect (`60_exceptions.md` R253, `20_memory.md` R79, R80). -/
def ctrAccepted (valid : Bool) (s : State) : Prop :=
  valid = true ∧ s.len ≠ 0 ∧ inDmem s s.src ∧ inDmem s s.dst ∧
    (s.src = s.dst ∨ s.src.toNat + s.len.toNat ≤ s.dst.toNat ∨ s.dst.toNat + s.len.toNat ≤ s.src.toNat)

/-- Byte `i` of the keystream: byte `i mod 16` of `BYTES(y') || BYTES(x')`, where `(x', y')` encrypts
`(NONCE_HI, NONCE_LO + i div 16)` (`44_ctr.md` R221, R223). -/
def keystreamByte {T : Nat} (rk : Vector (BitVec 64) T) (hi lo : BitVec 64) (i : Nat) : Byte :=
  let p := encryptBlock rk hi (lo + BitVec.ofNat 64 (i / 16))
  if i % 16 < 8 then p.2.extractLsb' (8 * (i % 16)) 8 else p.1.extractLsb' (8 * (i % 16 - 8)) 8

/-- `t` is `s` after a CTR command under the round keys `rk`: each output byte is the input byte XOR the keystream byte,
every other byte of DMEM reads as before, NONCE_LO counts the blocks, and nothing else changes but, where the input is
not written, the fault record (`44_ctr.md` R220 to R224). -/
def ctrResult {T : Nat} (rk : Vector (BitVec 64) T) (s t : State) : Prop :=
  t = { completed s with mem := t.mem, nonce := t.nonce, faults := t.faults } ∧
  (inputWritten s → t.faults = s.faults) ∧
  (∀ i < s.len.toNat, Memory.load? t.mem (s.dst.toNat + i) = some (s.readByte (s.src.toNat + i) ^^^
    keystreamByte rk (s.nonce[3] ++ s.nonce[2]) (s.nonce[1] ++ s.nonce[0]) i)) ∧
  (∀ a, a < s.dst.toNat ∨ s.dst.toNat + s.len.toNat ≤ a → Memory.load? t.mem a = Memory.load? s.mem a) ∧
  t.nonce[1] ++ t.nonce[0] =
    (s.nonce[1] ++ s.nonce[0] : BitVec 64) + BitVec.ofNat 64 ((s.len.toNat + 15) / 16) ∧
  t.nonce[2] = s.nonce[2] ∧ t.nonce[3] = s.nonce[3]

/-- The round keys of a key schedule: `rk[0] = k_0`, and there are helper words `l`, the first `m - 1` of them given,
with `l_{i+m-1} = (ROR(l_i, 8) + k_i) ^ i` and `k_{i+1} = ROL(k_i, 3) ^ l_{i+m-1}` (`42_speck_core.md` R179). -/
def isSchedule {n T : Nat} (k0 : BitVec n) (helpers : List (BitVec n)) (rk : Vector (BitVec n) (T + 1)) : Prop :=
  rk[0] = k0 ∧ ∃ l : Nat → BitVec n,
    (∀ i, (h : i < helpers.length) → l i = helpers[i]) ∧
    ∀ i, (h : i < T) →
      l (i + helpers.length) = ((l i).rotateRight 8 + rk[i]) ^^^ BitVec.ofNat n i ∧
      rk[i + 1] = rk[i].rotateLeft 3 ^^^ l (i + helpers.length)

/-- The block of an S or H command as the pair `(x, y)` (`42_speck_core.md` R171). -/
def blockPair (s : State) : BitVec 64 × BitVec 64 := (s.block[3] ++ s.block[2], s.block[1] ++ s.block[0])

/-- The block of an IV command as the pair `(x, y)` of 48-bit half-words (`42_speck_core.md` R171). -/
def blockPairIV (s : State) : BitVec 48 × BitVec 48 :=
  (s.block[2] ++ s.block[1].extractLsb' 16 16, s.block[1].extractLsb' 0 16 ++ s.block[0])

/-- A host write of a 32-bit word at an offset of the register window. -/
def hostWrite (offset : Nat) (v : Word) (s : State) : Result := hostMove (.register offset (.write .word v)) s

/-- A host read of 32 bits at an offset of the register window. -/
def hostRead (offset : Nat) (s : State) : Result := hostMove (.register offset (.read .word)) s

/-- `t` is `s` with the host answered `r`, and nothing else changed. -/
def answered (s : State) (r : Response) : State := { s with responses := s.responses ++ [r] }

/-- The answer of a bus error: a read returns 0 (`10_state.md` R32, `20_memory.md` R76). -/
def busErrorAnswer : Access → Response
  | .read _ => .readBusError 0
  | .write _ _ => .writeBusError

/-- The register map (`10_state.md` R31). -/
def registerMap : List (Nat × Reg) := List.flatten [
  [(0x000, .cmd), (0x004, .status), (0x008, .ctrl), (0x010, .src), (0x014, .dst), (0x018, .len)],
  (List.finRange 8).map fun r => (0x020 + 4 * r.val, .key r),
  (List.finRange 4).map fun r => (0x040 + 4 * r.val, .nonce r),
  (List.finRange 4).map fun r => (0x050 + 4 * r.val, .block r),
  (List.finRange 8).map fun r => (0x060 + 4 * r.val, .digest r)]

/-- The state with other key material: KEY and the round keys replaced, the VALID bits kept. -/
def withKeys (s : State) (key : Vector Word 8) (rkS : Vector (BitVec 64) 34) (rkH : Vector (BitVec 64) 32)
    (rkIV : Vector (BitVec 48) 28) : State :=
  { s with key := key, slotS := ⟨rkS, s.slotS.valid⟩, slotH := ⟨rkH, s.slotH.valid⟩, slotIV := ⟨rkIV, s.slotIV.valid⟩ }

/-- Word `r` of a byte string, low byte first, missing bytes 0 (`30_encoding.md` R109, `00_scope.md` R12). -/
def wordAt (bytes : List Byte) (r : Nat) : Word :=
  bytes.getD (4 * r + 3) 0 ++ bytes.getD (4 * r + 2) 0 ++ bytes.getD (4 * r + 1) 0 ++ bytes.getD (4 * r) 0

/-- The lanes of a digest run in lock-step: for each input byte, every lane absorbs it and is diffused
(`41_pearson.md` R148). -/
def lockstep {k w : Nat} (sbox : Vector Byte 256) (perm : Vector (Fin w) w) (masks : Vector (Vector Byte w) k)
    (input : List Byte) : Vector (Vector Byte w) k :=
  input.foldl (fun lanes c => Vector.ofFn fun l => diffuse sbox perm (absorb lanes[l] c masks[l]))
    (Vector.replicate k (Vector.replicate w 0))

end Sys2Proof.Spec

open Sys2Proof Sys2Proof.Machine Sys2Proof.Spec

/-! ### Encoding -/

/-- A word decodes to a command exactly when the opcode map pairs them, and each command's word decodes to it
(`30_encoding.md` R104, R105). -/
def Obligations.DecodeExactlyTheTwentyWords : Prop :=
  (∀ (w : Word) (i : Instr), decode w = .ok i ↔ (w, i) ∈ opcodeTable) ∧ ∀ i : Instr, decode (encode i) = .ok i

/-- One word of each class, written out from its fields (`30_encoding.md` R100 to R102). -/
def Obligations.SampleWordsDecode : Prop :=
  decode 0b00000000000000000000000000000000 = .ok .nop ∧ decode 0b00000000000000000000000000010100 = .ok .hash256 ∧
  decode 0b00000000000000000000000000100110 = .ok .kclrIV ∧ decode 0b00000000000000000000000000110101 = .ok .ecbDecH ∧
  decode 0b00000000000000000000000001000001 = .ok .ctrH

/-- An illegal word in the latch: on the engine's turn the step is the engine's, which rejects the word with ILLEGAL and
changes nothing else (`40_control.md` R131, `30_encoding.md` R106). Whose turn it is is log 7; where the host has written
DMEM during the command, the bytes of DMEM are unspecified too, which is log 4. -/
def Obligations.IllegalWordRejected : Prop :=
  ∀ s : State, (∀ p ∈ opcodeTable, s.cmdl ≠ p.1) →
    (s.engineTurn → step s = engineStep s) ∧
    (s.disturbed = false → engineStep s = .next { s with err := true, errcode := 1, busy := false }) ∧
    (s.disturbed = true → ∃ t, engineStep s = .next t ∧ t = { s with
      err := true, errcode := 1, busy := false, mem := t.mem, draws := t.draws, epoch := t.epoch, disturbed := false })

/-- On the engine's turn a step is `exec` of the command the latch decodes to, and a word placed by `withFetchWord` is
the very next command run (`40_control.md` R130). Whose turn it is, is the model's choice (log 7); that a word is placed
from outside is log 8; that a command the host has disturbed runs between two losses of what DMEM holds is log 4. -/
def Obligations.StepRunsDecodedCommand : Prop :=
  (∀ (s : State) (i : Instr), s.engineTurn → decode s.cmdl = .ok i →
    (s.disturbed = false → step s = exec i s) ∧
    (s.disturbed = true → ∃ t, exec i s.disturb = .next t ∧ step s = .next t.disturb.settle)) ∧
  ∀ (s : State) (i : Instr),
    step (s.withFetchWord 32 (encode i).toNat) = exec i (s.withFetchWord 32 (encode i).toNat)

/-! ### The end of a command -/

/-- Every command ends at its engine step: completed, with DONE set and ERR, ERRCODE and OVR unchanged, or rejected with
a code, every other register, slot and DMEM byte unchanged (`40_control.md` R132, `60_exceptions.md` R252). -/
def Obligations.EveryCommandEnds : Prop :=
  ∀ (i : Instr) (s : State),
    (∃ t, exec i s = .next t ∧ t.done = true ∧ t.busy = false ∧ t.err = s.err ∧ t.errcode = s.errcode ∧
      t.ovr = s.ovr) ∨
    ∃ c, (c = 2 ∨ c = 3 ∨ c = 4) ∧ rejectedWith c i s

/-- The checks of a CTR command, in their order: NOKEY; a length of 0 completes with nothing done; RANGE for either
buffer; OVERLAP (`60_exceptions.md` R253). -/
def Obligations.CtrChecksInOrder : Prop :=
  ∀ (s : State) (i : Instr) (valid : Bool), (i = .ctrS ∧ valid = s.slotS.valid) ∨ (i = .ctrH ∧ valid = s.slotH.valid) →
    (valid = false → rejectedWith 2 i s) ∧
    (valid = true → s.len = 0 → exec i s = .next (completed s)) ∧
    (valid = true → s.len ≠ 0 → ¬ (inDmem s s.src ∧ inDmem s s.dst) → rejectedWith 3 i s) ∧
    (valid = true → s.len ≠ 0 → inDmem s s.src → inDmem s s.dst → s.src ≠ s.dst →
      s.src.toNat < s.dst.toNat + s.len.toNat → s.dst.toNat < s.src.toNat + s.len.toNat → rejectedWith 4 i s)

/-- A HASH whose input runs past MEM_SIZE is rejected with RANGE, the sum not wrapped (`41_pearson.md` R150,
`20_memory.md` R79). -/
def Obligations.HashOutOfRangeRejected : Prop :=
  ∀ s : State, s.len ≠ 0 → ¬ inDmem s s.src →
    ∀ i ∈ [Instr.hash16, .hash32, .hash64, .hash128, .hash256], rejectedWith 3 i s

/-- An ECB command on a slot that is not valid is rejected with NOKEY (`43_ecb.md` R207). -/
def Obligations.EcbWithoutKeyRejected : Prop :=
  ∀ s : State,
    (s.slotS.valid = false → rejectedWith 2 .ecbEncS s ∧ rejectedWith 2 .ecbDecS s) ∧
    (s.slotH.valid = false → rejectedWith 2 .ecbEncH s ∧ rejectedWith 2 .ecbDecH s) ∧
    (s.slotIV.valid = false → rejectedWith 2 .ecbEncIV s ∧ rejectedWith 2 .ecbDecIV s)

/-- What the commands write, by family: DIGEST only by HASH, the slots only by KEXP and KCLR (each only its own), BLOCK
only by ECB, DMEM and NONCE only by CTR; SRC, DST, LEN, CTRL, KEY, OVR, the latch and the parameters by none
(`30_encoding.md` R103, `10_state.md` R34, R49). -/
def Obligations.CommandsWriteOnlyTheirResults : Prop :=
  ∀ (i : Instr) (s t : State), exec i s = .next t →
    (i ∉ [Instr.hash16, .hash32, .hash64, .hash128, .hash256] → t.digest = s.digest) ∧
    (i ∉ [Instr.kexpS, .kclrS] → t.slotS = s.slotS) ∧ (i ∉ [Instr.kexpH, .kclrH] → t.slotH = s.slotH) ∧
    (i ∉ [Instr.kexpIV, .kclrIV] → t.slotIV = s.slotIV) ∧
    (i ∉ [Instr.ecbEncS, .ecbEncH, .ecbEncIV, .ecbDecS, .ecbDecH, .ecbDecIV] → t.block = s.block) ∧
    (i ∉ [Instr.ctrS, .ctrH] → t.mem = s.mem ∧ t.nonce = s.nonce) ∧
    t.src = s.src ∧ t.dst = s.dst ∧ t.len = s.len ∧ t.ie = s.ie ∧ t.key = s.key ∧ t.ovr = s.ovr ∧ t.cmdl = s.cmdl ∧
    t.nonce[2] = s.nonce[2] ∧ t.nonce[3] = s.nonce[3] ∧ t.params = s.params ∧ t.pending = s.pending ∧
    t.responses = s.responses ∧ t.hostTurns = s.hostTurns ∧ t.draws = s.draws ∧ t.epoch = s.epoch ∧
    t.disturbed = s.disturbed

/-! ### NOP -/

/-- NOP sets DONE, clears BUSY and changes nothing else (`40_control.md` R133, R132). -/
def Obligations.NopCompletes : Prop := ∀ s : State, exec .nop s = .next { s with done := true, busy := false }

/-! ### HASH -/

/-- HASH16, HASH32 and HASH64 over an input that is empty or lies in DMEM complete, the digest's bytes being those of
the one lane and the rest of DIGEST zero; DMEM and every other register are unchanged (`41_pearson.md` R142, R144,
R145, R148, R150). -/
def Obligations.NarrowHashResult : Prop :=
  ∀ s : State, s.len = 0 ∨ inDmem s s.src →
    (∃ t, exec .hash16 s = .next t ∧ onlyDigest s t ∧
      (∀ j : Fin 2, regByte t.digest j =
        laneByte s.params.sbox s.params.perm2 (fun i => s.params.mask16[i]) (inputReversed s) j) ∧
      ∀ k, 2 ≤ k → k < 32 → regByte t.digest k = 0) ∧
    (∃ t, exec .hash32 s = .next t ∧ onlyDigest s t ∧
      (∀ j : Fin 4, regByte t.digest j =
        laneByte s.params.sbox s.params.perm4 (fun i => s.params.mask32[i]) (inputReversed s) j) ∧
      ∀ k, 4 ≤ k → k < 32 → regByte t.digest k = 0) ∧
    ∃ t, exec .hash64 s = .next t ∧ onlyDigest s t ∧
      (∀ j : Fin 8, regByte t.digest j =
        laneByte s.params.sbox s.params.perm8 (fun i => s.params.mask64[i]) (inputReversed s) j) ∧
      ∀ k, 8 ≤ k → k < 32 → regByte t.digest k = 0

/-- HASH128 and HASH256 likewise: digest bytes `8i..8i+7` are the lane that entry `i` of the order names
(`41_pearson.md` R142, R143, R148 to R150). -/
def Obligations.WideHashResult : Prop :=
  ∀ s : State, s.len = 0 ∨ inDmem s s.src →
    (∃ t, exec .hash128 s = .next t ∧ onlyDigest s t ∧
      (∀ (i : Fin 2) (j : Fin 8), regByte t.digest (8 * i + j) =
        laneByte s.params.sbox s.params.perm8 (laneMask s.params s.params.order128[i].val) (inputReversed s) j) ∧
      ∀ k, 16 ≤ k → k < 32 → regByte t.digest k = 0) ∧
    ∃ t, exec .hash256 s = .next t ∧ onlyDigest s t ∧
      ∀ (i : Fin 4) (j : Fin 8), regByte t.digest (8 * i + j) =
        laneByte s.params.sbox s.params.perm8 (laneMask s.params s.params.order256[i].val) (inputReversed s) j

/-- An empty input gives the zero digest at every width and any SRC, and the same HASH again over unchanged DMEM gives
the same DIGEST (`41_pearson.md` R151, `20_memory.md` R74; an unwritten byte is log 5). -/
def Obligations.HashEmptyAndRepeatable : Prop :=
  ∀ (s : State), ∀ i ∈ [Instr.hash16, .hash32, .hash64, .hash128, .hash256],
    (s.len = 0 → exec i s = .next { completed s with digest := Vector.replicate 8 0 }) ∧
    (s.len = 0 ∨ inDmem s s.src →
      ∃ t u, exec i s = .next t ∧ exec i t = .next u ∧ u.digest = t.digest ∧ u.mem = s.mem)

/-- The lower and upper lanes of HASH256 are the lanes of HASH128 over the same input (`41_pearson.md` R156; an unwritten
byte is log 5). -/
def Obligations.WideDigestsShareLanes : Prop :=
  ∀ s : State, s.len = 0 ∨ inDmem s s.src →
    ∃ t u, exec .hash128 s = .next t ∧ exec .hash256 s = .next u ∧
      ∀ (i : Fin 2) (k : Fin 4), s.params.order256[k].val = s.params.order128[i].val →
        ∀ j : Fin 8, regByte t.digest (8 * i + j) = regByte u.digest (8 * k + j)

/-- With a bijective S-box, two one-byte inputs that differ have different digests at every width
(`41_pearson.md` R140, R145, R151). -/
def Obligations.SingleByteDigestsDiffer : Prop :=
  ∀ (s : State) (src' : Word), s.params.sboxOk = true → s.len = 1 → inDmem s s.src → inDmem s src' →
    s.readByte s.src.toNat ≠ s.readByte src'.toNat →
    ∀ i ∈ [Instr.hash16, .hash32, .hash64, .hash128, .hash256],
      ∃ t u, exec i s = .next t ∧ exec i { s with src := src' } = .next u ∧ t.digest ≠ u.digest

/-- Lanes run in lock-step give each lane what it gives by itself (`41_pearson.md` R141, R148; the model's choice of
the second form is log 14). -/
def Obligations.LockstepLanesAgree : Prop :=
  ∀ (k w : Nat) (sbox : Vector Byte 256) (perm : Vector (Fin w) w) (masks : Vector (Vector Byte w) k)
    (input : List Byte) (l : Fin k), (lockstep sbox perm masks input)[l] = laneHash sbox perm masks[l] input

/-- A HASH or CTR that reads its input records the fault `unwrittenRead` exactly when some byte of it has not been
written since reset, and clears none. That the run goes on is the model's reading (log 3; `20_memory.md` R75). -/
def Obligations.UnwrittenReadsRecorded : Prop :=
  ∀ s : State, s.len ≠ 0 →
    (inDmem s s.src → ∀ i ∈ [Instr.hash16, .hash32, .hash64, .hash128, .hash256], ∃ t, exec i s = .next t ∧
      (inputWritten s → t.faults = s.faults) ∧
      (¬ inputWritten s → ∀ f, f ∈ t.faults ↔ f = .unwrittenRead ∨ f ∈ s.faults)) ∧
    ∀ i ∈ [Instr.ctrS, .ctrH], ctrAccepted (if i = .ctrS then s.slotS.valid else s.slotH.valid) s →
      ∃ t, exec i s = .next t ∧ (inputWritten s → t.faults = s.faults) ∧
        (¬ inputWritten s → ∀ f, f ∈ t.faults ↔ f = .unwrittenRead ∨ f ∈ s.faults)

/-! ### SPECK -/

/-- The encryption round as arithmetic on numbers modulo `2^n`: `x' = (ROR(x, 8) + y) ^ k` and `y' = ROL(y, 3) ^ x'`
(`42_speck_core.md` R173). -/
def Obligations.EncryptionRoundArithmetic : Prop :=
  ∀ (n : Nat) (x y k : BitVec n), 8 < n →
    (encRound x y k).1.toNat = ((x.toNat / 2 ^ 8 + x.toNat % 2 ^ 8 * 2 ^ (n - 8) + y.toNat) % 2 ^ n) ^^^ k.toNat ∧
    (encRound x y k).2.toNat =
      (y.toNat * 2 ^ 3 % 2 ^ n + y.toNat / 2 ^ (n - 3)) ^^^ (encRound x y k).1.toNat

/-- The decryption round undoes the encryption round and is undone by it (`42_speck_core.md` R174). -/
def Obligations.RoundsAreInverse : Prop :=
  ∀ (n : Nat) (x y k : BitVec n), 8 < n →
    decRound (encRound x y k).1 (encRound x y k).2 k = (x, y) ∧
    encRound (decRound x y k).1 (decRound x y k).2 k = (x, y)

/-- `E` runs the rounds `rk[0], …, rk[T-1]` and `D` the inverse rounds `rk[T-1], …, rk[0]` (`42_speck_core.md` R175,
R176). -/
def Obligations.BlockCipherRoundOrder : Prop :=
  ∀ (n T : Nat) (rk : Vector (BitVec n) T) (x y : BitVec n),
    (∃ st : Nat → BitVec n × BitVec n, st 0 = (x, y) ∧ st T = encryptBlock rk x y ∧
      ∀ i, (h : i < T) → st (i + 1) = encRound (st i).1 (st i).2 rk[i]) ∧
    ∃ st : Nat → BitVec n × BitVec n, st T = (x, y) ∧ st 0 = decryptBlock rk x y ∧
      ∀ i, (h : i < T) → st i = decRound (st (i + 1)).1 (st (i + 1)).2 rk[i]

/-- Decryption undoes encryption and encryption undoes decryption, at every width, under every array of round keys
(`42_speck_core.md` R177). -/
def Obligations.BlockCipherRoundTrip : Prop :=
  ∀ (n T : Nat) (rk : Vector (BitVec n) T) (x y : BitVec n), 8 < n →
    decryptBlock rk (encryptBlock rk x y).1 (encryptBlock rk x y).2 = (x, y) ∧
    encryptBlock rk (decryptBlock rk x y).1 (decryptBlock rk x y).2 = (x, y)

/-- The packed operations of the IV datapath are those on 48-bit values (`42_speck_core.md` R182). -/
def Obligations.PackedOperationsAgree : Prop :=
  ∀ v a b : BitVec 48,
    ror8p (pack48 v) = pack48 (ror v 8) ∧ rol3p (pack48 v) = pack48 (rol v 3) ∧
    pack48 a + pack48 b = pack48 (a + b) ∧ pack48 a - pack48 b = pack48 (a - b) ∧
    pack48 a ^^^ pack48 b = pack48 (a ^^^ b) ∧
    ∀ i < 28, pack48 (BitVec.ofNat 48 i) = BitVec.ofNat 64 (i * 2 ^ 16)

/-- The packed datapath is not observable: key schedule, encryption and decryption on packed words give the packed
results, and unpacking gives the value back (`42_speck_core.md` R182, R183; that the commands compute on 48-bit values
is log 13, DEDUCED). -/
def Obligations.PackedDatapathRefines : Prop :=
  (∀ v : BitVec 48, unpack48 (pack48 v) = v) ∧
  (∀ (rk : List (BitVec 48)) (x y : BitVec 48),
    encKeysPacked (rk.map pack48) (pack48 x) (pack48 y) =
      (pack48 (encKeys rk x y).1, pack48 (encKeys rk x y).2) ∧
    decKeysPacked (rk.map pack48) (pack48 x) (pack48 y) =
      (pack48 (decKeys rk x y).1, pack48 (decKeys rk x y).2)) ∧
  ∀ (steps i : Nat) (k l : BitVec 48) (rest : List (BitVec 48)),
    schedulePackedFrom steps i (pack48 k) (pack48 l) (rest.map pack48) = (scheduleFrom steps i k l rest).map pack48

/-! ### KEXP and KCLR -/

/-- KEXP writes its slot whole with the key schedule of the first 32, 16 or 12 key bytes and sets its VALID bit; KEY
and everything else is unchanged. It completes in every state (`42_speck_core.md` R172, R179, R190 to R192). -/
def Obligations.KeyExpansionResult : Prop :=
  ∀ s : State,
    (∃ t, exec .kexpS s = .next t ∧ t = { completed s with slotS := t.slotS } ∧ t.slotS.valid = true ∧
      isSchedule (T := 33) (s.key[1] ++ s.key[0] : BitVec 64)
        [s.key[3] ++ s.key[2], s.key[5] ++ s.key[4], s.key[7] ++ s.key[6]] t.slotS.rk) ∧
    (∃ t, exec .kexpH s = .next t ∧ t = { completed s with slotH := t.slotH } ∧ t.slotH.valid = true ∧
      isSchedule (T := 31) (s.key[1] ++ s.key[0] : BitVec 64) [s.key[3] ++ s.key[2]] t.slotH.rk) ∧
    ∃ t, exec .kexpIV s = .next t ∧ t = { completed s with slotIV := t.slotIV } ∧ t.slotIV.valid = true ∧
      isSchedule (T := 27) (s.key[1].extractLsb' 0 16 ++ s.key[0] : BitVec 48)
        [s.key[2] ++ s.key[1].extractLsb' 16 16] t.slotIV.rk

/-- KCLR zeroes every entry of its slot, clears its VALID bit and changes nothing else, in every state
(`42_speck_core.md` R193 to R195). -/
def Obligations.KeyClearResult : Prop :=
  ∀ s : State,
    exec .kclrS s = .next { completed s with slotS := ⟨Vector.replicate 34 0, false⟩ } ∧
    exec .kclrH s = .next { completed s with slotH := ⟨Vector.replicate 32 0, false⟩ } ∧
    exec .kclrIV s = .next { completed s with slotIV := ⟨Vector.replicate 28 0, false⟩ }

/-! ### ECB -/

/-- ECB.ENC under a valid slot replaces the block in place by its encryption; the IV form leaves BLOCK3; nothing else
changes (`43_ecb.md` R200 to R202, R206, R207). -/
def Obligations.EcbEncryptResult : Prop :=
  ∀ s : State,
    (s.slotS.valid = true → ∃ t, exec .ecbEncS s = .next t ∧ t = { completed s with block := t.block } ∧
      blockPair t = encryptBlock s.slotS.rk (blockPair s).1 (blockPair s).2) ∧
    (s.slotH.valid = true → ∃ t, exec .ecbEncH s = .next t ∧ t = { completed s with block := t.block } ∧
      blockPair t = encryptBlock s.slotH.rk (blockPair s).1 (blockPair s).2) ∧
    (s.slotIV.valid = true → ∃ t, exec .ecbEncIV s = .next t ∧ t = { completed s with block := t.block } ∧
      t.block[3] = s.block[3] ∧
      blockPairIV t = encryptBlock s.slotIV.rk (blockPairIV s).1 (blockPairIV s).2)

/-- ECB.DEC likewise, with decryption (`43_ecb.md` R203 to R207). -/
def Obligations.EcbDecryptResult : Prop :=
  ∀ s : State,
    (s.slotS.valid = true → ∃ t, exec .ecbDecS s = .next t ∧ t = { completed s with block := t.block } ∧
      blockPair t = decryptBlock s.slotS.rk (blockPair s).1 (blockPair s).2) ∧
    (s.slotH.valid = true → ∃ t, exec .ecbDecH s = .next t ∧ t = { completed s with block := t.block } ∧
      blockPair t = decryptBlock s.slotH.rk (blockPair s).1 (blockPair s).2) ∧
    (s.slotIV.valid = true → ∃ t, exec .ecbDecIV s = .next t ∧ t = { completed s with block := t.block } ∧
      t.block[3] = s.block[3] ∧
      blockPairIV t = decryptBlock s.slotIV.rk (blockPairIV s).1 (blockPairIV s).2)

/-- Encrypting and decrypting again, or the reverse, under an unchanged valid slot restores the whole state but for DONE
and BUSY (`43_ecb.md` R208). -/
def Obligations.EcbRoundTrip : Prop :=
  ∀ (s : State) (enc dec : Instr) (valid : Bool),
    (enc = .ecbEncS ∧ dec = .ecbDecS ∧ valid = s.slotS.valid) ∨ (enc = .ecbEncH ∧ dec = .ecbDecH ∧ valid = s.slotH.valid) ∨
      (enc = .ecbEncIV ∧ dec = .ecbDecIV ∧ valid = s.slotIV.valid) →
    valid = true →
    (∃ t, exec enc s = .next t ∧ exec dec t = .next (completed s)) ∧
    ∃ t, exec dec s = .next t ∧ exec enc t = .next (completed s)

/-! ### CTR -/

/-- CTR under a valid slot over buffers that pass its checks: the output is the input XOR the keystream, byte by byte,
every other DMEM byte reads as before, NONCE_LO advances by the blocks used modulo 2^64, NONCE_HI stays
(`44_ctr.md` R220 to R224). That it completes over a byte not written since reset, the fault recorded, is log 3; what
such a byte holds is log 5. -/
def Obligations.CtrTransformsBuffer : Prop :=
  ∀ s : State,
    (ctrAccepted s.slotS.valid s → ∃ t, exec .ctrS s = .next t ∧ ctrResult s.slotS.rk s t) ∧
    (ctrAccepted s.slotH.valid s → ∃ t, exec .ctrH s = .next t ∧ ctrResult s.slotH.rk s t)

/-- CTR with LEN = 0 under a valid slot completes and changes nothing, whatever SRC and DST; on a slot that is not valid
it is still rejected with NOKEY (`44_ctr.md` R229). -/
def Obligations.CtrZeroLength : Prop :=
  ∀ s : State, s.len = 0 →
    (s.slotS.valid = true → exec .ctrS s = .next (completed s)) ∧
    (s.slotS.valid = false → rejectedWith 2 .ctrS s) ∧
    (s.slotH.valid = true → exec .ctrH s = .next (completed s)) ∧
    (s.slotH.valid = false → rejectedWith 2 .ctrH s)

/-- The same CTR command again, from the same counter, over the first one's output recovers the first one's input, at
any destination the second accepts (`44_ctr.md` R228; what an input byte not written since reset holds is log 5). -/
def Obligations.CtrIsSelfInverse : Prop :=
  ∀ (s : State) (i : Instr) (valid : Bool), (i = .ctrS ∧ valid = s.slotS.valid) ∨ (i = .ctrH ∧ valid = s.slotH.valid) →
    ctrAccepted valid s →
    ∃ t, exec i s = .next t ∧ ∀ d : Word,
      ctrAccepted valid { t with nonce := s.nonce, src := s.dst, dst := d } →
      ∃ u, exec i { t with nonce := s.nonce, src := s.dst, dst := d } = .next u ∧
        ∀ j < s.len.toNat, Memory.load? u.mem (d.toNat + j) = some (s.readByte (s.src.toNat + j))

/-- The split law: one CTR command, or two of them split at a multiple `b` of 16 with the counter carried forward, leave
the same DMEM and the same NONCE (`44_ctr.md` R230, `90_conflicts.md` C2; an unwritten byte is log 5). -/
def Obligations.CtrSplitLaw : Prop :=
  ∀ (s : State) (b : Word) (i : Instr) (valid : Bool),
    (i = .ctrS ∧ valid = s.slotS.valid) ∨ (i = .ctrH ∧ valid = s.slotH.valid) →
    ctrAccepted valid s → s.params.memSizeOk = true → b.toNat % 16 = 0 → 0 < b.toNat → b.toNat < s.len.toNat →
    ∃ t u v, exec i s = .next t ∧ exec i { s with len := b } = .next u ∧
      exec i { u with src := s.src + b, dst := s.dst + b, len := s.len - b } = .next v ∧
      v.nonce = t.nonce ∧ ∀ a, Memory.load? v.mem a = Memory.load? t.mem a

/-! ### The host port -/

/-- The bits of the STATUS word (`10_state.md` R43). -/
def Obligations.StatusWordLayout : Prop :=
  ∀ s : State,
    s.statusWord.getLsbD 0 = s.busy ∧ s.statusWord.getLsbD 1 = s.done ∧ s.statusWord.getLsbD 2 = s.err ∧
    s.statusWord.getLsbD 3 = s.ovr ∧ s.statusWord.extractLsb' 4 4 = s.errcode ∧
    s.statusWord.getLsbD 8 = s.slotS.valid ∧ s.statusWord.getLsbD 9 = s.slotH.valid ∧
    s.statusWord.getLsbD 10 = s.slotIV.valid ∧ s.statusWord.extractLsb' 11 21 = 0

/-- A write of `v` to STATUS clears DONE, OVR, and ERR with ERRCODE, each where its bit of `v` is 1, and nothing else,
BUSY or not (`10_state.md` R44). -/
def Obligations.StatusWriteClears : Prop :=
  ∀ (s : State) (v : Word), ∃ t, hostWrite 0x004 v s = .next t ∧
    t = { s with done := t.done, ovr := t.ovr, err := t.err, errcode := t.errcode, responses := t.responses } ∧
    t.done = (if v.getLsbD 1 then false else s.done) ∧ t.ovr = (if v.getLsbD 3 then false else s.ovr) ∧
    t.err = (if v.getLsbD 2 then false else s.err) ∧ t.errcode = (if v.getLsbD 2 then 0 else s.errcode)

/-- A write to CMD while idle latches the word undecoded and sets BUSY; while BUSY it is ignored and sets OVR; DONE and
ERR stay (`10_state.md` R46). How many host moves may precede the engine's step is the model's own field (log 7), and so
is whether the command has been disturbed (log 4). -/
def Obligations.CommandWriteIssues : Prop :=
  ∀ (s : State) (v : Word),
    (s.busy = false → ∃ t, hostWrite 0x000 v s = .next t ∧ t = { s with
      cmdl := v, busy := true, hostTurns := t.hostTurns, draws := t.draws, responses := t.responses,
      disturbed := false }) ∧
    (s.busy = true → ∃ t, hostWrite 0x000 v s = .next t ∧ t = { s with ovr := true, responses := t.responses })

/-- Host register accesses while BUSY: a write to CMD, SRC, DST, LEN, KEY, NONCE or BLOCK is ignored and sets OVR; CTRL
is written as ever; a write to a reserved offset or DIGEST is ignored without OVR; a read of NONCE, BLOCK or DIGEST is
answered with some value; SRC, DST, LEN, STATUS and CTRL read their values (`10_state.md` R34). That such a read of
NONCE, BLOCK or DIGEST counts a draw is the model's choice (log 6). -/
def Obligations.RegisterAccessWhileBusy : Prop :=
  ∀ (s : State) (v : Word) (o : Nat), s.busy = true → o % 4 = 0 →
    (o = 0x000 ∨ o = 0x010 ∨ o = 0x014 ∨ o = 0x018 ∨ (0x020 ≤ o ∧ o < 0x060) →
      hostWrite o v s = .next (answered { s with ovr := true } .accepted)) ∧
    hostWrite 0x008 v s = .next (answered { s with ie := v.getLsbD 0 } .accepted) ∧
    (o = 0x00C ∨ o = 0x01C ∨ (0x060 ≤ o ∧ o < 0x1000) → hostWrite o v s = .next (answered s .accepted)) ∧
    (0x040 ≤ o ∧ o < 0x080 → ∃ w, hostRead o s = .next { answered s (.data w) with draws := s.draws + 1 }) ∧
    hostRead 0x010 s = .next (answered s (.data s.src)) ∧ hostRead 0x014 s = .next (answered s (.data s.dst)) ∧
    hostRead 0x018 s = .next (answered s (.data s.len)) ∧
    hostRead 0x004 s = .next (answered s (.data s.statusWord)) ∧
    hostRead 0x008 s = .next (answered s (.data (if s.ie then 1 else 0)))

/-- Reads of reserved offsets, CMD and KEY return 0; writes to reserved offsets and DIGEST are ignored; none of them is
an error, BUSY or not (`10_state.md` R33, R37). -/
def Obligations.ReservedAndWriteOnlyAccess : Prop :=
  ∀ (s : State) (v : Word) (o : Nat), o % 4 = 0 →
    (o = 0x000 ∨ o = 0x00C ∨ o = 0x01C ∨ (0x020 ≤ o ∧ o < 0x040) ∨ (0x080 ≤ o ∧ o < 0x1000) →
      hostRead o s = .next (answered s (.data 0))) ∧
    (o = 0x00C ∨ o = 0x01C ∨ (0x060 ≤ o ∧ o < 0x1000) → hostWrite o v s = .next (answered s .accepted))

/-- While idle, what the host writes to SRC, DST, LEN, NONCE or BLOCK it reads back, and a write to one such register or
to a KEY register changes what no other one of them reads (`10_state.md` R31). -/
def Obligations.WrittenRegistersReadBack : Prop :=
  ∀ (s : State) (v : Word) (o p : Nat), s.busy = false → o % 4 = 0 → p % 4 = 0 →
    o = 0x010 ∨ o = 0x014 ∨ o = 0x018 ∨ (0x020 ≤ o ∧ o < 0x060) →
    p = 0x010 ∨ p = 0x014 ∨ p = 0x018 ∨ (0x040 ≤ p ∧ p < 0x080) →
    ∃ t w w', hostWrite o v s = .next t ∧ hostRead p s = .next (answered s (.data w)) ∧
      hostRead p t = .next (answered t (.data w')) ∧ (p = o → w' = v) ∧ (p ≠ o → w' = w)

/-- While idle a write of `v` to SRC, DST, LEN, KEY, NONCE or BLOCK sets that register, the one the commands read, and in
every state a write to CTRL sets IE to bit 0; nothing else changes (`10_state.md` R31, R36 to R39, R45). -/
def Obligations.RegisterWritesSetFields : Prop :=
  ∀ (s : State) (v : Word),
    (s.busy = false →
      hostWrite 0x010 v s = .next (answered { s with src := v } .accepted) ∧
      hostWrite 0x014 v s = .next (answered { s with dst := v } .accepted) ∧
      hostWrite 0x018 v s = .next (answered { s with len := v } .accepted) ∧
      (∀ r : Fin 8, hostWrite (0x020 + 4 * r.val) v s = .next (answered { s with key := s.key.set r v } .accepted)) ∧
      (∀ r : Fin 4, hostWrite (0x040 + 4 * r.val) v s = .next (answered { s with nonce := s.nonce.set r v } .accepted)) ∧
      ∀ r : Fin 4, hostWrite (0x050 + 4 * r.val) v s = .next (answered { s with block := s.block.set r v } .accepted)) ∧
    hostWrite 0x008 v s = .next (answered { s with ie := v.getLsbD 0 } .accepted)

/-- In every state a read of STATUS, CTRL, SRC, DST or LEN answers that register, and while idle so does a read of NONCE,
BLOCK or DIGEST; nothing else changes (`10_state.md` R31, R36, R38, R39, R42, R43, R45). -/
def Obligations.RegisterReadsAnswerFields : Prop :=
  ∀ s : State,
    hostRead 0x004 s = .next (answered s (.data s.statusWord)) ∧
    hostRead 0x008 s = .next (answered s (.data (if s.ie then 1 else 0))) ∧
    hostRead 0x010 s = .next (answered s (.data s.src)) ∧ hostRead 0x014 s = .next (answered s (.data s.dst)) ∧
    hostRead 0x018 s = .next (answered s (.data s.len)) ∧
    (s.busy = false →
      (∀ r : Fin 4, hostRead (0x040 + 4 * r.val) s = .next (answered s (.data s.nonce[r]))) ∧
      (∀ r : Fin 4, hostRead (0x050 + 4 * r.val) s = .next (answered s (.data s.block[r]))) ∧
      ∀ r : Fin 8, hostRead (0x060 + 4 * r.val) s = .next (answered s (.data s.digest[r])))

/-- A register access that is not an aligned 32-bit access within the window is answered with a bus error, a read with 0,
and changes no register; the event is recorded (`10_state.md` R32). That the run goes on with the record is log 3; that a
write of this kind while BUSY leaves OVR as it was is log 11, DEDUCED. -/
def Obligations.RegisterBusError : Prop :=
  ∀ (s : State) (o : Nat) (a : Access), a.width ≠ .word ∨ o % 4 ≠ 0 ∨ 0x1000 ≤ o →
    ∃ t, hostMove (.register o a) s = .next t ∧
      t = { s with faults := t.faults, responses := s.responses ++ [busErrorAnswer a] } ∧
      ∀ f, f ∈ t.faults ↔ f = .registerBusError ∨ f ∈ s.faults

/-- Host DMEM accesses while idle, at any address and width: a write within DMEM stores the low bytes of the value, low
byte first, and nothing else; a read is answered with the bytes, low byte first, and records a fault where one of them
has not been written since reset; an access beyond MEM_SIZE gets a bus error, a read with 0, writes nothing and is
recorded (`20_memory.md` R71, R75, R76; the fault record is log 3, what an unwritten byte holds is log 5). -/
def Obligations.HostDmemAccess : Prop :=
  ∀ (s : State) (a : Nat) (w : AccessWidth) (v : Word), s.busy = false →
    (a + w.bytes ≤ s.params.memSize →
      (∃ t, hostMove (.dmem a (.write w v)) s = .next t ∧
        t = { s with mem := t.mem, responses := s.responses ++ [.accepted] } ∧
        (∀ i < w.bytes, Memory.load? t.mem (a + i) = some (v.extractLsb' (8 * i) 8)) ∧
        ∀ x, x < a ∨ a + w.bytes ≤ x → Memory.load? t.mem x = Memory.load? s.mem x) ∧
      ∃ t d, hostMove (.dmem a (.read w)) s = .next t ∧
        t = { s with faults := t.faults, responses := s.responses ++ [.data d] } ∧
        (∀ i < w.bytes, d.extractLsb' (8 * i) 8 = s.readByte (a + i)) ∧ d.toNat < 2 ^ (8 * w.bytes) ∧
        ∀ f, f ∈ t.faults ↔
          f ∈ s.faults ∨ (f = .unwrittenRead ∧ ∃ i < w.bytes, Memory.load? s.mem (a + i) = none)) ∧
    (s.params.memSize < a + w.bytes → ∀ acc : Access, acc.width = w →
      ∃ t, hostMove (.dmem a acc) s = .next t ∧
        t = { s with faults := t.faults, responses := s.responses ++ [busErrorAnswer acc] } ∧
        ∀ f, f ∈ t.faults ↔ f = .dmemBusError ∨ f ∈ s.faults)

/-- Any host DMEM access while BUSY is recorded as a fault, whatever its address, and the run goes on: no register, flag
or slot changes, the command still runs, the host gets some answer, and a read leaves the command undisturbed
(`20_memory.md` R84, R74, `60_exceptions.md` R259). One beyond MEM_SIZE is recorded as that too, and a read within it of a
byte not written since reset as that (`20_memory.md` R76, R75). What stands for the unspecified effect is log 4; that no
rule of the three excepts another is log 11. -/
def Obligations.DmemAccessWhileBusyFaults : Prop :=
  ∀ (s : State) (a : Nat) (acc : Access), s.busy = true →
    ∃ t r, hostMove (.dmem a acc) s = .next t ∧
      t = { s with
        faults := t.faults, responses := s.responses ++ [r], draws := s.draws + 1, disturbed := t.disturbed } ∧
      (∀ w, acc = .read w → t.disturbed = s.disturbed) ∧ (∀ w v, acc = .write w v → t.disturbed = true) ∧
      ∀ f, f ∈ t.faults ↔
        f = .dmemAccessWhileBusy ∨ (f = .dmemBusError ∧ s.params.memSize < a + acc.width.bytes) ∨
        (f = .unwrittenRead ∧ a + acc.width.bytes ≤ s.params.memSize ∧
          ∃ w, acc = .read w ∧ ∃ i < w.bytes, Memory.load? s.mem (a + i) = none) ∨ f ∈ s.faults

/-- IRQ is high exactly when IE and one of DONE and ERR are set; with IE set it is high after every command; a write of
0xE to STATUS lowers it, and so does clearing IE; setting IE with DONE or ERR set raises it at once
(`60_exceptions.md` R258). -/
def Obligations.InterruptFollowsFlags : Prop :=
  ∀ s : State,
    (s.irq = true ↔ s.ie = true ∧ (s.done = true ∨ s.err = true)) ∧
    (∀ (i : Instr) (t : State), s.ie = true → exec i s = .next t → t.irq = true) ∧
    (∃ t, hostWrite 0x004 0xE s = .next t ∧ t.irq = false) ∧ (∃ t, hostWrite 0x008 0 s = .next t ∧ t.irq = false) ∧
    ∃ t, hostWrite 0x008 1 s = .next t ∧ t.irq = (s.done || s.err)

/-- One poll of `wait` reads STATUS and stays in front exactly while BUSY (`30_encoding.md` R109; log 16). -/
def Obligations.WaitPollsUntilIdle : Prop :=
  ∀ s : State, hostMove .awaitIdle s = .next { s with
    responses := s.responses ++ [.data s.statusWord]
    pending := if s.busy then .awaitIdle :: s.pending else s.pending }

/-- On the host's turn a step is the move of the host's next event, taken off with one turn counted; with BUSY = 0 and
no event to come the step keeps the state (`40_control.md` R130, `60_exceptions.md` R254; whose turn it is is log 7, the
events are log 8). -/
def Obligations.HostStepTakesNextEvent : Prop :=
  (∀ (s : State) (e : HostEvent) (rest : List HostEvent), s.pending = e :: rest → (s.busy = true → s.hostTurns ≠ 0) →
    step s = hostMove e { s with pending := rest, hostTurns := s.hostTurns - 1 }) ∧
  ∀ s : State, s.busy = false → s.pending = [] → step s = .next s

/-- The events of the other statements of a host program: `wr` and `rd` are one 32-bit access of the named register,
`cmd` a write of the command's word to CMD, `mwb` and `mrb` one byte access for each byte, `clrst` a write of 0xE to
STATUS, `run` a `cmd` and a `wait` (`30_encoding.md` R108, R109; `wait` as one event is log 16). -/
def Obligations.HostStatementsExpand : Prop :=
  (∀ p ∈ registerMap, ∀ v : Word, expandStmt (.wr p.2 v) = [.register p.1 (.write .word v)] ∧
    expandStmt (.rd p.2) = [.register p.1 (.read .word)]) ∧
  (∀ p ∈ opcodeTable, expandStmt (.cmd p.2) = [.register 0x000 (.write .word p.1)] ∧
    expandStmt (.run p.2) = [.register 0x000 (.write .word p.1), .awaitIdle]) ∧
  (∀ (a : Nat) (bytes : List Byte), expandStmt (.mwb a bytes) =
    (List.range bytes.length).map fun i => .dmem (a + i) (.write .byte ((bytes.getD i 0).setWidth 32))) ∧
  (∀ a k : Nat, expandStmt (.mrb a k) = (List.range k).map fun i => .dmem (a + i) (.read .byte)) ∧
  expandStmt .wait = [.awaitIdle] ∧ expandStmt .clrst = [.register 0x004 (.write .word 0xE)]

/-- The register writes of `ldkey`, `ldnonce` and `ldblk`: one for each register the bytes reach, from the first on, low
byte first, missing bytes 0 (`30_encoding.md` R109; bytes past the registers are log 19). -/
def Obligations.LoadStatementsExpand : Prop :=
  ∀ bytes : List Byte,
    expandStmt (.ldkey bytes) =
      (List.range (min 8 ((bytes.length + 3) / 4))).map (fun r => .register (0x020 + 4 * r) (.write .word (wordAt bytes r))) ∧
    expandStmt (.ldnonce bytes) =
      (List.range 4).map (fun r => .register (0x040 + 4 * r) (.write .word (wordAt bytes r))) ∧
    expandStmt (.ldblk bytes) =
      (List.range (min 4 ((bytes.length + 3) / 4))).map (fun r => .register (0x050 + 4 * r) (.write .word (wordAt bytes r)))

/-- An access at a host address inside one of the platform's windows is the access at its offset (`20_memory.md` R73;
that the windows do not overlap is log 2). -/
def Obligations.PlatformAddressesReachTheWindows : Prop :=
  ∀ (s : State) (o : Nat) (a : Access), s.params.windowsOk = true →
    (o < 0x1000 → hostMove (.platform (s.params.regBase + o) a) s = hostMove (.register o a) s) ∧
    (o < s.params.memSize → hostMove (.platform (s.params.dmemBase + o) a) s = hostMove (.dmem o a) s)

/-- No host move shows key material: with KEY and all round keys replaced, every move goes to the same state but for KEY
and the round keys (`10_state.md` R37, R40). -/
def Obligations.HostCannotReadKeys : Prop :=
  ∀ (e : HostEvent) (s : State) (key : Vector Word 8) (rkS : Vector (BitVec 64) 34) (rkH : Vector (BitVec 64) 32)
    (rkIV : Vector (BitVec 48) 28),
    ∃ t key' rkS' rkH' rkIV', hostMove e s = .next t ∧
      hostMove e (withKeys s key rkS rkH rkIV) = .next (withKeys t key' rkS' rkH' rkIV')

/-! ### Reset -/

/-- After reset every register, field, slot and VALID bit is 0 and no DMEM byte has been written
(`10_state.md` R51). -/
def Obligations.ResetValues : Prop :=
  State.reset.statusWord = 0 ∧ State.reset.ctrlWord = 0 ∧ State.reset.irq = false ∧ State.reset.cmdl = 0 ∧
  State.reset.src = 0 ∧ State.reset.dst = 0 ∧ State.reset.len = 0 ∧ State.reset.key = Vector.replicate 8 0 ∧
  State.reset.nonce = Vector.replicate 4 0 ∧ State.reset.block = Vector.replicate 4 0 ∧
  State.reset.digest = Vector.replicate 8 0 ∧ State.reset.slotS = ⟨Vector.replicate 34 0, false⟩ ∧
  State.reset.slotH = ⟨Vector.replicate 32 0, false⟩ ∧ State.reset.slotIV = ⟨Vector.replicate 28 0, false⟩ ∧
  State.reset.params = Config.platform.params ∧ ∀ a, Memory.load? State.reset.mem a = none

/-- A reset at any moment, during a command too, gives every register, flag, slot and VALID bit its value after reset
and makes every DMEM byte unwritten; the parameters stay (`70_reset_and_hazards.md` R280, R281). That the fault record
stays is log 9. -/
def Obligations.ResetAbandonsCommand : Prop :=
  ∀ s : State, ∃ t, hostMove .reset s = .next t ∧
    t = { State.reset with
      params := s.params, faults := s.faults, pending := t.pending, responses := t.responses, draws := t.draws,
      epoch := t.epoch } ∧
    t.statusWord = 0 ∧ t.irq = false ∧ ∀ a, Memory.load? t.mem a = none

/-! ### The whole machine -/

/-- The invariant holds after reset: the registers by `10_state.md` R51, the parameters by the constraints the spec puts
on them (`00_scope.md` R8, `41_pearson.md` R140, R143, R145, R149), which the machine's own meet through log 1; that the
two windows do not overlap is the model's choice (log 2). -/
def Obligations.ResetHasInvariant : Prop := Inv State.reset

/-- Every step keeps the invariant: the parameters' constraints, the canonical form and range of DMEM, ERRCODE 0 without
ERR and one of the four codes with it, no key in a slot that is not valid (`10_state.md` R40, R43, `20_memory.md` R74,
`60_exceptions.md` R250); among the parameters' constraints the windows' is log 2, and that only a running command is
disturbed is log 4. -/
def Obligations.StepKeepsInvariant : Prop := ∀ s t : State, Inv s → step s = .next t → Inv t

/-- No step changes the parameters, the S-box ROM among them, or clears a recorded fault (`10_state.md` R47,
`60_exceptions.md` R259). -/
def Obligations.StepKeepsParametersAndFaults : Prop :=
  ∀ s t : State, step s = .next t → t.params = s.params ∧ ∀ f ∈ s.faults, f ∈ t.faults

/-- A step that changes a slot is a reset on the host's turn, or the engine's step on a key command (`10_state.md` R40;
whose turn it is is log 7). -/
def Obligations.OnlyKeyCommandsWriteSlots : Prop :=
  ∀ s t : State, step s = .next t →
    (t.slotS = s.slotS ∧ t.slotH = s.slotH ∧ t.slotIV = s.slotIV) ∨
    (¬ s.engineTurn ∧ s.pending.head? = some .reset) ∨
    (s.engineTurn ∧ ∃ i ∈ [Instr.kexpS, .kexpH, .kexpIV, .kclrS, .kclrH, .kclrIV], decode s.cmdl = .ok i)

/-- While BUSY no host step but a reset changes the latch, an operand, a slot or a result, nor ends the command, and each
takes one of the host's turns; DMEM stays where the host has not written it during the command
(`70_reset_and_hazards.md` R284, `10_state.md` R34; the turns are log 7, a host write to DMEM is log 4). -/
def Obligations.OperandsHeldWhileBusy : Prop :=
  ∀ (s t : State) (e : HostEvent) (rest : List HostEvent), s.busy = true → s.hostTurns ≠ 0 → s.pending = e :: rest →
    e ≠ .reset → step s = .next t →
    t.busy = true ∧ t.cmdl = s.cmdl ∧ t.src = s.src ∧ t.dst = s.dst ∧ t.len = s.len ∧ t.key = s.key ∧
    t.nonce = s.nonce ∧ t.block = s.block ∧ t.digest = s.digest ∧ t.slotS = s.slotS ∧ t.slotH = s.slotH ∧
    t.slotIV = s.slotIV ∧ (t.disturbed = false → t.mem = s.mem) ∧ t.params = s.params ∧ t.hostTurns + 1 = s.hostTurns

/-- Every started command ends: whatever the host does, within `hostTurns + 1` steps BUSY is 0
(`70_reset_and_hazards.md` R291; the turns are log 7). -/
def Obligations.BusyCommandEnds : Prop :=
  ∀ s : State, s.busy = true → ∃ k t, 1 ≤ k ∧ k ≤ s.hostTurns + 1 ∧
    Host.Core.run core k s = .next t ∧ t.busy = false

/-- Two memories in canonical form that read the same everywhere are the same data (log 5). -/
def Obligations.CanonicalMemoriesAreEqual : Prop :=
  ∀ m m' : Memory, Memory.wf m = true → Memory.wf m' = true → (∀ a, Memory.load? m a = Memory.load? m' a) → m = m'
end

