-- ==== Sys2Proof/Laws/Bytes.lean ====
section
/-! SUPPORT. Byte strings and words: lengths, and that each conversion undoes the other. -/

namespace Sys2Proof.Machine

@[simp] theorem leBytes_length {n : Nat} (v : BitVec n) : (leBytes v).length = n / 8 := by simp [leBytes]

theorem leBytes_getElem {n : Nat} (v : BitVec n) (i : Nat) (h : i < (leBytes v).length) :
    (leBytes v)[i] = v.extractLsb' (8 * i) 8 := by
  simp [leBytes]

/-- Bit `j` of `Σ b[i]·2^(8i)` is bit `j mod 8` of byte `j div 8`. -/
theorem leNat_testBit (bytes : List Byte) (j : Nat) :
    (leNat bytes).testBit j = (bytes.getD (j / 8) 0).getLsbD (j % 8) := by
  induction bytes generalizing j with
  | nil => simp [leNat]
  | cons b bs ih =>
    have hb : b.toNat < 2 ^ 8 := b.isLt
    rw [leNat, show b.toNat + 256 * leNat bs = 2 ^ 8 * leNat bs + b.toNat by omega, Nat.testBit_two_pow_mul_add _ hb]
    split
    · next h => simp [show j / 8 = 0 by omega, show j % 8 = j by omega, BitVec.getLsbD]
    · next h =>
      rw [ih, show j / 8 = (j - 8) / 8 + 1 by omega, show (j - 8) % 8 = j % 8 by omega]
      simp

/-- Bit `j` of `LE_n(b)`. -/
theorem leValue_getLsbD (n : Nat) (bytes : List Byte) (j : Nat) :
    (leValue n bytes).getLsbD j = (decide (j < n) && (bytes.getD (j / 8) 0).getLsbD (j % 8)) := by
  rw [leValue, BitVec.getLsbD_ofNat, leNat_testBit]

/-- `LE_n(BYTES_n(v)) = v`, for a width of whole bytes. -/
theorem leValue_leBytes {n : Nat} (v : BitVec n) (h : n % 8 = 0) : leValue n (leBytes v) = v := by
  apply BitVec.eq_of_getLsbD_eq
  intro j hj
  rw [leValue_getLsbD]
  have hk : j / 8 < n / 8 := by omega
  have hl : j / 8 < (leBytes v).length := by simpa using hk
  rw [List.getD_eq_getElem?_getD, List.getElem?_eq_getElem hl, leBytes_getElem]
  simp [hj, show j % 8 < 8 by omega, show 8 * (j / 8) + j % 8 = j by omega]

/-- Byte `i` of `LE_n(b)` is `b[i]`. -/
theorem leValue_byte (n : Nat) (bytes : List Byte) (i : Nat) (h : 8 * i + 8 ≤ n) :
    (leValue n bytes).extractLsb' (8 * i) 8 = bytes.getD i 0 := by
  apply BitVec.eq_of_getLsbD_eq
  intro j hj
  rw [BitVec.getLsbD_extractLsb', leValue_getLsbD]
  simp [hj, show 8 * i + j < n by omega, show (8 * i + j) / 8 = i by omega, show (8 * i + j) % 8 = j by omega]

@[simp] theorem regBytes_length {m : Nat} (regs : Vector Word m) : (regBytes regs).length = 4 * m := by
  unfold regBytes
  rw [List.length_flatMap]
  have : (regs.toList.map fun w => (leBytes w).length) = List.replicate m 4 := by
    rw [List.eq_replicate_iff]
    simp
  rw [this]
  simp
  omega

theorem flatMap_getElem?_of_length {α β : Type} (f : α → List β) (n : Nat) (hn : 0 < n) (hf : ∀ a, (f a).length = n)
    (l : List α) (i : Nat) : (l.flatMap f)[i]? = (l[i / n]?).bind fun a => (f a)[i % n]? := by
  induction l generalizing i with
  | nil => simp
  | cons a l ih =>
    rw [List.flatMap_cons, List.getElem?_append, hf]
    split
    · next h => simp [Nat.div_eq_of_lt h, Nat.mod_eq_of_lt h]
    · next h =>
      have hle : n ≤ i := Nat.le_of_not_lt h
      rw [ih, Nat.div_eq_sub_div hn hle, Nat.mod_eq_sub_mod hle, List.getElem?_cons_succ]

/-- Byte `i` of consecutive registers is byte `i mod 4` of register `i div 4`. -/
theorem regBytes_getElem? {m : Nat} (regs : Vector Word m) (i : Nat) (h : i < 4 * m) :
    (regBytes regs)[i]? = some ((regs[i / 4]'(by omega)).extractLsb' (8 * (i % 4)) 8) := by
  have h4 : i / 4 < m := by omega
  rw [regBytes, flatMap_getElem?_of_length _ 4 (by omega) (by simp)]
  have hl : i / 4 < regs.toList.length := by simpa using h4
  rw [List.getElem?_eq_getElem hl]
  have hk : i % 4 < (leBytes (regs.toList[i / 4])).length := by simp; omega
  simp only [Option.bind_some]
  rw [List.getElem?_eq_getElem hk, leBytes_getElem]
  simp

/-- Byte `i` of packed registers is byte `i` of the byte string. -/
theorem packWords_byte (m : Nat) (bytes : List Byte) (i : Nat) (h : i < 4 * m) :
    ((packWords m bytes)[i / 4]'(by omega)).extractLsb' (8 * (i % 4)) 8 = bytes.getD i 0 := by
  rw [packWords, Vector.getElem_ofFn, leValue_byte 32 _ _ (by omega)]
  simp only [List.getD_eq_getElem?_getD, List.getElem?_take, List.getElem?_drop]
  rw [if_pos (by omega), show 4 * (i / 4) + i % 4 = i by omega]

@[simp] theorem State.keyBytes_length (s : State) : s.keyBytes.length = 32 := by simp [State.keyBytes]

@[simp] theorem State.blockBytes_length (s : State) : s.blockBytes.length = 16 := by simp [State.blockBytes]

end Sys2Proof.Machine
end

