-- ==== Sys2Proof/Laws/State.lean ====
section
/-! SUPPORT. One lemma per field per named update of State: what the field is after it. -/

namespace Sys2Proof.Machine

/-! ### complete -/

@[simp] theorem State.complete_params (s : State) : s.complete.params = s.params := rfl
@[simp] theorem State.complete_cmdl (s : State) : s.complete.cmdl = s.cmdl := rfl
@[simp] theorem State.complete_busy (s : State) : s.complete.busy = false := rfl
@[simp] theorem State.complete_done (s : State) : s.complete.done = true := rfl
@[simp] theorem State.complete_err (s : State) : s.complete.err = s.err := rfl
@[simp] theorem State.complete_ovr (s : State) : s.complete.ovr = s.ovr := rfl
@[simp] theorem State.complete_errcode (s : State) : s.complete.errcode = s.errcode := rfl
@[simp] theorem State.complete_ie (s : State) : s.complete.ie = s.ie := rfl
@[simp] theorem State.complete_src (s : State) : s.complete.src = s.src := rfl
@[simp] theorem State.complete_dst (s : State) : s.complete.dst = s.dst := rfl
@[simp] theorem State.complete_len (s : State) : s.complete.len = s.len := rfl
@[simp] theorem State.complete_key (s : State) : s.complete.key = s.key := rfl
@[simp] theorem State.complete_nonce (s : State) : s.complete.nonce = s.nonce := rfl
@[simp] theorem State.complete_block (s : State) : s.complete.block = s.block := rfl
@[simp] theorem State.complete_digest (s : State) : s.complete.digest = s.digest := rfl
@[simp] theorem State.complete_slotS (s : State) : s.complete.slotS = s.slotS := rfl
@[simp] theorem State.complete_slotH (s : State) : s.complete.slotH = s.slotH := rfl
@[simp] theorem State.complete_slotIV (s : State) : s.complete.slotIV = s.slotIV := rfl
@[simp] theorem State.complete_mem (s : State) : s.complete.mem = s.mem := rfl
@[simp] theorem State.complete_faults (s : State) : s.complete.faults = s.faults := rfl
@[simp] theorem State.complete_pending (s : State) : s.complete.pending = s.pending := rfl
@[simp] theorem State.complete_responses (s : State) : s.complete.responses = s.responses := rfl
@[simp] theorem State.complete_hostTurns (s : State) : s.complete.hostTurns = s.hostTurns := rfl
@[simp] theorem State.complete_draws (s : State) : s.complete.draws = s.draws := rfl
@[simp] theorem State.complete_epoch (s : State) : s.complete.epoch = s.epoch := rfl
@[simp] theorem State.complete_disturbed (s : State) : s.complete.disturbed = s.disturbed := rfl

/-! ### reject -/

@[simp] theorem State.reject_params (s : State) (e : ErrorCode) : (s.reject e).params = s.params := rfl
@[simp] theorem State.reject_cmdl (s : State) (e : ErrorCode) : (s.reject e).cmdl = s.cmdl := rfl
@[simp] theorem State.reject_busy (s : State) (e : ErrorCode) : (s.reject e).busy = false := rfl
@[simp] theorem State.reject_done (s : State) (e : ErrorCode) : (s.reject e).done = s.done := rfl
@[simp] theorem State.reject_err (s : State) (e : ErrorCode) : (s.reject e).err = true := rfl
@[simp] theorem State.reject_ovr (s : State) (e : ErrorCode) : (s.reject e).ovr = s.ovr := rfl
@[simp] theorem State.reject_errcode (s : State) (e : ErrorCode) : (s.reject e).errcode = e.code := rfl
@[simp] theorem State.reject_ie (s : State) (e : ErrorCode) : (s.reject e).ie = s.ie := rfl
@[simp] theorem State.reject_src (s : State) (e : ErrorCode) : (s.reject e).src = s.src := rfl
@[simp] theorem State.reject_dst (s : State) (e : ErrorCode) : (s.reject e).dst = s.dst := rfl
@[simp] theorem State.reject_len (s : State) (e : ErrorCode) : (s.reject e).len = s.len := rfl
@[simp] theorem State.reject_key (s : State) (e : ErrorCode) : (s.reject e).key = s.key := rfl
@[simp] theorem State.reject_nonce (s : State) (e : ErrorCode) : (s.reject e).nonce = s.nonce := rfl
@[simp] theorem State.reject_block (s : State) (e : ErrorCode) : (s.reject e).block = s.block := rfl
@[simp] theorem State.reject_digest (s : State) (e : ErrorCode) : (s.reject e).digest = s.digest := rfl
@[simp] theorem State.reject_slotS (s : State) (e : ErrorCode) : (s.reject e).slotS = s.slotS := rfl
@[simp] theorem State.reject_slotH (s : State) (e : ErrorCode) : (s.reject e).slotH = s.slotH := rfl
@[simp] theorem State.reject_slotIV (s : State) (e : ErrorCode) : (s.reject e).slotIV = s.slotIV := rfl
@[simp] theorem State.reject_mem (s : State) (e : ErrorCode) : (s.reject e).mem = s.mem := rfl
@[simp] theorem State.reject_faults (s : State) (e : ErrorCode) : (s.reject e).faults = s.faults := rfl
@[simp] theorem State.reject_pending (s : State) (e : ErrorCode) : (s.reject e).pending = s.pending := rfl
@[simp] theorem State.reject_responses (s : State) (e : ErrorCode) : (s.reject e).responses = s.responses := rfl
@[simp] theorem State.reject_hostTurns (s : State) (e : ErrorCode) : (s.reject e).hostTurns = s.hostTurns := rfl
@[simp] theorem State.reject_draws (s : State) (e : ErrorCode) : (s.reject e).draws = s.draws := rfl
@[simp] theorem State.reject_epoch (s : State) (e : ErrorCode) : (s.reject e).epoch = s.epoch := rfl
@[simp] theorem State.reject_disturbed (s : State) (e : ErrorCode) : (s.reject e).disturbed = s.disturbed := rfl

/-! ### acknowledge -/

@[simp] theorem State.acknowledge_params (s : State) (v : Word) : (s.acknowledge v).params = s.params := rfl
@[simp] theorem State.acknowledge_cmdl (s : State) (v : Word) : (s.acknowledge v).cmdl = s.cmdl := rfl
@[simp] theorem State.acknowledge_busy (s : State) (v : Word) : (s.acknowledge v).busy = s.busy := rfl
@[simp] theorem State.acknowledge_done (s : State) (v : Word) : (s.acknowledge v).done = (s.done && !v.getLsbD 1) := rfl
@[simp] theorem State.acknowledge_err (s : State) (v : Word) : (s.acknowledge v).err = (s.err && !v.getLsbD 2) := rfl
@[simp] theorem State.acknowledge_ovr (s : State) (v : Word) : (s.acknowledge v).ovr = (s.ovr && !v.getLsbD 3) := rfl
@[simp] theorem State.acknowledge_errcode (s : State) (v : Word) : (s.acknowledge v).errcode = if v.getLsbD 2 then 0 else s.errcode := rfl
@[simp] theorem State.acknowledge_ie (s : State) (v : Word) : (s.acknowledge v).ie = s.ie := rfl
@[simp] theorem State.acknowledge_src (s : State) (v : Word) : (s.acknowledge v).src = s.src := rfl
@[simp] theorem State.acknowledge_dst (s : State) (v : Word) : (s.acknowledge v).dst = s.dst := rfl
@[simp] theorem State.acknowledge_len (s : State) (v : Word) : (s.acknowledge v).len = s.len := rfl
@[simp] theorem State.acknowledge_key (s : State) (v : Word) : (s.acknowledge v).key = s.key := rfl
@[simp] theorem State.acknowledge_nonce (s : State) (v : Word) : (s.acknowledge v).nonce = s.nonce := rfl
@[simp] theorem State.acknowledge_block (s : State) (v : Word) : (s.acknowledge v).block = s.block := rfl
@[simp] theorem State.acknowledge_digest (s : State) (v : Word) : (s.acknowledge v).digest = s.digest := rfl
@[simp] theorem State.acknowledge_slotS (s : State) (v : Word) : (s.acknowledge v).slotS = s.slotS := rfl
@[simp] theorem State.acknowledge_slotH (s : State) (v : Word) : (s.acknowledge v).slotH = s.slotH := rfl
@[simp] theorem State.acknowledge_slotIV (s : State) (v : Word) : (s.acknowledge v).slotIV = s.slotIV := rfl
@[simp] theorem State.acknowledge_mem (s : State) (v : Word) : (s.acknowledge v).mem = s.mem := rfl
@[simp] theorem State.acknowledge_faults (s : State) (v : Word) : (s.acknowledge v).faults = s.faults := rfl
@[simp] theorem State.acknowledge_pending (s : State) (v : Word) : (s.acknowledge v).pending = s.pending := rfl
@[simp] theorem State.acknowledge_responses (s : State) (v : Word) : (s.acknowledge v).responses = s.responses := rfl
@[simp] theorem State.acknowledge_hostTurns (s : State) (v : Word) : (s.acknowledge v).hostTurns = s.hostTurns := rfl
@[simp] theorem State.acknowledge_draws (s : State) (v : Word) : (s.acknowledge v).draws = s.draws := rfl
@[simp] theorem State.acknowledge_epoch (s : State) (v : Word) : (s.acknowledge v).epoch = s.epoch := rfl
@[simp] theorem State.acknowledge_disturbed (s : State) (v : Word) : (s.acknowledge v).disturbed = s.disturbed := rfl

/-! ### record -/

@[simp] theorem State.record_params (s : State) (f : Fault) : (s.record f).params = s.params := rfl
@[simp] theorem State.record_cmdl (s : State) (f : Fault) : (s.record f).cmdl = s.cmdl := rfl
@[simp] theorem State.record_busy (s : State) (f : Fault) : (s.record f).busy = s.busy := rfl
@[simp] theorem State.record_done (s : State) (f : Fault) : (s.record f).done = s.done := rfl
@[simp] theorem State.record_err (s : State) (f : Fault) : (s.record f).err = s.err := rfl
@[simp] theorem State.record_ovr (s : State) (f : Fault) : (s.record f).ovr = s.ovr := rfl
@[simp] theorem State.record_errcode (s : State) (f : Fault) : (s.record f).errcode = s.errcode := rfl
@[simp] theorem State.record_ie (s : State) (f : Fault) : (s.record f).ie = s.ie := rfl
@[simp] theorem State.record_src (s : State) (f : Fault) : (s.record f).src = s.src := rfl
@[simp] theorem State.record_dst (s : State) (f : Fault) : (s.record f).dst = s.dst := rfl
@[simp] theorem State.record_len (s : State) (f : Fault) : (s.record f).len = s.len := rfl
@[simp] theorem State.record_key (s : State) (f : Fault) : (s.record f).key = s.key := rfl
@[simp] theorem State.record_nonce (s : State) (f : Fault) : (s.record f).nonce = s.nonce := rfl
@[simp] theorem State.record_block (s : State) (f : Fault) : (s.record f).block = s.block := rfl
@[simp] theorem State.record_digest (s : State) (f : Fault) : (s.record f).digest = s.digest := rfl
@[simp] theorem State.record_slotS (s : State) (f : Fault) : (s.record f).slotS = s.slotS := rfl
@[simp] theorem State.record_slotH (s : State) (f : Fault) : (s.record f).slotH = s.slotH := rfl
@[simp] theorem State.record_slotIV (s : State) (f : Fault) : (s.record f).slotIV = s.slotIV := rfl
@[simp] theorem State.record_mem (s : State) (f : Fault) : (s.record f).mem = s.mem := rfl
@[simp] theorem State.record_faults (s : State) (f : Fault) : (s.record f).faults = addFault f s.faults := rfl
@[simp] theorem State.record_pending (s : State) (f : Fault) : (s.record f).pending = s.pending := rfl
@[simp] theorem State.record_responses (s : State) (f : Fault) : (s.record f).responses = s.responses := rfl
@[simp] theorem State.record_hostTurns (s : State) (f : Fault) : (s.record f).hostTurns = s.hostTurns := rfl
@[simp] theorem State.record_draws (s : State) (f : Fault) : (s.record f).draws = s.draws := rfl
@[simp] theorem State.record_epoch (s : State) (f : Fault) : (s.record f).epoch = s.epoch := rfl
@[simp] theorem State.record_disturbed (s : State) (f : Fault) : (s.record f).disturbed = s.disturbed := rfl

/-! ### noteReads -/

@[simp] theorem State.noteReads_params (s : State) (a k : Nat) : (s.noteReads a k).params = s.params := rfl
@[simp] theorem State.noteReads_cmdl (s : State) (a k : Nat) : (s.noteReads a k).cmdl = s.cmdl := rfl
@[simp] theorem State.noteReads_busy (s : State) (a k : Nat) : (s.noteReads a k).busy = s.busy := rfl
@[simp] theorem State.noteReads_done (s : State) (a k : Nat) : (s.noteReads a k).done = s.done := rfl
@[simp] theorem State.noteReads_err (s : State) (a k : Nat) : (s.noteReads a k).err = s.err := rfl
@[simp] theorem State.noteReads_ovr (s : State) (a k : Nat) : (s.noteReads a k).ovr = s.ovr := rfl
@[simp] theorem State.noteReads_errcode (s : State) (a k : Nat) : (s.noteReads a k).errcode = s.errcode := rfl
@[simp] theorem State.noteReads_ie (s : State) (a k : Nat) : (s.noteReads a k).ie = s.ie := rfl
@[simp] theorem State.noteReads_src (s : State) (a k : Nat) : (s.noteReads a k).src = s.src := rfl
@[simp] theorem State.noteReads_dst (s : State) (a k : Nat) : (s.noteReads a k).dst = s.dst := rfl
@[simp] theorem State.noteReads_len (s : State) (a k : Nat) : (s.noteReads a k).len = s.len := rfl
@[simp] theorem State.noteReads_key (s : State) (a k : Nat) : (s.noteReads a k).key = s.key := rfl
@[simp] theorem State.noteReads_nonce (s : State) (a k : Nat) : (s.noteReads a k).nonce = s.nonce := rfl
@[simp] theorem State.noteReads_block (s : State) (a k : Nat) : (s.noteReads a k).block = s.block := rfl
@[simp] theorem State.noteReads_digest (s : State) (a k : Nat) : (s.noteReads a k).digest = s.digest := rfl
@[simp] theorem State.noteReads_slotS (s : State) (a k : Nat) : (s.noteReads a k).slotS = s.slotS := rfl
@[simp] theorem State.noteReads_slotH (s : State) (a k : Nat) : (s.noteReads a k).slotH = s.slotH := rfl
@[simp] theorem State.noteReads_slotIV (s : State) (a k : Nat) : (s.noteReads a k).slotIV = s.slotIV := rfl
@[simp] theorem State.noteReads_mem (s : State) (a k : Nat) : (s.noteReads a k).mem = s.mem := rfl
@[simp] theorem State.noteReads_faults (s : State) (a k : Nat) : (s.noteReads a k).faults = if s.allWritten a k then s.faults else addFault .unwrittenRead s.faults := rfl
@[simp] theorem State.noteReads_pending (s : State) (a k : Nat) : (s.noteReads a k).pending = s.pending := rfl
@[simp] theorem State.noteReads_responses (s : State) (a k : Nat) : (s.noteReads a k).responses = s.responses := rfl
@[simp] theorem State.noteReads_hostTurns (s : State) (a k : Nat) : (s.noteReads a k).hostTurns = s.hostTurns := rfl
@[simp] theorem State.noteReads_draws (s : State) (a k : Nat) : (s.noteReads a k).draws = s.draws := rfl
@[simp] theorem State.noteReads_epoch (s : State) (a k : Nat) : (s.noteReads a k).epoch = s.epoch := rfl
@[simp] theorem State.noteReads_disturbed (s : State) (a k : Nat) : (s.noteReads a k).disturbed = s.disturbed := rfl

/-! ### noteInput -/

@[simp] theorem State.noteInput_params (s : State) : s.noteInput.params = s.params := rfl
@[simp] theorem State.noteInput_cmdl (s : State) : s.noteInput.cmdl = s.cmdl := rfl
@[simp] theorem State.noteInput_busy (s : State) : s.noteInput.busy = s.busy := rfl
@[simp] theorem State.noteInput_done (s : State) : s.noteInput.done = s.done := rfl
@[simp] theorem State.noteInput_err (s : State) : s.noteInput.err = s.err := rfl
@[simp] theorem State.noteInput_ovr (s : State) : s.noteInput.ovr = s.ovr := rfl
@[simp] theorem State.noteInput_errcode (s : State) : s.noteInput.errcode = s.errcode := rfl
@[simp] theorem State.noteInput_ie (s : State) : s.noteInput.ie = s.ie := rfl
@[simp] theorem State.noteInput_src (s : State) : s.noteInput.src = s.src := rfl
@[simp] theorem State.noteInput_dst (s : State) : s.noteInput.dst = s.dst := rfl
@[simp] theorem State.noteInput_len (s : State) : s.noteInput.len = s.len := rfl
@[simp] theorem State.noteInput_key (s : State) : s.noteInput.key = s.key := rfl
@[simp] theorem State.noteInput_nonce (s : State) : s.noteInput.nonce = s.nonce := rfl
@[simp] theorem State.noteInput_block (s : State) : s.noteInput.block = s.block := rfl
@[simp] theorem State.noteInput_digest (s : State) : s.noteInput.digest = s.digest := rfl
@[simp] theorem State.noteInput_slotS (s : State) : s.noteInput.slotS = s.slotS := rfl
@[simp] theorem State.noteInput_slotH (s : State) : s.noteInput.slotH = s.slotH := rfl
@[simp] theorem State.noteInput_slotIV (s : State) : s.noteInput.slotIV = s.slotIV := rfl
@[simp] theorem State.noteInput_mem (s : State) : s.noteInput.mem = s.mem := rfl
@[simp] theorem State.noteInput_faults (s : State) : s.noteInput.faults = (s.noteReads s.src.toNat s.len.toNat).faults := rfl
@[simp] theorem State.noteInput_pending (s : State) : s.noteInput.pending = s.pending := rfl
@[simp] theorem State.noteInput_responses (s : State) : s.noteInput.responses = s.responses := rfl
@[simp] theorem State.noteInput_hostTurns (s : State) : s.noteInput.hostTurns = s.hostTurns := rfl
@[simp] theorem State.noteInput_draws (s : State) : s.noteInput.draws = s.draws := rfl
@[simp] theorem State.noteInput_epoch (s : State) : s.noteInput.epoch = s.epoch := rfl
@[simp] theorem State.noteInput_disturbed (s : State) : s.noteInput.disturbed = s.disturbed := rfl

/-! ### disturb -/

@[simp] theorem State.disturb_params (s : State) : s.disturb.params = s.params := rfl
@[simp] theorem State.disturb_cmdl (s : State) : s.disturb.cmdl = s.cmdl := rfl
@[simp] theorem State.disturb_busy (s : State) : s.disturb.busy = s.busy := rfl
@[simp] theorem State.disturb_done (s : State) : s.disturb.done = s.done := rfl
@[simp] theorem State.disturb_err (s : State) : s.disturb.err = s.err := rfl
@[simp] theorem State.disturb_ovr (s : State) : s.disturb.ovr = s.ovr := rfl
@[simp] theorem State.disturb_errcode (s : State) : s.disturb.errcode = s.errcode := rfl
@[simp] theorem State.disturb_ie (s : State) : s.disturb.ie = s.ie := rfl
@[simp] theorem State.disturb_src (s : State) : s.disturb.src = s.src := rfl
@[simp] theorem State.disturb_dst (s : State) : s.disturb.dst = s.dst := rfl
@[simp] theorem State.disturb_len (s : State) : s.disturb.len = s.len := rfl
@[simp] theorem State.disturb_key (s : State) : s.disturb.key = s.key := rfl
@[simp] theorem State.disturb_nonce (s : State) : s.disturb.nonce = s.nonce := rfl
@[simp] theorem State.disturb_block (s : State) : s.disturb.block = s.block := rfl
@[simp] theorem State.disturb_digest (s : State) : s.disturb.digest = s.digest := rfl
@[simp] theorem State.disturb_slotS (s : State) : s.disturb.slotS = s.slotS := rfl
@[simp] theorem State.disturb_slotH (s : State) : s.disturb.slotH = s.slotH := rfl
@[simp] theorem State.disturb_slotIV (s : State) : s.disturb.slotIV = s.slotIV := rfl
@[simp] theorem State.disturb_mem (s : State) : s.disturb.mem = Memory.disturb s.draws s.mem := rfl
@[simp] theorem State.disturb_faults (s : State) : s.disturb.faults = s.faults := rfl
@[simp] theorem State.disturb_pending (s : State) : s.disturb.pending = s.pending := rfl
@[simp] theorem State.disturb_responses (s : State) : s.disturb.responses = s.responses := rfl
@[simp] theorem State.disturb_hostTurns (s : State) : s.disturb.hostTurns = s.hostTurns := rfl
@[simp] theorem State.disturb_draws (s : State) : s.disturb.draws = s.draws + 1 := rfl
@[simp] theorem State.disturb_epoch (s : State) : s.disturb.epoch = s.epoch + 1 := rfl
@[simp] theorem State.disturb_disturbed (s : State) : s.disturb.disturbed = s.disturbed := rfl

/-! ### settle -/

@[simp] theorem State.settle_params (s : State) : s.settle.params = s.params := rfl
@[simp] theorem State.settle_cmdl (s : State) : s.settle.cmdl = s.cmdl := rfl
@[simp] theorem State.settle_busy (s : State) : s.settle.busy = s.busy := rfl
@[simp] theorem State.settle_done (s : State) : s.settle.done = s.done := rfl
@[simp] theorem State.settle_err (s : State) : s.settle.err = s.err := rfl
@[simp] theorem State.settle_ovr (s : State) : s.settle.ovr = s.ovr := rfl
@[simp] theorem State.settle_errcode (s : State) : s.settle.errcode = s.errcode := rfl
@[simp] theorem State.settle_ie (s : State) : s.settle.ie = s.ie := rfl
@[simp] theorem State.settle_src (s : State) : s.settle.src = s.src := rfl
@[simp] theorem State.settle_dst (s : State) : s.settle.dst = s.dst := rfl
@[simp] theorem State.settle_len (s : State) : s.settle.len = s.len := rfl
@[simp] theorem State.settle_key (s : State) : s.settle.key = s.key := rfl
@[simp] theorem State.settle_nonce (s : State) : s.settle.nonce = s.nonce := rfl
@[simp] theorem State.settle_block (s : State) : s.settle.block = s.block := rfl
@[simp] theorem State.settle_digest (s : State) : s.settle.digest = s.digest := rfl
@[simp] theorem State.settle_slotS (s : State) : s.settle.slotS = s.slotS := rfl
@[simp] theorem State.settle_slotH (s : State) : s.settle.slotH = s.slotH := rfl
@[simp] theorem State.settle_slotIV (s : State) : s.settle.slotIV = s.slotIV := rfl
@[simp] theorem State.settle_mem (s : State) : s.settle.mem = s.mem := rfl
@[simp] theorem State.settle_faults (s : State) : s.settle.faults = s.faults := rfl
@[simp] theorem State.settle_pending (s : State) : s.settle.pending = s.pending := rfl
@[simp] theorem State.settle_responses (s : State) : s.settle.responses = s.responses := rfl
@[simp] theorem State.settle_hostTurns (s : State) : s.settle.hostTurns = s.hostTurns := rfl
@[simp] theorem State.settle_draws (s : State) : s.settle.draws = s.draws := rfl
@[simp] theorem State.settle_epoch (s : State) : s.settle.epoch = s.epoch := rfl
@[simp] theorem State.settle_disturbed (s : State) : s.settle.disturbed = false := rfl

/-! ### recordBusyAccess -/

@[simp] theorem State.recordBusyAccess_params (s : State) (n : Nat) (a : Access) : (s.recordBusyAccess n a).params = s.params := rfl
@[simp] theorem State.recordBusyAccess_cmdl (s : State) (n : Nat) (a : Access) : (s.recordBusyAccess n a).cmdl = s.cmdl := rfl
@[simp] theorem State.recordBusyAccess_busy (s : State) (n : Nat) (a : Access) : (s.recordBusyAccess n a).busy = s.busy := rfl
@[simp] theorem State.recordBusyAccess_done (s : State) (n : Nat) (a : Access) : (s.recordBusyAccess n a).done = s.done := rfl
@[simp] theorem State.recordBusyAccess_err (s : State) (n : Nat) (a : Access) : (s.recordBusyAccess n a).err = s.err := rfl
@[simp] theorem State.recordBusyAccess_ovr (s : State) (n : Nat) (a : Access) : (s.recordBusyAccess n a).ovr = s.ovr := rfl
@[simp] theorem State.recordBusyAccess_errcode (s : State) (n : Nat) (a : Access) : (s.recordBusyAccess n a).errcode = s.errcode := rfl
@[simp] theorem State.recordBusyAccess_ie (s : State) (n : Nat) (a : Access) : (s.recordBusyAccess n a).ie = s.ie := rfl
@[simp] theorem State.recordBusyAccess_src (s : State) (n : Nat) (a : Access) : (s.recordBusyAccess n a).src = s.src := rfl
@[simp] theorem State.recordBusyAccess_dst (s : State) (n : Nat) (a : Access) : (s.recordBusyAccess n a).dst = s.dst := rfl
@[simp] theorem State.recordBusyAccess_len (s : State) (n : Nat) (a : Access) : (s.recordBusyAccess n a).len = s.len := rfl
@[simp] theorem State.recordBusyAccess_key (s : State) (n : Nat) (a : Access) : (s.recordBusyAccess n a).key = s.key := rfl
@[simp] theorem State.recordBusyAccess_nonce (s : State) (n : Nat) (a : Access) : (s.recordBusyAccess n a).nonce = s.nonce := rfl
@[simp] theorem State.recordBusyAccess_block (s : State) (n : Nat) (a : Access) : (s.recordBusyAccess n a).block = s.block := rfl
@[simp] theorem State.recordBusyAccess_digest (s : State) (n : Nat) (a : Access) : (s.recordBusyAccess n a).digest = s.digest := rfl
@[simp] theorem State.recordBusyAccess_slotS (s : State) (n : Nat) (a : Access) : (s.recordBusyAccess n a).slotS = s.slotS := rfl
@[simp] theorem State.recordBusyAccess_slotH (s : State) (n : Nat) (a : Access) : (s.recordBusyAccess n a).slotH = s.slotH := rfl
@[simp] theorem State.recordBusyAccess_slotIV (s : State) (n : Nat) (a : Access) : (s.recordBusyAccess n a).slotIV = s.slotIV := rfl
@[simp] theorem State.recordBusyAccess_mem (s : State) (n : Nat) (a : Access) : (s.recordBusyAccess n a).mem = s.mem := rfl
@[simp] theorem State.recordBusyAccess_faults (s : State) (n : Nat) (a : Access) : (s.recordBusyAccess n a).faults = addFault .dmemAccessWhileBusy (s.noteAccess n a).faults := rfl
@[simp] theorem State.recordBusyAccess_pending (s : State) (n : Nat) (a : Access) : (s.recordBusyAccess n a).pending = s.pending := rfl
@[simp] theorem State.recordBusyAccess_responses (s : State) (n : Nat) (a : Access) : (s.recordBusyAccess n a).responses = s.responses := rfl
@[simp] theorem State.recordBusyAccess_hostTurns (s : State) (n : Nat) (a : Access) : (s.recordBusyAccess n a).hostTurns = s.hostTurns := rfl
@[simp] theorem State.recordBusyAccess_draws (s : State) (n : Nat) (a : Access) : (s.recordBusyAccess n a).draws = s.draws := rfl
@[simp] theorem State.recordBusyAccess_epoch (s : State) (n : Nat) (a : Access) : (s.recordBusyAccess n a).epoch = s.epoch := rfl
@[simp] theorem State.recordBusyAccess_disturbed (s : State) (n : Nat) (a : Access) : (s.recordBusyAccess n a).disturbed = s.disturbed := rfl

/-! ### noteAccess -/

@[simp] theorem State.noteAccess_params (s : State) (n : Nat) (a : Access) : (s.noteAccess n a).params = s.params := rfl
@[simp] theorem State.noteAccess_cmdl (s : State) (n : Nat) (a : Access) : (s.noteAccess n a).cmdl = s.cmdl := rfl
@[simp] theorem State.noteAccess_busy (s : State) (n : Nat) (a : Access) : (s.noteAccess n a).busy = s.busy := rfl
@[simp] theorem State.noteAccess_done (s : State) (n : Nat) (a : Access) : (s.noteAccess n a).done = s.done := rfl
@[simp] theorem State.noteAccess_err (s : State) (n : Nat) (a : Access) : (s.noteAccess n a).err = s.err := rfl
@[simp] theorem State.noteAccess_ovr (s : State) (n : Nat) (a : Access) : (s.noteAccess n a).ovr = s.ovr := rfl
@[simp] theorem State.noteAccess_errcode (s : State) (n : Nat) (a : Access) : (s.noteAccess n a).errcode = s.errcode := rfl
@[simp] theorem State.noteAccess_ie (s : State) (n : Nat) (a : Access) : (s.noteAccess n a).ie = s.ie := rfl
@[simp] theorem State.noteAccess_src (s : State) (n : Nat) (a : Access) : (s.noteAccess n a).src = s.src := rfl
@[simp] theorem State.noteAccess_dst (s : State) (n : Nat) (a : Access) : (s.noteAccess n a).dst = s.dst := rfl
@[simp] theorem State.noteAccess_len (s : State) (n : Nat) (a : Access) : (s.noteAccess n a).len = s.len := rfl
@[simp] theorem State.noteAccess_key (s : State) (n : Nat) (a : Access) : (s.noteAccess n a).key = s.key := rfl
@[simp] theorem State.noteAccess_nonce (s : State) (n : Nat) (a : Access) : (s.noteAccess n a).nonce = s.nonce := rfl
@[simp] theorem State.noteAccess_block (s : State) (n : Nat) (a : Access) : (s.noteAccess n a).block = s.block := rfl
@[simp] theorem State.noteAccess_digest (s : State) (n : Nat) (a : Access) : (s.noteAccess n a).digest = s.digest := rfl
@[simp] theorem State.noteAccess_slotS (s : State) (n : Nat) (a : Access) : (s.noteAccess n a).slotS = s.slotS := rfl
@[simp] theorem State.noteAccess_slotH (s : State) (n : Nat) (a : Access) : (s.noteAccess n a).slotH = s.slotH := rfl
@[simp] theorem State.noteAccess_slotIV (s : State) (n : Nat) (a : Access) : (s.noteAccess n a).slotIV = s.slotIV := rfl
@[simp] theorem State.noteAccess_mem (s : State) (n : Nat) (a : Access) : (s.noteAccess n a).mem = s.mem := rfl
@[simp] theorem State.noteAccess_pending (s : State) (n : Nat) (a : Access) : (s.noteAccess n a).pending = s.pending := rfl
@[simp] theorem State.noteAccess_responses (s : State) (n : Nat) (a : Access) : (s.noteAccess n a).responses = s.responses := rfl
@[simp] theorem State.noteAccess_hostTurns (s : State) (n : Nat) (a : Access) : (s.noteAccess n a).hostTurns = s.hostTurns := rfl
@[simp] theorem State.noteAccess_draws (s : State) (n : Nat) (a : Access) : (s.noteAccess n a).draws = s.draws := rfl
@[simp] theorem State.noteAccess_epoch (s : State) (n : Nat) (a : Access) : (s.noteAccess n a).epoch = s.epoch := rfl
@[simp] theorem State.noteAccess_disturbed (s : State) (n : Nat) (a : Access) : (s.noteAccess n a).disturbed = s.disturbed := rfl

/-! ### writeBytes -/

@[simp] theorem State.writeBytes_params (s : State) (a : Nat) (b : List Byte) : (s.writeBytes a b).params = s.params := rfl
@[simp] theorem State.writeBytes_cmdl (s : State) (a : Nat) (b : List Byte) : (s.writeBytes a b).cmdl = s.cmdl := rfl
@[simp] theorem State.writeBytes_busy (s : State) (a : Nat) (b : List Byte) : (s.writeBytes a b).busy = s.busy := rfl
@[simp] theorem State.writeBytes_done (s : State) (a : Nat) (b : List Byte) : (s.writeBytes a b).done = s.done := rfl
@[simp] theorem State.writeBytes_err (s : State) (a : Nat) (b : List Byte) : (s.writeBytes a b).err = s.err := rfl
@[simp] theorem State.writeBytes_ovr (s : State) (a : Nat) (b : List Byte) : (s.writeBytes a b).ovr = s.ovr := rfl
@[simp] theorem State.writeBytes_errcode (s : State) (a : Nat) (b : List Byte) : (s.writeBytes a b).errcode = s.errcode := rfl
@[simp] theorem State.writeBytes_ie (s : State) (a : Nat) (b : List Byte) : (s.writeBytes a b).ie = s.ie := rfl
@[simp] theorem State.writeBytes_src (s : State) (a : Nat) (b : List Byte) : (s.writeBytes a b).src = s.src := rfl
@[simp] theorem State.writeBytes_dst (s : State) (a : Nat) (b : List Byte) : (s.writeBytes a b).dst = s.dst := rfl
@[simp] theorem State.writeBytes_len (s : State) (a : Nat) (b : List Byte) : (s.writeBytes a b).len = s.len := rfl
@[simp] theorem State.writeBytes_key (s : State) (a : Nat) (b : List Byte) : (s.writeBytes a b).key = s.key := rfl
@[simp] theorem State.writeBytes_nonce (s : State) (a : Nat) (b : List Byte) : (s.writeBytes a b).nonce = s.nonce := rfl
@[simp] theorem State.writeBytes_block (s : State) (a : Nat) (b : List Byte) : (s.writeBytes a b).block = s.block := rfl
@[simp] theorem State.writeBytes_digest (s : State) (a : Nat) (b : List Byte) : (s.writeBytes a b).digest = s.digest := rfl
@[simp] theorem State.writeBytes_slotS (s : State) (a : Nat) (b : List Byte) : (s.writeBytes a b).slotS = s.slotS := rfl
@[simp] theorem State.writeBytes_slotH (s : State) (a : Nat) (b : List Byte) : (s.writeBytes a b).slotH = s.slotH := rfl
@[simp] theorem State.writeBytes_slotIV (s : State) (a : Nat) (b : List Byte) : (s.writeBytes a b).slotIV = s.slotIV := rfl
@[simp] theorem State.writeBytes_mem (s : State) (a : Nat) (b : List Byte) : (s.writeBytes a b).mem = Memory.storeBytes s.mem a b := rfl
@[simp] theorem State.writeBytes_faults (s : State) (a : Nat) (b : List Byte) : (s.writeBytes a b).faults = s.faults := rfl
@[simp] theorem State.writeBytes_pending (s : State) (a : Nat) (b : List Byte) : (s.writeBytes a b).pending = s.pending := rfl
@[simp] theorem State.writeBytes_responses (s : State) (a : Nat) (b : List Byte) : (s.writeBytes a b).responses = s.responses := rfl
@[simp] theorem State.writeBytes_hostTurns (s : State) (a : Nat) (b : List Byte) : (s.writeBytes a b).hostTurns = s.hostTurns := rfl
@[simp] theorem State.writeBytes_draws (s : State) (a : Nat) (b : List Byte) : (s.writeBytes a b).draws = s.draws := rfl
@[simp] theorem State.writeBytes_epoch (s : State) (a : Nat) (b : List Byte) : (s.writeBytes a b).epoch = s.epoch := rfl
@[simp] theorem State.writeBytes_disturbed (s : State) (a : Nat) (b : List Byte) : (s.writeBytes a b).disturbed = s.disturbed := rfl

/-! ### setNonceLo -/

@[simp] theorem State.setNonceLo_params (s : State) (v : BitVec 64) : (s.setNonceLo v).params = s.params := rfl
@[simp] theorem State.setNonceLo_cmdl (s : State) (v : BitVec 64) : (s.setNonceLo v).cmdl = s.cmdl := rfl
@[simp] theorem State.setNonceLo_busy (s : State) (v : BitVec 64) : (s.setNonceLo v).busy = s.busy := rfl
@[simp] theorem State.setNonceLo_done (s : State) (v : BitVec 64) : (s.setNonceLo v).done = s.done := rfl
@[simp] theorem State.setNonceLo_err (s : State) (v : BitVec 64) : (s.setNonceLo v).err = s.err := rfl
@[simp] theorem State.setNonceLo_ovr (s : State) (v : BitVec 64) : (s.setNonceLo v).ovr = s.ovr := rfl
@[simp] theorem State.setNonceLo_errcode (s : State) (v : BitVec 64) : (s.setNonceLo v).errcode = s.errcode := rfl
@[simp] theorem State.setNonceLo_ie (s : State) (v : BitVec 64) : (s.setNonceLo v).ie = s.ie := rfl
@[simp] theorem State.setNonceLo_src (s : State) (v : BitVec 64) : (s.setNonceLo v).src = s.src := rfl
@[simp] theorem State.setNonceLo_dst (s : State) (v : BitVec 64) : (s.setNonceLo v).dst = s.dst := rfl
@[simp] theorem State.setNonceLo_len (s : State) (v : BitVec 64) : (s.setNonceLo v).len = s.len := rfl
@[simp] theorem State.setNonceLo_key (s : State) (v : BitVec 64) : (s.setNonceLo v).key = s.key := rfl
@[simp] theorem State.setNonceLo_nonce (s : State) (v : BitVec 64) : (s.setNonceLo v).nonce = #v[v.extractLsb' 0 32, v.extractLsb' 32 32, s.nonce[2], s.nonce[3]] := rfl
@[simp] theorem State.setNonceLo_block (s : State) (v : BitVec 64) : (s.setNonceLo v).block = s.block := rfl
@[simp] theorem State.setNonceLo_digest (s : State) (v : BitVec 64) : (s.setNonceLo v).digest = s.digest := rfl
@[simp] theorem State.setNonceLo_slotS (s : State) (v : BitVec 64) : (s.setNonceLo v).slotS = s.slotS := rfl
@[simp] theorem State.setNonceLo_slotH (s : State) (v : BitVec 64) : (s.setNonceLo v).slotH = s.slotH := rfl
@[simp] theorem State.setNonceLo_slotIV (s : State) (v : BitVec 64) : (s.setNonceLo v).slotIV = s.slotIV := rfl
@[simp] theorem State.setNonceLo_mem (s : State) (v : BitVec 64) : (s.setNonceLo v).mem = s.mem := rfl
@[simp] theorem State.setNonceLo_faults (s : State) (v : BitVec 64) : (s.setNonceLo v).faults = s.faults := rfl
@[simp] theorem State.setNonceLo_pending (s : State) (v : BitVec 64) : (s.setNonceLo v).pending = s.pending := rfl
@[simp] theorem State.setNonceLo_responses (s : State) (v : BitVec 64) : (s.setNonceLo v).responses = s.responses := rfl
@[simp] theorem State.setNonceLo_hostTurns (s : State) (v : BitVec 64) : (s.setNonceLo v).hostTurns = s.hostTurns := rfl
@[simp] theorem State.setNonceLo_draws (s : State) (v : BitVec 64) : (s.setNonceLo v).draws = s.draws := rfl
@[simp] theorem State.setNonceLo_epoch (s : State) (v : BitVec 64) : (s.setNonceLo v).epoch = s.epoch := rfl
@[simp] theorem State.setNonceLo_disturbed (s : State) (v : BitVec 64) : (s.setNonceLo v).disturbed = s.disturbed := rfl

/-! ### setDigest -/

@[simp] theorem State.setDigest_params (s : State) (d : List Byte) : (s.setDigest d).params = s.params := rfl
@[simp] theorem State.setDigest_cmdl (s : State) (d : List Byte) : (s.setDigest d).cmdl = s.cmdl := rfl
@[simp] theorem State.setDigest_busy (s : State) (d : List Byte) : (s.setDigest d).busy = s.busy := rfl
@[simp] theorem State.setDigest_done (s : State) (d : List Byte) : (s.setDigest d).done = s.done := rfl
@[simp] theorem State.setDigest_err (s : State) (d : List Byte) : (s.setDigest d).err = s.err := rfl
@[simp] theorem State.setDigest_ovr (s : State) (d : List Byte) : (s.setDigest d).ovr = s.ovr := rfl
@[simp] theorem State.setDigest_errcode (s : State) (d : List Byte) : (s.setDigest d).errcode = s.errcode := rfl
@[simp] theorem State.setDigest_ie (s : State) (d : List Byte) : (s.setDigest d).ie = s.ie := rfl
@[simp] theorem State.setDigest_src (s : State) (d : List Byte) : (s.setDigest d).src = s.src := rfl
@[simp] theorem State.setDigest_dst (s : State) (d : List Byte) : (s.setDigest d).dst = s.dst := rfl
@[simp] theorem State.setDigest_len (s : State) (d : List Byte) : (s.setDigest d).len = s.len := rfl
@[simp] theorem State.setDigest_key (s : State) (d : List Byte) : (s.setDigest d).key = s.key := rfl
@[simp] theorem State.setDigest_nonce (s : State) (d : List Byte) : (s.setDigest d).nonce = s.nonce := rfl
@[simp] theorem State.setDigest_block (s : State) (d : List Byte) : (s.setDigest d).block = s.block := rfl
@[simp] theorem State.setDigest_digest (s : State) (d : List Byte) : (s.setDigest d).digest = packWords 8 d := rfl
@[simp] theorem State.setDigest_slotS (s : State) (d : List Byte) : (s.setDigest d).slotS = s.slotS := rfl
@[simp] theorem State.setDigest_slotH (s : State) (d : List Byte) : (s.setDigest d).slotH = s.slotH := rfl
@[simp] theorem State.setDigest_slotIV (s : State) (d : List Byte) : (s.setDigest d).slotIV = s.slotIV := rfl
@[simp] theorem State.setDigest_mem (s : State) (d : List Byte) : (s.setDigest d).mem = s.mem := rfl
@[simp] theorem State.setDigest_faults (s : State) (d : List Byte) : (s.setDigest d).faults = s.faults := rfl
@[simp] theorem State.setDigest_pending (s : State) (d : List Byte) : (s.setDigest d).pending = s.pending := rfl
@[simp] theorem State.setDigest_responses (s : State) (d : List Byte) : (s.setDigest d).responses = s.responses := rfl
@[simp] theorem State.setDigest_hostTurns (s : State) (d : List Byte) : (s.setDigest d).hostTurns = s.hostTurns := rfl
@[simp] theorem State.setDigest_draws (s : State) (d : List Byte) : (s.setDigest d).draws = s.draws := rfl
@[simp] theorem State.setDigest_epoch (s : State) (d : List Byte) : (s.setDigest d).epoch = s.epoch := rfl
@[simp] theorem State.setDigest_disturbed (s : State) (d : List Byte) : (s.setDigest d).disturbed = s.disturbed := rfl

/-! ### setBlock -/

@[simp] theorem State.setBlock_params (s : State) (b : List Byte) : (s.setBlock b).params = s.params := rfl
@[simp] theorem State.setBlock_cmdl (s : State) (b : List Byte) : (s.setBlock b).cmdl = s.cmdl := rfl
@[simp] theorem State.setBlock_busy (s : State) (b : List Byte) : (s.setBlock b).busy = s.busy := rfl
@[simp] theorem State.setBlock_done (s : State) (b : List Byte) : (s.setBlock b).done = s.done := rfl
@[simp] theorem State.setBlock_err (s : State) (b : List Byte) : (s.setBlock b).err = s.err := rfl
@[simp] theorem State.setBlock_ovr (s : State) (b : List Byte) : (s.setBlock b).ovr = s.ovr := rfl
@[simp] theorem State.setBlock_errcode (s : State) (b : List Byte) : (s.setBlock b).errcode = s.errcode := rfl
@[simp] theorem State.setBlock_ie (s : State) (b : List Byte) : (s.setBlock b).ie = s.ie := rfl
@[simp] theorem State.setBlock_src (s : State) (b : List Byte) : (s.setBlock b).src = s.src := rfl
@[simp] theorem State.setBlock_dst (s : State) (b : List Byte) : (s.setBlock b).dst = s.dst := rfl
@[simp] theorem State.setBlock_len (s : State) (b : List Byte) : (s.setBlock b).len = s.len := rfl
@[simp] theorem State.setBlock_key (s : State) (b : List Byte) : (s.setBlock b).key = s.key := rfl
@[simp] theorem State.setBlock_nonce (s : State) (b : List Byte) : (s.setBlock b).nonce = s.nonce := rfl
@[simp] theorem State.setBlock_block (s : State) (b : List Byte) : (s.setBlock b).block = packWords 4 (b ++ s.blockBytes.drop b.length) := rfl
@[simp] theorem State.setBlock_digest (s : State) (b : List Byte) : (s.setBlock b).digest = s.digest := rfl
@[simp] theorem State.setBlock_slotS (s : State) (b : List Byte) : (s.setBlock b).slotS = s.slotS := rfl
@[simp] theorem State.setBlock_slotH (s : State) (b : List Byte) : (s.setBlock b).slotH = s.slotH := rfl
@[simp] theorem State.setBlock_slotIV (s : State) (b : List Byte) : (s.setBlock b).slotIV = s.slotIV := rfl
@[simp] theorem State.setBlock_mem (s : State) (b : List Byte) : (s.setBlock b).mem = s.mem := rfl
@[simp] theorem State.setBlock_faults (s : State) (b : List Byte) : (s.setBlock b).faults = s.faults := rfl
@[simp] theorem State.setBlock_pending (s : State) (b : List Byte) : (s.setBlock b).pending = s.pending := rfl
@[simp] theorem State.setBlock_responses (s : State) (b : List Byte) : (s.setBlock b).responses = s.responses := rfl
@[simp] theorem State.setBlock_hostTurns (s : State) (b : List Byte) : (s.setBlock b).hostTurns = s.hostTurns := rfl
@[simp] theorem State.setBlock_draws (s : State) (b : List Byte) : (s.setBlock b).draws = s.draws := rfl
@[simp] theorem State.setBlock_epoch (s : State) (b : List Byte) : (s.setBlock b).epoch = s.epoch := rfl
@[simp] theorem State.setBlock_disturbed (s : State) (b : List Byte) : (s.setBlock b).disturbed = s.disturbed := rfl

/-! ### setSlotS -/

@[simp] theorem State.setSlotS_params (s : State) (x : Slot 64 34) : (s.setSlotS x).params = s.params := rfl
@[simp] theorem State.setSlotS_cmdl (s : State) (x : Slot 64 34) : (s.setSlotS x).cmdl = s.cmdl := rfl
@[simp] theorem State.setSlotS_busy (s : State) (x : Slot 64 34) : (s.setSlotS x).busy = s.busy := rfl
@[simp] theorem State.setSlotS_done (s : State) (x : Slot 64 34) : (s.setSlotS x).done = s.done := rfl
@[simp] theorem State.setSlotS_err (s : State) (x : Slot 64 34) : (s.setSlotS x).err = s.err := rfl
@[simp] theorem State.setSlotS_ovr (s : State) (x : Slot 64 34) : (s.setSlotS x).ovr = s.ovr := rfl
@[simp] theorem State.setSlotS_errcode (s : State) (x : Slot 64 34) : (s.setSlotS x).errcode = s.errcode := rfl
@[simp] theorem State.setSlotS_ie (s : State) (x : Slot 64 34) : (s.setSlotS x).ie = s.ie := rfl
@[simp] theorem State.setSlotS_src (s : State) (x : Slot 64 34) : (s.setSlotS x).src = s.src := rfl
@[simp] theorem State.setSlotS_dst (s : State) (x : Slot 64 34) : (s.setSlotS x).dst = s.dst := rfl
@[simp] theorem State.setSlotS_len (s : State) (x : Slot 64 34) : (s.setSlotS x).len = s.len := rfl
@[simp] theorem State.setSlotS_key (s : State) (x : Slot 64 34) : (s.setSlotS x).key = s.key := rfl
@[simp] theorem State.setSlotS_nonce (s : State) (x : Slot 64 34) : (s.setSlotS x).nonce = s.nonce := rfl
@[simp] theorem State.setSlotS_block (s : State) (x : Slot 64 34) : (s.setSlotS x).block = s.block := rfl
@[simp] theorem State.setSlotS_digest (s : State) (x : Slot 64 34) : (s.setSlotS x).digest = s.digest := rfl
@[simp] theorem State.setSlotS_slotS (s : State) (x : Slot 64 34) : (s.setSlotS x).slotS = x := rfl
@[simp] theorem State.setSlotS_slotH (s : State) (x : Slot 64 34) : (s.setSlotS x).slotH = s.slotH := rfl
@[simp] theorem State.setSlotS_slotIV (s : State) (x : Slot 64 34) : (s.setSlotS x).slotIV = s.slotIV := rfl
@[simp] theorem State.setSlotS_mem (s : State) (x : Slot 64 34) : (s.setSlotS x).mem = s.mem := rfl
@[simp] theorem State.setSlotS_faults (s : State) (x : Slot 64 34) : (s.setSlotS x).faults = s.faults := rfl
@[simp] theorem State.setSlotS_pending (s : State) (x : Slot 64 34) : (s.setSlotS x).pending = s.pending := rfl
@[simp] theorem State.setSlotS_responses (s : State) (x : Slot 64 34) : (s.setSlotS x).responses = s.responses := rfl
@[simp] theorem State.setSlotS_hostTurns (s : State) (x : Slot 64 34) : (s.setSlotS x).hostTurns = s.hostTurns := rfl
@[simp] theorem State.setSlotS_draws (s : State) (x : Slot 64 34) : (s.setSlotS x).draws = s.draws := rfl
@[simp] theorem State.setSlotS_epoch (s : State) (x : Slot 64 34) : (s.setSlotS x).epoch = s.epoch := rfl
@[simp] theorem State.setSlotS_disturbed (s : State) (x : Slot 64 34) : (s.setSlotS x).disturbed = s.disturbed := rfl

/-! ### setSlotH -/

@[simp] theorem State.setSlotH_params (s : State) (x : Slot 64 32) : (s.setSlotH x).params = s.params := rfl
@[simp] theorem State.setSlotH_cmdl (s : State) (x : Slot 64 32) : (s.setSlotH x).cmdl = s.cmdl := rfl
@[simp] theorem State.setSlotH_busy (s : State) (x : Slot 64 32) : (s.setSlotH x).busy = s.busy := rfl
@[simp] theorem State.setSlotH_done (s : State) (x : Slot 64 32) : (s.setSlotH x).done = s.done := rfl
@[simp] theorem State.setSlotH_err (s : State) (x : Slot 64 32) : (s.setSlotH x).err = s.err := rfl
@[simp] theorem State.setSlotH_ovr (s : State) (x : Slot 64 32) : (s.setSlotH x).ovr = s.ovr := rfl
@[simp] theorem State.setSlotH_errcode (s : State) (x : Slot 64 32) : (s.setSlotH x).errcode = s.errcode := rfl
@[simp] theorem State.setSlotH_ie (s : State) (x : Slot 64 32) : (s.setSlotH x).ie = s.ie := rfl
@[simp] theorem State.setSlotH_src (s : State) (x : Slot 64 32) : (s.setSlotH x).src = s.src := rfl
@[simp] theorem State.setSlotH_dst (s : State) (x : Slot 64 32) : (s.setSlotH x).dst = s.dst := rfl
@[simp] theorem State.setSlotH_len (s : State) (x : Slot 64 32) : (s.setSlotH x).len = s.len := rfl
@[simp] theorem State.setSlotH_key (s : State) (x : Slot 64 32) : (s.setSlotH x).key = s.key := rfl
@[simp] theorem State.setSlotH_nonce (s : State) (x : Slot 64 32) : (s.setSlotH x).nonce = s.nonce := rfl
@[simp] theorem State.setSlotH_block (s : State) (x : Slot 64 32) : (s.setSlotH x).block = s.block := rfl
@[simp] theorem State.setSlotH_digest (s : State) (x : Slot 64 32) : (s.setSlotH x).digest = s.digest := rfl
@[simp] theorem State.setSlotH_slotS (s : State) (x : Slot 64 32) : (s.setSlotH x).slotS = s.slotS := rfl
@[simp] theorem State.setSlotH_slotH (s : State) (x : Slot 64 32) : (s.setSlotH x).slotH = x := rfl
@[simp] theorem State.setSlotH_slotIV (s : State) (x : Slot 64 32) : (s.setSlotH x).slotIV = s.slotIV := rfl
@[simp] theorem State.setSlotH_mem (s : State) (x : Slot 64 32) : (s.setSlotH x).mem = s.mem := rfl
@[simp] theorem State.setSlotH_faults (s : State) (x : Slot 64 32) : (s.setSlotH x).faults = s.faults := rfl
@[simp] theorem State.setSlotH_pending (s : State) (x : Slot 64 32) : (s.setSlotH x).pending = s.pending := rfl
@[simp] theorem State.setSlotH_responses (s : State) (x : Slot 64 32) : (s.setSlotH x).responses = s.responses := rfl
@[simp] theorem State.setSlotH_hostTurns (s : State) (x : Slot 64 32) : (s.setSlotH x).hostTurns = s.hostTurns := rfl
@[simp] theorem State.setSlotH_draws (s : State) (x : Slot 64 32) : (s.setSlotH x).draws = s.draws := rfl
@[simp] theorem State.setSlotH_epoch (s : State) (x : Slot 64 32) : (s.setSlotH x).epoch = s.epoch := rfl
@[simp] theorem State.setSlotH_disturbed (s : State) (x : Slot 64 32) : (s.setSlotH x).disturbed = s.disturbed := rfl

/-! ### setSlotIV -/

@[simp] theorem State.setSlotIV_params (s : State) (x : Slot 48 28) : (s.setSlotIV x).params = s.params := rfl
@[simp] theorem State.setSlotIV_cmdl (s : State) (x : Slot 48 28) : (s.setSlotIV x).cmdl = s.cmdl := rfl
@[simp] theorem State.setSlotIV_busy (s : State) (x : Slot 48 28) : (s.setSlotIV x).busy = s.busy := rfl
@[simp] theorem State.setSlotIV_done (s : State) (x : Slot 48 28) : (s.setSlotIV x).done = s.done := rfl
@[simp] theorem State.setSlotIV_err (s : State) (x : Slot 48 28) : (s.setSlotIV x).err = s.err := rfl
@[simp] theorem State.setSlotIV_ovr (s : State) (x : Slot 48 28) : (s.setSlotIV x).ovr = s.ovr := rfl
@[simp] theorem State.setSlotIV_errcode (s : State) (x : Slot 48 28) : (s.setSlotIV x).errcode = s.errcode := rfl
@[simp] theorem State.setSlotIV_ie (s : State) (x : Slot 48 28) : (s.setSlotIV x).ie = s.ie := rfl
@[simp] theorem State.setSlotIV_src (s : State) (x : Slot 48 28) : (s.setSlotIV x).src = s.src := rfl
@[simp] theorem State.setSlotIV_dst (s : State) (x : Slot 48 28) : (s.setSlotIV x).dst = s.dst := rfl
@[simp] theorem State.setSlotIV_len (s : State) (x : Slot 48 28) : (s.setSlotIV x).len = s.len := rfl
@[simp] theorem State.setSlotIV_key (s : State) (x : Slot 48 28) : (s.setSlotIV x).key = s.key := rfl
@[simp] theorem State.setSlotIV_nonce (s : State) (x : Slot 48 28) : (s.setSlotIV x).nonce = s.nonce := rfl
@[simp] theorem State.setSlotIV_block (s : State) (x : Slot 48 28) : (s.setSlotIV x).block = s.block := rfl
@[simp] theorem State.setSlotIV_digest (s : State) (x : Slot 48 28) : (s.setSlotIV x).digest = s.digest := rfl
@[simp] theorem State.setSlotIV_slotS (s : State) (x : Slot 48 28) : (s.setSlotIV x).slotS = s.slotS := rfl
@[simp] theorem State.setSlotIV_slotH (s : State) (x : Slot 48 28) : (s.setSlotIV x).slotH = s.slotH := rfl
@[simp] theorem State.setSlotIV_slotIV (s : State) (x : Slot 48 28) : (s.setSlotIV x).slotIV = x := rfl
@[simp] theorem State.setSlotIV_mem (s : State) (x : Slot 48 28) : (s.setSlotIV x).mem = s.mem := rfl
@[simp] theorem State.setSlotIV_faults (s : State) (x : Slot 48 28) : (s.setSlotIV x).faults = s.faults := rfl
@[simp] theorem State.setSlotIV_pending (s : State) (x : Slot 48 28) : (s.setSlotIV x).pending = s.pending := rfl
@[simp] theorem State.setSlotIV_responses (s : State) (x : Slot 48 28) : (s.setSlotIV x).responses = s.responses := rfl
@[simp] theorem State.setSlotIV_hostTurns (s : State) (x : Slot 48 28) : (s.setSlotIV x).hostTurns = s.hostTurns := rfl
@[simp] theorem State.setSlotIV_draws (s : State) (x : Slot 48 28) : (s.setSlotIV x).draws = s.draws := rfl
@[simp] theorem State.setSlotIV_epoch (s : State) (x : Slot 48 28) : (s.setSlotIV x).epoch = s.epoch := rfl
@[simp] theorem State.setSlotIV_disturbed (s : State) (x : Slot 48 28) : (s.setSlotIV x).disturbed = s.disturbed := rfl

/-! ### respond -/

@[simp] theorem State.respond_params (s : State) (r : Response) : (s.respond r).params = s.params := rfl
@[simp] theorem State.respond_cmdl (s : State) (r : Response) : (s.respond r).cmdl = s.cmdl := rfl
@[simp] theorem State.respond_busy (s : State) (r : Response) : (s.respond r).busy = s.busy := rfl
@[simp] theorem State.respond_done (s : State) (r : Response) : (s.respond r).done = s.done := rfl
@[simp] theorem State.respond_err (s : State) (r : Response) : (s.respond r).err = s.err := rfl
@[simp] theorem State.respond_ovr (s : State) (r : Response) : (s.respond r).ovr = s.ovr := rfl
@[simp] theorem State.respond_errcode (s : State) (r : Response) : (s.respond r).errcode = s.errcode := rfl
@[simp] theorem State.respond_ie (s : State) (r : Response) : (s.respond r).ie = s.ie := rfl
@[simp] theorem State.respond_src (s : State) (r : Response) : (s.respond r).src = s.src := rfl
@[simp] theorem State.respond_dst (s : State) (r : Response) : (s.respond r).dst = s.dst := rfl
@[simp] theorem State.respond_len (s : State) (r : Response) : (s.respond r).len = s.len := rfl
@[simp] theorem State.respond_key (s : State) (r : Response) : (s.respond r).key = s.key := rfl
@[simp] theorem State.respond_nonce (s : State) (r : Response) : (s.respond r).nonce = s.nonce := rfl
@[simp] theorem State.respond_block (s : State) (r : Response) : (s.respond r).block = s.block := rfl
@[simp] theorem State.respond_digest (s : State) (r : Response) : (s.respond r).digest = s.digest := rfl
@[simp] theorem State.respond_slotS (s : State) (r : Response) : (s.respond r).slotS = s.slotS := rfl
@[simp] theorem State.respond_slotH (s : State) (r : Response) : (s.respond r).slotH = s.slotH := rfl
@[simp] theorem State.respond_slotIV (s : State) (r : Response) : (s.respond r).slotIV = s.slotIV := rfl
@[simp] theorem State.respond_mem (s : State) (r : Response) : (s.respond r).mem = s.mem := rfl
@[simp] theorem State.respond_faults (s : State) (r : Response) : (s.respond r).faults = s.faults := rfl
@[simp] theorem State.respond_pending (s : State) (r : Response) : (s.respond r).pending = s.pending := rfl
@[simp] theorem State.respond_responses (s : State) (r : Response) : (s.respond r).responses = s.responses ++ [r] := rfl
@[simp] theorem State.respond_hostTurns (s : State) (r : Response) : (s.respond r).hostTurns = s.hostTurns := rfl
@[simp] theorem State.respond_draws (s : State) (r : Response) : (s.respond r).draws = s.draws := rfl
@[simp] theorem State.respond_epoch (s : State) (r : Response) : (s.respond r).epoch = s.epoch := rfl
@[simp] theorem State.respond_disturbed (s : State) (r : Response) : (s.respond r).disturbed = s.disturbed := rfl

/-! ### countDraw -/

@[simp] theorem State.countDraw_params (s : State) : s.countDraw.params = s.params := rfl
@[simp] theorem State.countDraw_cmdl (s : State) : s.countDraw.cmdl = s.cmdl := rfl
@[simp] theorem State.countDraw_busy (s : State) : s.countDraw.busy = s.busy := rfl
@[simp] theorem State.countDraw_done (s : State) : s.countDraw.done = s.done := rfl
@[simp] theorem State.countDraw_err (s : State) : s.countDraw.err = s.err := rfl
@[simp] theorem State.countDraw_ovr (s : State) : s.countDraw.ovr = s.ovr := rfl
@[simp] theorem State.countDraw_errcode (s : State) : s.countDraw.errcode = s.errcode := rfl
@[simp] theorem State.countDraw_ie (s : State) : s.countDraw.ie = s.ie := rfl
@[simp] theorem State.countDraw_src (s : State) : s.countDraw.src = s.src := rfl
@[simp] theorem State.countDraw_dst (s : State) : s.countDraw.dst = s.dst := rfl
@[simp] theorem State.countDraw_len (s : State) : s.countDraw.len = s.len := rfl
@[simp] theorem State.countDraw_key (s : State) : s.countDraw.key = s.key := rfl
@[simp] theorem State.countDraw_nonce (s : State) : s.countDraw.nonce = s.nonce := rfl
@[simp] theorem State.countDraw_block (s : State) : s.countDraw.block = s.block := rfl
@[simp] theorem State.countDraw_digest (s : State) : s.countDraw.digest = s.digest := rfl
@[simp] theorem State.countDraw_slotS (s : State) : s.countDraw.slotS = s.slotS := rfl
@[simp] theorem State.countDraw_slotH (s : State) : s.countDraw.slotH = s.slotH := rfl
@[simp] theorem State.countDraw_slotIV (s : State) : s.countDraw.slotIV = s.slotIV := rfl
@[simp] theorem State.countDraw_mem (s : State) : s.countDraw.mem = s.mem := rfl
@[simp] theorem State.countDraw_faults (s : State) : s.countDraw.faults = s.faults := rfl
@[simp] theorem State.countDraw_pending (s : State) : s.countDraw.pending = s.pending := rfl
@[simp] theorem State.countDraw_responses (s : State) : s.countDraw.responses = s.responses := rfl
@[simp] theorem State.countDraw_hostTurns (s : State) : s.countDraw.hostTurns = s.hostTurns := rfl
@[simp] theorem State.countDraw_draws (s : State) : s.countDraw.draws = s.draws + 1 := rfl
@[simp] theorem State.countDraw_epoch (s : State) : s.countDraw.epoch = s.epoch := rfl
@[simp] theorem State.countDraw_disturbed (s : State) : s.countDraw.disturbed = s.disturbed := rfl

/-! ### issue -/

@[simp] theorem State.issue_params (s : State) (v : Word) : (s.issue v).params = s.params := rfl
@[simp] theorem State.issue_cmdl (s : State) (v : Word) : (s.issue v).cmdl = v := rfl
@[simp] theorem State.issue_busy (s : State) (v : Word) : (s.issue v).busy = true := rfl
@[simp] theorem State.issue_done (s : State) (v : Word) : (s.issue v).done = s.done := rfl
@[simp] theorem State.issue_err (s : State) (v : Word) : (s.issue v).err = s.err := rfl
@[simp] theorem State.issue_ovr (s : State) (v : Word) : (s.issue v).ovr = s.ovr := rfl
@[simp] theorem State.issue_errcode (s : State) (v : Word) : (s.issue v).errcode = s.errcode := rfl
@[simp] theorem State.issue_ie (s : State) (v : Word) : (s.issue v).ie = s.ie := rfl
@[simp] theorem State.issue_src (s : State) (v : Word) : (s.issue v).src = s.src := rfl
@[simp] theorem State.issue_dst (s : State) (v : Word) : (s.issue v).dst = s.dst := rfl
@[simp] theorem State.issue_len (s : State) (v : Word) : (s.issue v).len = s.len := rfl
@[simp] theorem State.issue_key (s : State) (v : Word) : (s.issue v).key = s.key := rfl
@[simp] theorem State.issue_nonce (s : State) (v : Word) : (s.issue v).nonce = s.nonce := rfl
@[simp] theorem State.issue_block (s : State) (v : Word) : (s.issue v).block = s.block := rfl
@[simp] theorem State.issue_digest (s : State) (v : Word) : (s.issue v).digest = s.digest := rfl
@[simp] theorem State.issue_slotS (s : State) (v : Word) : (s.issue v).slotS = s.slotS := rfl
@[simp] theorem State.issue_slotH (s : State) (v : Word) : (s.issue v).slotH = s.slotH := rfl
@[simp] theorem State.issue_slotIV (s : State) (v : Word) : (s.issue v).slotIV = s.slotIV := rfl
@[simp] theorem State.issue_mem (s : State) (v : Word) : (s.issue v).mem = s.mem := rfl
@[simp] theorem State.issue_faults (s : State) (v : Word) : (s.issue v).faults = s.faults := rfl
@[simp] theorem State.issue_pending (s : State) (v : Word) : (s.issue v).pending = s.pending := rfl
@[simp] theorem State.issue_responses (s : State) (v : Word) : (s.issue v).responses = s.responses := rfl
@[simp] theorem State.issue_hostTurns (s : State) (v : Word) : (s.issue v).hostTurns = Config.engineDelay s.draws := rfl
@[simp] theorem State.issue_draws (s : State) (v : Word) : (s.issue v).draws = s.draws + 1 := rfl
@[simp] theorem State.issue_epoch (s : State) (v : Word) : (s.issue v).epoch = s.epoch := rfl
@[simp] theorem State.issue_disturbed (s : State) (v : Word) : (s.issue v).disturbed = false := rfl

/-! ### takeTurn -/

@[simp] theorem State.takeTurn_params (s : State) (rest : List HostEvent) : (s.takeTurn rest).params = s.params := rfl
@[simp] theorem State.takeTurn_cmdl (s : State) (rest : List HostEvent) : (s.takeTurn rest).cmdl = s.cmdl := rfl
@[simp] theorem State.takeTurn_busy (s : State) (rest : List HostEvent) : (s.takeTurn rest).busy = s.busy := rfl
@[simp] theorem State.takeTurn_done (s : State) (rest : List HostEvent) : (s.takeTurn rest).done = s.done := rfl
@[simp] theorem State.takeTurn_err (s : State) (rest : List HostEvent) : (s.takeTurn rest).err = s.err := rfl
@[simp] theorem State.takeTurn_ovr (s : State) (rest : List HostEvent) : (s.takeTurn rest).ovr = s.ovr := rfl
@[simp] theorem State.takeTurn_errcode (s : State) (rest : List HostEvent) : (s.takeTurn rest).errcode = s.errcode := rfl
@[simp] theorem State.takeTurn_ie (s : State) (rest : List HostEvent) : (s.takeTurn rest).ie = s.ie := rfl
@[simp] theorem State.takeTurn_src (s : State) (rest : List HostEvent) : (s.takeTurn rest).src = s.src := rfl
@[simp] theorem State.takeTurn_dst (s : State) (rest : List HostEvent) : (s.takeTurn rest).dst = s.dst := rfl
@[simp] theorem State.takeTurn_len (s : State) (rest : List HostEvent) : (s.takeTurn rest).len = s.len := rfl
@[simp] theorem State.takeTurn_key (s : State) (rest : List HostEvent) : (s.takeTurn rest).key = s.key := rfl
@[simp] theorem State.takeTurn_nonce (s : State) (rest : List HostEvent) : (s.takeTurn rest).nonce = s.nonce := rfl
@[simp] theorem State.takeTurn_block (s : State) (rest : List HostEvent) : (s.takeTurn rest).block = s.block := rfl
@[simp] theorem State.takeTurn_digest (s : State) (rest : List HostEvent) : (s.takeTurn rest).digest = s.digest := rfl
@[simp] theorem State.takeTurn_slotS (s : State) (rest : List HostEvent) : (s.takeTurn rest).slotS = s.slotS := rfl
@[simp] theorem State.takeTurn_slotH (s : State) (rest : List HostEvent) : (s.takeTurn rest).slotH = s.slotH := rfl
@[simp] theorem State.takeTurn_slotIV (s : State) (rest : List HostEvent) : (s.takeTurn rest).slotIV = s.slotIV := rfl
@[simp] theorem State.takeTurn_mem (s : State) (rest : List HostEvent) : (s.takeTurn rest).mem = s.mem := rfl
@[simp] theorem State.takeTurn_faults (s : State) (rest : List HostEvent) : (s.takeTurn rest).faults = s.faults := rfl
@[simp] theorem State.takeTurn_pending (s : State) (rest : List HostEvent) : (s.takeTurn rest).pending = rest := rfl
@[simp] theorem State.takeTurn_responses (s : State) (rest : List HostEvent) : (s.takeTurn rest).responses = s.responses := rfl
@[simp] theorem State.takeTurn_hostTurns (s : State) (rest : List HostEvent) : (s.takeTurn rest).hostTurns = s.hostTurns - 1 := rfl
@[simp] theorem State.takeTurn_draws (s : State) (rest : List HostEvent) : (s.takeTurn rest).draws = s.draws := rfl
@[simp] theorem State.takeTurn_epoch (s : State) (rest : List HostEvent) : (s.takeTurn rest).epoch = s.epoch := rfl
@[simp] theorem State.takeTurn_disturbed (s : State) (rest : List HostEvent) : (s.takeTurn rest).disturbed = s.disturbed := rfl

/-! ### withFetchWord -/

@[simp] theorem State.withFetchWord_params (s : State) (nbits w : Nat) : (s.withFetchWord nbits w).params = s.params := rfl
@[simp] theorem State.withFetchWord_cmdl (s : State) (nbits w : Nat) : (s.withFetchWord nbits w).cmdl = BitVec.ofNat 32 (w % 2 ^ nbits) := rfl
@[simp] theorem State.withFetchWord_busy (s : State) (nbits w : Nat) : (s.withFetchWord nbits w).busy = true := rfl
@[simp] theorem State.withFetchWord_done (s : State) (nbits w : Nat) : (s.withFetchWord nbits w).done = s.done := rfl
@[simp] theorem State.withFetchWord_err (s : State) (nbits w : Nat) : (s.withFetchWord nbits w).err = s.err := rfl
@[simp] theorem State.withFetchWord_ovr (s : State) (nbits w : Nat) : (s.withFetchWord nbits w).ovr = s.ovr := rfl
@[simp] theorem State.withFetchWord_errcode (s : State) (nbits w : Nat) : (s.withFetchWord nbits w).errcode = s.errcode := rfl
@[simp] theorem State.withFetchWord_ie (s : State) (nbits w : Nat) : (s.withFetchWord nbits w).ie = s.ie := rfl
@[simp] theorem State.withFetchWord_src (s : State) (nbits w : Nat) : (s.withFetchWord nbits w).src = s.src := rfl
@[simp] theorem State.withFetchWord_dst (s : State) (nbits w : Nat) : (s.withFetchWord nbits w).dst = s.dst := rfl
@[simp] theorem State.withFetchWord_len (s : State) (nbits w : Nat) : (s.withFetchWord nbits w).len = s.len := rfl
@[simp] theorem State.withFetchWord_key (s : State) (nbits w : Nat) : (s.withFetchWord nbits w).key = s.key := rfl
@[simp] theorem State.withFetchWord_nonce (s : State) (nbits w : Nat) : (s.withFetchWord nbits w).nonce = s.nonce := rfl
@[simp] theorem State.withFetchWord_block (s : State) (nbits w : Nat) : (s.withFetchWord nbits w).block = s.block := rfl
@[simp] theorem State.withFetchWord_digest (s : State) (nbits w : Nat) : (s.withFetchWord nbits w).digest = s.digest := rfl
@[simp] theorem State.withFetchWord_slotS (s : State) (nbits w : Nat) : (s.withFetchWord nbits w).slotS = s.slotS := rfl
@[simp] theorem State.withFetchWord_slotH (s : State) (nbits w : Nat) : (s.withFetchWord nbits w).slotH = s.slotH := rfl
@[simp] theorem State.withFetchWord_slotIV (s : State) (nbits w : Nat) : (s.withFetchWord nbits w).slotIV = s.slotIV := rfl
@[simp] theorem State.withFetchWord_mem (s : State) (nbits w : Nat) : (s.withFetchWord nbits w).mem = s.mem := rfl
@[simp] theorem State.withFetchWord_faults (s : State) (nbits w : Nat) : (s.withFetchWord nbits w).faults = s.faults := rfl
@[simp] theorem State.withFetchWord_pending (s : State) (nbits w : Nat) : (s.withFetchWord nbits w).pending = s.pending := rfl
@[simp] theorem State.withFetchWord_responses (s : State) (nbits w : Nat) : (s.withFetchWord nbits w).responses = s.responses := rfl
@[simp] theorem State.withFetchWord_hostTurns (s : State) (nbits w : Nat) : (s.withFetchWord nbits w).hostTurns = 0 := rfl
@[simp] theorem State.withFetchWord_draws (s : State) (nbits w : Nat) : (s.withFetchWord nbits w).draws = s.draws := rfl
@[simp] theorem State.withFetchWord_epoch (s : State) (nbits w : Nat) : (s.withFetchWord nbits w).epoch = s.epoch := rfl
@[simp] theorem State.withFetchWord_disturbed (s : State) (nbits w : Nat) : (s.withFetchWord nbits w).disturbed = false := rfl

/-! ### applyReset -/

@[simp] theorem State.applyReset_params (s : State) : s.applyReset.params = s.params := rfl
@[simp] theorem State.applyReset_cmdl (s : State) : s.applyReset.cmdl = State.reset.cmdl := rfl
@[simp] theorem State.applyReset_busy (s : State) : s.applyReset.busy = State.reset.busy := rfl
@[simp] theorem State.applyReset_done (s : State) : s.applyReset.done = State.reset.done := rfl
@[simp] theorem State.applyReset_err (s : State) : s.applyReset.err = State.reset.err := rfl
@[simp] theorem State.applyReset_ovr (s : State) : s.applyReset.ovr = State.reset.ovr := rfl
@[simp] theorem State.applyReset_errcode (s : State) : s.applyReset.errcode = State.reset.errcode := rfl
@[simp] theorem State.applyReset_ie (s : State) : s.applyReset.ie = State.reset.ie := rfl
@[simp] theorem State.applyReset_src (s : State) : s.applyReset.src = State.reset.src := rfl
@[simp] theorem State.applyReset_dst (s : State) : s.applyReset.dst = State.reset.dst := rfl
@[simp] theorem State.applyReset_len (s : State) : s.applyReset.len = State.reset.len := rfl
@[simp] theorem State.applyReset_key (s : State) : s.applyReset.key = State.reset.key := rfl
@[simp] theorem State.applyReset_nonce (s : State) : s.applyReset.nonce = State.reset.nonce := rfl
@[simp] theorem State.applyReset_block (s : State) : s.applyReset.block = State.reset.block := rfl
@[simp] theorem State.applyReset_digest (s : State) : s.applyReset.digest = State.reset.digest := rfl
@[simp] theorem State.applyReset_slotS (s : State) : s.applyReset.slotS = State.reset.slotS := rfl
@[simp] theorem State.applyReset_slotH (s : State) : s.applyReset.slotH = State.reset.slotH := rfl
@[simp] theorem State.applyReset_slotIV (s : State) : s.applyReset.slotIV = State.reset.slotIV := rfl
@[simp] theorem State.applyReset_mem (s : State) : s.applyReset.mem = State.reset.mem := rfl
@[simp] theorem State.applyReset_faults (s : State) : s.applyReset.faults = s.faults := rfl
@[simp] theorem State.applyReset_pending (s : State) : s.applyReset.pending = s.pending := rfl
@[simp] theorem State.applyReset_responses (s : State) : s.applyReset.responses = s.responses := rfl
@[simp] theorem State.applyReset_hostTurns (s : State) : s.applyReset.hostTurns = State.reset.hostTurns := rfl
@[simp] theorem State.applyReset_draws (s : State) : s.applyReset.draws = s.draws := rfl
@[simp] theorem State.applyReset_epoch (s : State) : s.applyReset.epoch = s.epoch + 1 := rfl
@[simp] theorem State.applyReset_disturbed (s : State) : s.applyReset.disturbed = State.reset.disturbed := rfl

end Sys2Proof.Machine
end

