-- ==== Sys2Proof/Laws/Memory.lean ====
section
/-! SUPPORT. DMEM: what a write leaves to be read, and that every memory operation keeps the canonical form. -/

namespace Sys2Proof.Machine

@[simp] theorem Memory.load?_nil (x : Nat) : Memory.load? [] x = none := rfl

theorem Memory.load?_cons (c : Host.Cell) (m : Memory) (x : Nat) :
    Memory.load? (c :: m) x = if c.1 = x then some c.2 else Memory.load? m x := rfl

/-- A read after a one-byte write: the byte at its address, everything else as it was. -/
theorem Memory.load?_store (m : Memory) (a x : Nat) (b : Byte) :
    Memory.load? (Memory.store m a b) x = if x = a then some b else Memory.load? m x := by
  induction m with
  | nil => simp [Memory.store, Memory.load?_cons, eq_comm]
  | cons c rest ih =>
    unfold Memory.store
    split
    · simp [Memory.load?_cons, eq_comm]
    · split
      · next h => subst h; simp only [Memory.load?_cons]; split <;> simp_all [eq_comm]
      · simp only [Memory.load?_cons, ih]; split <;> simp_all [eq_comm]

/-- A read after the write of a byte string. -/
theorem Memory.load?_storeBytes (m : Memory) (a x : Nat) (bytes : List Byte) :
    Memory.load? (Memory.storeBytes m a bytes) x =
      if a ≤ x ∧ x < a + bytes.length then bytes[x - a]? else Memory.load? m x := by
  induction bytes generalizing m a with
  | nil => simp [Memory.storeBytes]
  | cons b bs ih =>
    rw [Memory.storeBytes, ih, Memory.load?_store, List.length_cons]
    rcases Nat.lt_trichotomy x a with h | h | h
    · simp [show ¬ a ≤ x by omega, show ¬ a + 1 ≤ x by omega, show x ≠ a by omega]
    · subst h; simp
    · obtain ⟨d, rfl⟩ : ∃ d, x = a + 1 + d := ⟨x - (a + 1), by omega⟩
      have h1 : a + 1 + d - a = d + 1 := by omega
      have h2 : a + 1 + d - (a + 1) = d := by omega
      simp only [h1, h2, List.getElem?_cons_succ, show a + 1 ≤ a + 1 + d from by omega,
        show a ≤ a + 1 + d from by omega, show a + 1 + d ≠ a from by omega, true_and, if_false]
      simp only [show (a + 1 + d < a + 1 + bs.length) ↔ (a + 1 + d < a + (bs.length + 1)) from by omega]

theorem Memory.mem_store {m : Memory} {a : Nat} {b : Byte} {c : Host.Cell} (h : c ∈ Memory.store m a b) :
    c = (a, b) ∨ c ∈ m := by
  induction m with
  | nil => simpa [Memory.store] using h
  | cons d rest ih =>
    unfold Memory.store at h
    split at h
    · simpa using h
    · split at h
      · rcases List.mem_cons.mp h with h | h
        · exact .inl h
        · exact .inr (List.mem_cons_of_mem _ h)
      · rcases List.mem_cons.mp h with h | h
        · exact .inr (h ▸ List.mem_cons_self)
        · exact (ih h).imp_right (List.mem_cons_of_mem _)

/-- A one-byte write keeps the canonical form. -/
theorem Memory.wf_store {m : Memory} (a : Nat) (b : Byte) (h : Memory.wf m = true) :
    Memory.wf (Memory.store m a b) = true := by
  unfold Memory.wf at *
  simp only [decide_eq_true_eq] at *
  induction m with
  | nil => simp [Memory.store]
  | cons c rest ih =>
    obtain ⟨hc, hr⟩ := List.pairwise_cons.mp h
    unfold Memory.store
    split
    · next hac =>
      refine List.pairwise_cons.mpr ⟨fun d hd => ?_, h⟩
      rcases List.mem_cons.mp hd with rfl | hd
      · exact hac
      · exact Nat.lt_trans hac (hc d hd)
    · split
      · next hac => exact List.pairwise_cons.mpr ⟨fun d hd => hac ▸ hc d hd, hr⟩
      · refine List.pairwise_cons.mpr ⟨fun d hd => ?_, ih hr⟩
        rcases Memory.mem_store hd with rfl | hd
        · show c.1 < a
          omega
        · exact hc d hd

/-- The write of a byte string keeps the canonical form. -/
theorem Memory.wf_storeBytes {m : Memory} (a : Nat) (bytes : List Byte) (h : Memory.wf m = true) :
    Memory.wf (Memory.storeBytes m a bytes) = true := by
  induction bytes generalizing m a with
  | nil => exact h
  | cons b bs ih => exact ih (a + 1) (Memory.wf_store a b h)

/-- The write of a byte string that ends within `size` keeps every address below `size`. -/
theorem Memory.inRange_storeBytes {m : Memory} {a size : Nat} {bytes : List Byte} (h : ∀ c ∈ m, c.1 < size)
    (ha : a + bytes.length ≤ size) : ∀ c ∈ Memory.storeBytes m a bytes, c.1 < size := by
  induction bytes generalizing m a with
  | nil => exact h
  | cons b bs ih =>
    rw [List.length_cons] at ha
    refine ih (m := Memory.store m a b) (fun c hc => ?_) (by omega)
    rcases Memory.mem_store hc with rfl | hc
    · show a < size
      omega
    · exact h c hc

/-- The memory after reset has the canonical form. -/
theorem reset_mem_wf : Memory.wf State.reset.mem = true := rfl

/-! ### A disturbed memory -/

theorem Memory.load?_disturb (draw : Nat) (m : Memory) (x : Nat) :
    Memory.load? (Memory.disturb draw m) x = (Memory.load? m x).map fun _ => Config.disturbedByte draw x := by
  induction m with
  | nil => rfl
  | cons c rest ih =>
    rw [Memory.disturb, List.map_cons, Memory.load?_cons, Memory.load?_cons]
    split
    · next h => exact (show c.1 = x from h) ▸ rfl
    · exact ih

/-- A disturbance keeps the canonical form. -/
theorem Memory.wf_disturb (draw : Nat) {m : Memory} (h : Memory.wf m = true) :
    Memory.wf (Memory.disturb draw m) = true := by
  unfold Memory.wf Memory.disturb at *
  simpa [List.pairwise_map] using h

/-- A disturbance keeps every address below `size`. -/
theorem Memory.inRange_disturb (draw : Nat) {m : Memory} {size : Nat} (h : ∀ c ∈ m, c.1 < size) :
    ∀ c ∈ Memory.disturb draw m, c.1 < size := by
  intro c hc
  obtain ⟨d, hd, rfl⟩ := List.mem_map.mp hc
  exact h d hd

/-! ### Reads through the state -/

@[simp] theorem State.readBytes_length (s : State) (a k : Nat) : (s.readBytes a k).length = k := by
  simp [State.readBytes]

@[simp] theorem State.readBytes_getElem (s : State) (a k i : Nat) (h : i < (s.readBytes a k).length) :
    (s.readBytes a k)[i] = s.readByte (a + i) := by
  simp [State.readBytes]

theorem State.readByte_of_load? {s : State} {a : Nat} {b : Byte} (h : Memory.load? s.mem a = some b) :
    s.readByte a = b := by
  simp [State.readByte, h]

/-- A read depends on the memory and its epoch alone. -/
theorem State.readByte_congr {s t : State} {a : Nat} (hm : Memory.load? t.mem a = Memory.load? s.mem a)
    (hr : t.epoch = s.epoch) : t.readByte a = s.readByte a := by
  simp [State.readByte, hm, hr]

/-! ### The fault record -/

theorem mem_addFault (f g : Fault) (l : List Fault) : g ∈ addFault f l ↔ g = f ∨ g ∈ l := by
  unfold addFault
  split
  · next h => exact ⟨.inr, fun h' => h'.elim (fun e => e ▸ h) id⟩
  · simp [or_comm]

/-- What the record holds after a read: the fault where some byte read is not written. -/
theorem State.mem_noteReads (s : State) (a k : Nat) (f : Fault) :
    f ∈ (s.noteReads a k).faults ↔
      (f = .unwrittenRead ∧ ∃ i < k, Memory.load? s.mem (a + i) = none) ∨ f ∈ s.faults := by
  have hw : s.allWritten a k = false ↔ ∃ i < k, Memory.load? s.mem (a + i) = none := by
    simp [State.allWritten]
  rw [State.noteReads_faults]
  cases h : s.allWritten a k with
  | true => simp [← hw, h]
  | false => simp [← hw, h, mem_addFault]

/-- A recorded fault stays recorded. -/
theorem mem_addFault_of_mem {f g : Fault} {l : List Fault} (h : g ∈ l) : g ∈ addFault f l :=
  (mem_addFault f g l).mpr (.inr h)

end Sys2Proof.Machine
end

