-- ==== Sys2Proof/Laws/Commands.lean ====
section
/-! SUPPORT. What a command can do, said once: the cases of each shared command body, and the shape of every state an
engine step leads to. -/

namespace Sys2Proof.Machine

theorem State.exceedsMem_eq_true (s : State) (a : Word) :
    s.exceedsMem a = true ↔ s.params.memSize < a.toNat + s.len.toNat := by simp [State.exceedsMem]

theorem State.exceedsMem_eq_false (s : State) (a : Word) :
    s.exceedsMem a = false ↔ a.toNat + s.len.toNat ≤ s.params.memSize := by simp [State.exceedsMem]

@[simp] theorem State.inputBytes_length (s : State) : s.inputBytes.length = s.len.toNat := by simp [State.inputBytes]

/-- A HASH is rejected with RANGE, or writes the digest. -/
theorem hashCommand_cases (width : DigestWidth) (s : State) :
    (s.len ≠ 0 ∧ s.exceedsMem s.src = true ∧ hashCommand width s = .next (s.reject .range)) ∨
    ((s.len = 0 ∨ s.exceedsMem s.src = false) ∧
      hashCommand width s = .next (s.noteInput.setDigest (pearson s.params width s.inputBytes)).complete) := by
  unfold hashCommand
  by_cases h : s.len ≠ 0 ∧ s.exceedsMem s.src = true
  · exact .inl ⟨h.1, h.2, if_pos h⟩
  · refine .inr ⟨?_, if_neg h⟩
    by_cases hl : s.len = 0#32
    · exact .inl hl
    · exact .inr (by simpa [hl] using h)

/-- An ECB command is rejected with NOKEY, or writes the block. -/
theorem ecbCommand_cases {n T : Nat} (slot : Slot n T) (dir : Direction) (s : State) :
    (slot.valid = false ∧ ecbCommand slot dir s = .next (s.reject .noKey)) ∨
    (slot.valid = true ∧ ecbCommand slot dir s = .next (s.setBlock
      (blockOf (cipherBlock dir slot.rk (halfWord n s.blockBytes (n / 8)) (halfWord n s.blockBytes 0)))).complete) := by
  unfold ecbCommand
  cases h : slot.valid <;> simp

/-- A CTR command is rejected with NOKEY, RANGE or OVERLAP, in this order, has nothing to do, or runs its body. -/
theorem ctrCommand_cases {T : Nat} (slot : Slot 64 T) (s : State) :
    (slot.valid = false ∧ ctrCommand slot s = .next (s.reject .noKey)) ∨
    (slot.valid = true ∧ s.len = 0 ∧ ctrCommand slot s = .next s.complete) ∨
    (slot.valid = true ∧ s.len ≠ 0 ∧ (s.exceedsMem s.src = true ∨ s.exceedsMem s.dst = true) ∧
      ctrCommand slot s = .next (s.reject .range)) ∨
    (slot.valid = true ∧ s.len ≠ 0 ∧ s.exceedsMem s.src = false ∧ s.exceedsMem s.dst = false ∧
      s.buffersOverlap = true ∧ ctrCommand slot s = .next (s.reject .overlap)) ∨
    (slot.valid = true ∧ s.len ≠ 0 ∧ s.exceedsMem s.src = false ∧ s.exceedsMem s.dst = false ∧
      s.buffersOverlap = false ∧ ctrCommand slot s = .next (s.ctrBody slot.rk).complete) := by
  unfold ctrCommand
  cases slot.valid <;> by_cases hl : s.len = 0#32 <;> cases s.exceedsMem s.src <;> cases s.exceedsMem s.dst <;>
    cases s.buffersOverlap <;> simp [hl]

/-- The states an engine step on a legal command leads to. -/
inductive ExecShape (s : State) : State → Prop where
  | rejected (e : ErrorCode) (he : e ≠ .illegal) : ExecShape s (s.reject e)
  | nothing : ExecShape s s.complete
  | digest (d : List Byte) : ExecShape s (s.noteInput.setDigest d).complete
  | slotS (x : Slot 64 34) (hx : x.valid = false → x = Slot.empty 64 34) : ExecShape s (s.setSlotS x).complete
  | slotH (x : Slot 64 32) (hx : x.valid = false → x = Slot.empty 64 32) : ExecShape s (s.setSlotH x).complete
  | slotIV (x : Slot 48 28) (hx : x.valid = false → x = Slot.empty 48 28) : ExecShape s (s.setSlotIV x).complete
  | block (b : List Byte) : ExecShape s (s.setBlock b).complete
  | ctr {T : Nat} (rk : Vector (BitVec 64) T) (hsrc : s.exceedsMem s.src = false) (hdst : s.exceedsMem s.dst = false) :
      ExecShape s (s.ctrBody rk).complete

theorem hashCommand_shape (width : DigestWidth) (s : State) : ∃ t, hashCommand width s = .next t ∧ ExecShape s t := by
  rcases hashCommand_cases width s with ⟨-, -, h⟩ | ⟨-, h⟩
  · exact ⟨_, h, .rejected .range (by decide)⟩
  · exact ⟨_, h, .digest _⟩

theorem ecbCommand_shape {n T : Nat} (slot : Slot n T) (dir : Direction) (s : State) :
    ∃ t, ecbCommand slot dir s = .next t ∧ ExecShape s t := by
  rcases ecbCommand_cases slot dir s with ⟨-, h⟩ | ⟨-, h⟩
  · exact ⟨_, h, .rejected .noKey (by decide)⟩
  · exact ⟨_, h, .block _⟩

theorem ctrCommand_shape {T : Nat} (slot : Slot 64 T) (s : State) :
    ∃ t, ctrCommand slot s = .next t ∧ ExecShape s t := by
  rcases ctrCommand_cases slot s with ⟨-, h⟩ | ⟨-, -, h⟩ | ⟨-, -, -, h⟩ | ⟨-, -, -, -, -, h⟩ | ⟨-, -, h1, h2, -, h⟩
  · exact ⟨_, h, .rejected .noKey (by decide)⟩
  · exact ⟨_, h, .nothing⟩
  · exact ⟨_, h, .rejected .range (by decide)⟩
  · exact ⟨_, h, .rejected .overlap (by decide)⟩
  · exact ⟨_, h, .ctr _ h1 h2⟩

/-- Every command answers a next state, of one of the shapes above. -/
theorem exec_shape (i : Instr) (s : State) : ∃ t, exec i s = .next t ∧ ExecShape s t := by
  cases i with
  | nop => exact ⟨_, rfl, .nothing⟩
  | hash16 => exact hashCommand_shape .w16 s
  | hash32 => exact hashCommand_shape .w32 s
  | hash64 => exact hashCommand_shape .w64 s
  | hash128 => exact hashCommand_shape .w128 s
  | hash256 => exact hashCommand_shape .w256 s
  | kexpS => exact ⟨_, rfl, .slotS _ (fun h => by cases h)⟩
  | kexpH => exact ⟨_, rfl, .slotH _ (fun h => by cases h)⟩
  | kexpIV => exact ⟨_, rfl, .slotIV _ (fun h => by cases h)⟩
  | kclrS => exact ⟨_, rfl, .slotS _ (fun _ => rfl)⟩
  | kclrH => exact ⟨_, rfl, .slotH _ (fun _ => rfl)⟩
  | kclrIV => exact ⟨_, rfl, .slotIV _ (fun _ => rfl)⟩
  | ecbEncS => exact ecbCommand_shape s.slotS .enc s
  | ecbEncH => exact ecbCommand_shape s.slotH .enc s
  | ecbEncIV => exact ecbCommand_shape s.slotIV .enc s
  | ecbDecS => exact ecbCommand_shape s.slotS .dec s
  | ecbDecH => exact ecbCommand_shape s.slotH .dec s
  | ecbDecIV => exact ecbCommand_shape s.slotIV .dec s
  | ctrS => exact ctrCommand_shape s.slotS s
  | ctrH => exact ctrCommand_shape s.slotH s

/-- The latch is rejected as an illegal word, or its command runs. -/
theorem runLatch_cases (s : State) :
    ((∃ e, decode s.cmdl = .error e) ∧ runLatch s = .next (s.reject .illegal)) ∨
    (∃ i, decode s.cmdl = .ok i ∧ runLatch s = exec i s) := by
  unfold runLatch
  cases decode s.cmdl with
  | error e => exact .inl ⟨⟨e, rfl⟩, rfl⟩
  | ok i => exact .inr ⟨i, rfl, rfl⟩

/-- Every engine step answers a next state: what the latch gives, or, the command disturbed, what it gives between two
disturbances of DMEM. -/
theorem engineStep_cases (s : State) :
    (s.disturbed = false ∧ engineStep s = runLatch s) ∨
    (s.disturbed = true ∧ ∃ t, runLatch s.disturb = .next t ∧ engineStep s = .next t.disturb.settle) := by
  unfold engineStep
  cases h : s.disturbed with
  | false => exact .inl ⟨rfl, rfl⟩
  | true =>
    obtain ⟨t, ht⟩ : ∃ t, runLatch s.disturb = .next t := by
      rcases runLatch_cases s.disturb with ⟨-, e⟩ | ⟨i, -, e⟩
      · exact ⟨_, e⟩
      · obtain ⟨t, ht, -⟩ := exec_shape i s.disturb
        exact ⟨t, e.trans ht⟩
    exact .inr ⟨rfl, t, ht, by simp [ht, settleResult]⟩

/-- The fields of the CTR body's result. -/
@[simp] theorem State.ctrBody_mem {T : Nat} (s : State) (rk : Vector (BitVec 64) T) :
    (s.ctrBody rk).mem = Memory.storeBytes s.mem s.dst.toNat
      (xorBytes s.inputBytes (keystream rk s.nonceHi s.nonceLo s.len.toNat)) := rfl

theorem State.ctrBody_nonce {T : Nat} (s : State) (rk : Vector (BitVec 64) T) :
    (s.ctrBody rk).nonce =
      (s.setNonceLo (s.nonceLo + BitVec.ofNat 64 (blocksUsed s.len.toNat))).nonce := rfl

theorem State.ctrBody_eq {T : Nat} (s : State) (rk : Vector (BitVec 64) T) :
    s.ctrBody rk = { s with mem := (s.ctrBody rk).mem, nonce := (s.ctrBody rk).nonce, faults := s.noteInput.faults } :=
  rfl

@[simp] theorem State.ctrBody_params {T : Nat} (s : State) (rk : Vector (BitVec 64) T) :
    (s.ctrBody rk).params = s.params := rfl

/-! ### Keystream -/

@[simp] theorem blockOf_length {n : Nat} (p : BitVec n × BitVec n) : (blockOf p).length = n / 8 + n / 8 := by
  simp [blockOf]

@[simp] theorem keystreamBlock_length {T : Nat} (rk : Vector (BitVec 64) T) (hi lo : BitVec 64) (j : Nat) :
    (keystreamBlock rk hi lo j).length = 16 := by simp [keystreamBlock]

@[simp] theorem keystream_length {T : Nat} (rk : Vector (BitVec 64) T) (hi lo : BitVec 64) (len : Nat) :
    (keystream rk hi lo len).length = len := by
  unfold keystream
  rw [List.length_take, List.length_flatMap]
  have : ((List.range (blocksUsed len)).map fun j => (keystreamBlock rk hi lo j).length) =
      List.replicate (blocksUsed len) 16 := by
    rw [List.eq_replicate_iff]
    simp
  rw [this]
  simp [blocksUsed]
  omega

/-- Byte `i` of the keystream is byte `i mod 16` of keystream block `i div 16` (`44_ctr.md` R221). -/
theorem keystream_getElem? {T : Nat} (rk : Vector (BitVec 64) T) (hi lo : BitVec 64) (len i : Nat) (h : i < len) :
    (keystream rk hi lo len)[i]? = (keystreamBlock rk hi lo (i / 16))[i % 16]? := by
  unfold keystream
  rw [List.getElem?_take, if_pos h, flatMap_getElem?_of_length _ 16 (by omega) (by simp)]
  have hb : i / 16 < (List.range (blocksUsed len)).length := by simp [blocksUsed]; omega
  rw [List.getElem?_eq_getElem hb]
  simp

@[simp] theorem xorBytes_length (a b : List Byte) : (xorBytes a b).length = min a.length b.length := by
  simp [xorBytes]

/-! ### Rotates and the key schedule -/

/-- `ROR_n` of `00_scope.md` R11 is the library's right rotation. -/
theorem ror_eq_rotateRight {n : Nat} (v : BitVec n) (r : Nat) (h : r < n) : ror v r = v.rotateRight r := by
  rw [BitVec.rotateRight_def, Nat.mod_eq_of_lt h, ror]

/-- `ROL_n` of `00_scope.md` R11 is the library's left rotation. -/
theorem rol_eq_rotateLeft {n : Nat} (v : BitVec n) (r : Nat) (h : r < n) : rol v r = v.rotateLeft r := by
  rw [BitVec.rotateLeft_def, Nat.mod_eq_of_lt h, rol]

end Sys2Proof.Machine
end

