-- ==== Sys2Proof/Laws/HostPort.lean ====
section
/-! SUPPORT. What a host move and a step can do, said once. -/

namespace Sys2Proof.Machine

/-- What no register access changes, and the two ways the error flags and the disturbance can go. -/
structure RegisterKeeps (s t : State) : Prop where
  params : t.params = s.params
  digest : t.digest = s.digest
  slotS : t.slotS = s.slotS
  slotH : t.slotH = s.slotH
  slotIV : t.slotIV = s.slotIV
  mem : t.mem = s.mem
  pending : t.pending = s.pending
  epoch : t.epoch = s.epoch
  faults : ∀ f ∈ s.faults, f ∈ t.faults
  flags : (t.err = s.err ∧ t.errcode = s.errcode) ∨ (t.err = false ∧ t.errcode = 0)
  disturbance : (t.disturbed = s.disturbed ∧ t.busy = s.busy) ∨ t.disturbed = false

theorem RegisterKeeps.refl (s : State) : RegisterKeeps s s :=
  ⟨rfl, rfl, rfl, rfl, rfl, rfl, rfl, rfl, fun _ h => h, .inl ⟨rfl, rfl⟩, .inl ⟨rfl, rfl⟩⟩

theorem RegisterKeeps.respond {s t : State} (h : RegisterKeeps s t) (r : Response) : RegisterKeeps s (t.respond r) :=
  ⟨h.params, h.digest, h.slotS, h.slotH, h.slotIV, h.mem, h.pending, h.epoch, h.faults, h.flags, h.disturbance⟩

theorem State.readResult_keeps (s : State) (v : Word) : RegisterKeeps s (s.readResult v) := by
  unfold State.readResult
  split <;> exact ⟨rfl, rfl, rfl, rfl, rfl, rfl, rfl, rfl, fun _ h => h, .inl ⟨rfl, rfl⟩, .inl ⟨rfl, rfl⟩⟩

theorem State.readReg_keeps (s : State) (r : Option Reg) : RegisterKeeps s (s.readReg r) := by
  cases r with
  | none => exact (RegisterKeeps.refl s).respond _
  | some r =>
    cases r with
    | nonce r => exact s.readResult_keeps _
    | block r => exact s.readResult_keeps _
    | digest r => exact s.readResult_keeps _
    | _ => exact (RegisterKeeps.refl s).respond _

theorem State.guarded_keeps {s s' : State} (h : RegisterKeeps s s') : RegisterKeeps s (s.guarded s') := by
  unfold State.guarded
  split
  · exact ⟨rfl, rfl, rfl, rfl, rfl, rfl, rfl, rfl, fun _ h => h, .inl ⟨rfl, rfl⟩, .inl ⟨rfl, rfl⟩⟩
  · exact h

theorem State.acknowledge_keeps (s : State) (v : Word) : RegisterKeeps s (s.acknowledge v) := by
  refine ⟨rfl, rfl, rfl, rfl, rfl, rfl, rfl, rfl, fun _ h => h, ?_, .inl ⟨rfl, rfl⟩⟩
  simp only [State.acknowledge_err, State.acknowledge_errcode]
  cases v.getLsbD 2 <;> simp

theorem State.issue_keeps (s : State) (v : Word) : RegisterKeeps s (s.issue v) :=
  ⟨rfl, rfl, rfl, rfl, rfl, rfl, rfl, rfl, fun _ h => h, .inl ⟨rfl, rfl⟩, .inr rfl⟩

theorem State.writeReg_keeps (s : State) (v : Word) (r : Option Reg) : RegisterKeeps s (s.writeReg v r) := by
  have operand : ∀ (src dst len : Word) (key : Vector Word 8) (nonce block : Vector Word 4) (ie : Bool), RegisterKeeps s
      { s with src := src, dst := dst, len := len, key := key, nonce := nonce, block := block, ie := ie } :=
    fun _ _ _ _ _ _ _ =>
      ⟨rfl, rfl, rfl, rfl, rfl, rfl, rfl, rfl, fun _ h => h, .inl ⟨rfl, rfl⟩, .inl ⟨rfl, rfl⟩⟩
  cases r with
  | none => exact RegisterKeeps.refl s
  | some r =>
    cases r with
    | status => exact s.acknowledge_keeps v
    | digest r => exact RegisterKeeps.refl s
    | cmd => exact State.guarded_keeps (s.issue_keeps v)
    | ctrl => exact operand _ _ _ _ _ _ _
    | _ => exact State.guarded_keeps (operand _ _ _ _ _ _ _)

/-- A register access changes neither parameters, slots, digest, DMEM nor the events to come, clears no fault, and
leaves the error flags or clears them together. -/
theorem registerAccess_keeps (offset : Nat) (a : Access) (s : State) : RegisterKeeps s (registerAccess offset a s) := by
  unfold registerAccess
  split
  · cases a with
    | read w => exact s.readReg_keeps _
    | write w v => exact (s.writeReg_keeps v _).respond _
  · exact ⟨rfl, rfl, rfl, rfl, rfl, rfl, rfl, rfl, fun _ h => mem_addFault_of_mem h, .inl ⟨rfl, rfl⟩, .inl ⟨rfl, rfl⟩⟩

/-- A host DMEM access while BUSY: the fault on record, an answer, a draw, and the disturbance a write leaves. -/
theorem busyDmemAccess_eq (address : Nat) (a : Access) (s : State) :
    busyDmemAccess address a s = { s with
      faults := (s.recordBusyAccess address a).faults
      responses := s.responses ++ [busyDmemResponse s.draws a]
      draws := s.draws + 1
      disturbed := match a with
        | .read _ => s.disturbed
        | .write _ _ => true } := by
  cases a <;> simp [busyDmemAccess, State.countDraw, State.respond]

/-- An access beyond MEM_SIZE is recorded as that. -/
theorem State.noteAccess_beyond {s : State} {address : Nat} {a : Access} (h : s.beyondMem address a = true) :
    s.noteAccess address a = s.record .dmemBusError := by
  simp [State.noteAccess, State.record, h]

/-- A read within DMEM is recorded where a byte of it is not written. -/
theorem State.noteAccess_read {s : State} {address : Nat} {w : AccessWidth} (h : s.beyondMem address (.read w) = false) :
    s.noteAccess address (.read w) = s.noteReads address w.bytes := by
  simp [State.noteAccess, State.noteReads, h]

/-- A write within DMEM is no event. -/
theorem State.noteAccess_write {s : State} {address : Nat} {w : AccessWidth} {v : Word}
    (h : s.beyondMem address (.write w v) = false) : s.noteAccess address (.write w v) = s := by
  simp [State.noteAccess, h]

/-- What the record holds after a host DMEM access has been noted. -/
theorem mem_noteAccess (s : State) (address : Nat) (a : Access) (f : Fault) :
    f ∈ (s.noteAccess address a).faults ↔
      (f = .dmemBusError ∧ s.params.memSize < address + a.width.bytes) ∨
      (f = .unwrittenRead ∧ address + a.width.bytes ≤ s.params.memSize ∧
        ∃ w, a = .read w ∧ ∃ i < w.bytes, Memory.load? s.mem (address + i) = none) ∨ f ∈ s.faults := by
  by_cases h : s.params.memSize < address + a.width.bytes
  · rw [State.noteAccess_beyond (by simpa [State.beyondMem] using h)]
    simp [State.record, mem_addFault, h, Nat.not_le_of_lt h]
  · have hb : s.beyondMem address a = false := by simpa [State.beyondMem] using h
    cases a with
    | read w =>
      rw [State.noteAccess_read hb, State.mem_noteReads]
      simp [h, Nat.le_of_not_lt h]
    | write w v => rw [State.noteAccess_write hb]; simp [h]

/-- What the record holds after a host DMEM access while BUSY. -/
theorem mem_recordBusyAccess (s : State) (address : Nat) (a : Access) (f : Fault) :
    f ∈ (s.recordBusyAccess address a).faults ↔
      f = .dmemAccessWhileBusy ∨ f ∈ (s.noteAccess address a).faults := mem_addFault _ _ _

/-- A DMEM access of the host: one while BUSY; a bus error; a read; a write within DMEM. -/
theorem dmemAccess_cases (address : Nat) (a : Access) (s : State) :
    (s.busy = true ∧ dmemAccess address a s = .next (busyDmemAccess address a s)) ∨
    (s.busy = false ∧ s.params.memSize < address + a.width.bytes ∧
      dmemAccess address a s = .next ((s.record .dmemBusError).respond (busErrorResponse a))) ∨
    (s.busy = false ∧ ∃ w, a = .read w ∧ address + w.bytes ≤ s.params.memSize ∧ dmemAccess address a s =
      .next ((s.noteReads address w.bytes).respond (.data (leValue 32 (s.readBytes address w.bytes))))) ∨
    (s.busy = false ∧ ∃ w v, a = .write w v ∧ address + w.bytes ≤ s.params.memSize ∧
      dmemAccess address a s = .next ((s.writeBytes address ((leBytes v).take w.bytes)).respond .accepted)) := by
  unfold dmemAccess
  cases hb : s.busy with
  | true => exact .inl ⟨rfl, rfl⟩
  | false =>
    by_cases hr : s.params.memSize < address + a.width.bytes
    · have hm : s.beyondMem address a = true := by simpa [State.beyondMem] using hr
      exact .inr (.inl ⟨rfl, hr, by simp [hm, State.noteAccess_beyond hm]⟩)
    · have hm : s.beyondMem address a = false := by simpa [State.beyondMem] using hr
      cases a with
      | read w => exact .inr (.inr (.inl ⟨rfl, w, rfl, Nat.le_of_not_lt hr, by simp [hm, State.noteAccess_read hm]⟩))
      | write w v => exact .inr (.inr (.inr ⟨rfl, w, v, rfl, Nat.le_of_not_lt hr, by simp [hm]⟩))

@[simp] theorem writtenBytes_length (v : Word) (w : AccessWidth) : ((leBytes v).take w.bytes).length = w.bytes := by
  cases w <;> simp [AccessWidth.bytes]

/-- One poll of `wait`: the answer is the STATUS word, and the poll stays in front while BUSY. -/
theorem poll_eq (s : State) :
    poll s = { s with
      responses := s.responses ++ [.data s.statusWord]
      pending := if s.statusWord.getLsbD 0 then .awaitIdle :: s.pending else s.pending } := by
  unfold poll State.readReg State.respond
  cases s.statusWord.getLsbD 0 <;> simp

/-- A step is the engine's, the host's, or nobody's. -/
theorem step_cases (s : State) :
    (s.mover = .engine ∧ step s = engineStep s) ∨
    (∃ e rest, s.mover = .host e rest ∧ step s = hostMove e (s.takeTurn rest)) ∨
    (s.mover = .nobody ∧ step s = .next s) := by
  unfold step
  cases h : s.mover with
  | engine => exact .inl ⟨rfl, rfl⟩
  | host e rest => exact .inr (.inl ⟨e, rest, rfl, rfl⟩)
  | nobody => exact .inr (.inr ⟨rfl, rfl⟩)

/-- Whose move it is. -/
theorem State.mover_cases (s : State) :
    (s.mover = .engine ∧ s.busy = true ∧ (s.hostTurns = 0 ∨ s.pending = [])) ∨
    (∃ e rest, s.mover = .host e rest ∧ s.pending = e :: rest ∧ (s.busy = true → s.hostTurns ≠ 0)) ∨
    (s.mover = .nobody ∧ s.busy = false ∧ s.pending = []) := by
  unfold State.mover
  cases hp : s.pending with
  | nil => cases hb : s.busy <;> simp
  | cons e rest => cases hb : s.busy <;> by_cases ht : s.hostTurns = 0 <;> simp [ht]

/-- It is the engine's turn. -/
theorem State.mover_engine {s : State} (hb : s.busy = true) (ht : s.hostTurns = 0 ∨ s.pending = []) :
    s.mover = .engine := by
  unfold State.mover
  cases hp : s.pending with
  | nil => simp [hb]
  | cons e rest => simp_all

/-- On the engine's turn the step is the engine's. -/
theorem step_engine {s : State} (hb : s.busy = true) (ht : s.hostTurns = 0 ∨ s.pending = []) :
    step s = engineStep s := by
  simp [step, State.mover_engine hb ht]

/-- On the host's turn the step is its next event. -/
theorem step_host {s : State} {e : HostEvent} {rest : List HostEvent} (hp : s.pending = e :: rest)
    (ht : s.busy = true → s.hostTurns ≠ 0) : step s = hostMove e (s.takeTurn rest) := by
  have : s.mover = .host e rest := by
    unfold State.mover
    cases hb : s.busy <;> simp_all
  simp [step, this]

end Sys2Proof.Machine
end

