-- ==== Sys2Proof/Laws/PerInstr.lean ====
section
/-! SUPPORT. Statements made for every instruction as syntax, one lemma per constructor: its fields are legal, and
decoding its word gives it back. -/

namespace Sys2Proof.Laws

/-- A command is well-formed and its word decodes to it (`30_encoding.md` R100 to R105). -/
def RoundTrip.Statement (i : Instr) : Prop := i.wf = true ∧ decode (encode i) = .ok i

theorem RoundTrip.nop : RoundTrip.Statement .nop := ⟨rfl, rfl⟩
theorem RoundTrip.hash16 : RoundTrip.Statement .hash16 := ⟨rfl, rfl⟩
theorem RoundTrip.hash32 : RoundTrip.Statement .hash32 := ⟨rfl, rfl⟩
theorem RoundTrip.hash64 : RoundTrip.Statement .hash64 := ⟨rfl, rfl⟩
theorem RoundTrip.hash128 : RoundTrip.Statement .hash128 := ⟨rfl, rfl⟩
theorem RoundTrip.hash256 : RoundTrip.Statement .hash256 := ⟨rfl, rfl⟩
theorem RoundTrip.kexpS : RoundTrip.Statement .kexpS := ⟨rfl, rfl⟩
theorem RoundTrip.kexpH : RoundTrip.Statement .kexpH := ⟨rfl, rfl⟩
theorem RoundTrip.kexpIV : RoundTrip.Statement .kexpIV := ⟨rfl, rfl⟩
theorem RoundTrip.kclrS : RoundTrip.Statement .kclrS := ⟨rfl, rfl⟩
theorem RoundTrip.kclrH : RoundTrip.Statement .kclrH := ⟨rfl, rfl⟩
theorem RoundTrip.kclrIV : RoundTrip.Statement .kclrIV := ⟨rfl, rfl⟩
theorem RoundTrip.ecbEncS : RoundTrip.Statement .ecbEncS := ⟨rfl, rfl⟩
theorem RoundTrip.ecbEncH : RoundTrip.Statement .ecbEncH := ⟨rfl, rfl⟩
theorem RoundTrip.ecbEncIV : RoundTrip.Statement .ecbEncIV := ⟨rfl, rfl⟩
theorem RoundTrip.ecbDecS : RoundTrip.Statement .ecbDecS := ⟨rfl, rfl⟩
theorem RoundTrip.ecbDecH : RoundTrip.Statement .ecbDecH := ⟨rfl, rfl⟩
theorem RoundTrip.ecbDecIV : RoundTrip.Statement .ecbDecIV := ⟨rfl, rfl⟩
theorem RoundTrip.ctrS : RoundTrip.Statement .ctrS := ⟨rfl, rfl⟩
theorem RoundTrip.ctrH : RoundTrip.Statement .ctrH := ⟨rfl, rfl⟩

end Sys2Proof.Laws
end

