-- ==== Sys2Proof/Tests/Slice0.lean ====
section
/-! SUPPORT. The model's own tests. Every expected value is a value spec/ prints: the encodings of `30_encoding.md`
R104, the vectors of `95_test_vectors.md`, the examples of the command rules. The HASH vectors hold under the reference
configuration of `41_pearson.md` only, and the published SPECK vectors are general knowledge the spec supplies
(notes/assumptions/21.md). -/

set_option Elab.async false

namespace Sys2Proof.Tests

open Sys2Proof.Machine Sys2Proof.Spec

/-! ### The reference configuration (`41_pearson.md` R140, R143, R145, R149), `MEM_SIZE = 256` -/

def sboxRows0 : List Byte :=
  [0x63, 0x7c, 0x77, 0x7b, 0xf2, 0x6b, 0x6f, 0xc5, 0x30, 0x01, 0x67, 0x2b, 0xfe, 0xd7, 0xab, 0x76] ++
  [0xca, 0x82, 0xc9, 0x7d, 0xfa, 0x59, 0x47, 0xf0, 0xad, 0xd4, 0xa2, 0xaf, 0x9c, 0xa4, 0x72, 0xc0] ++
  [0xb7, 0xfd, 0x93, 0x26, 0x36, 0x3f, 0xf7, 0xcc, 0x34, 0xa5, 0xe5, 0xf1, 0x71, 0xd8, 0x31, 0x15] ++
  [0x04, 0xc7, 0x23, 0xc3, 0x18, 0x96, 0x05, 0x9a, 0x07, 0x12, 0x80, 0xe2, 0xeb, 0x27, 0xb2, 0x75]

def sboxRows1 : List Byte :=
  [0x09, 0x83, 0x2c, 0x1a, 0x1b, 0x6e, 0x5a, 0xa0, 0x52, 0x3b, 0xd6, 0xb3, 0x29, 0xe3, 0x2f, 0x84] ++
  [0x53, 0xd1, 0x00, 0xed, 0x20, 0xfc, 0xb1, 0x5b, 0x6a, 0xcb, 0xbe, 0x39, 0x4a, 0x4c, 0x58, 0xcf] ++
  [0xd0, 0xef, 0xaa, 0xfb, 0x43, 0x4d, 0x33, 0x85, 0x45, 0xf9, 0x02, 0x7f, 0x50, 0x3c, 0x9f, 0xa8] ++
  [0x51, 0xa3, 0x40, 0x8f, 0x92, 0x9d, 0x38, 0xf5, 0xbc, 0xb6, 0xda, 0x21, 0x10, 0xff, 0xf3, 0xd2]

def sboxRows2 : List Byte :=
  [0xcd, 0x0c, 0x13, 0xec, 0x5f, 0x97, 0x44, 0x17, 0xc4, 0xa7, 0x7e, 0x3d, 0x64, 0x5d, 0x19, 0x73] ++
  [0x60, 0x81, 0x4f, 0xdc, 0x22, 0x2a, 0x90, 0x88, 0x46, 0xee, 0xb8, 0x14, 0xde, 0x5e, 0x0b, 0xdb] ++
  [0xe0, 0x32, 0x3a, 0x0a, 0x49, 0x06, 0x24, 0x5c, 0xc2, 0xd3, 0xac, 0x62, 0x91, 0x95, 0xe4, 0x79] ++
  [0xe7, 0xc8, 0x37, 0x6d, 0x8d, 0xd5, 0x4e, 0xa9, 0x6c, 0x56, 0xf4, 0xea, 0x65, 0x7a, 0xae, 0x08]

def sboxRows3 : List Byte :=
  [0xba, 0x78, 0x25, 0x2e, 0x1c, 0xa6, 0xb4, 0xc6, 0xe8, 0xdd, 0x74, 0x1f, 0x4b, 0xbd, 0x8b, 0x8a] ++
  [0x70, 0x3e, 0xb5, 0x66, 0x48, 0x03, 0xf6, 0x0e, 0x61, 0x35, 0x57, 0xb9, 0x86, 0xc1, 0x1d, 0x9e] ++
  [0xe1, 0xf8, 0x98, 0x11, 0x69, 0xd9, 0x8e, 0x94, 0x9b, 0x1e, 0x87, 0xe9, 0xce, 0x55, 0x28, 0xdf] ++
  [0x8c, 0xa1, 0x89, 0x0d, 0xbf, 0xe6, 0x42, 0x68, 0x41, 0x99, 0x2d, 0x0f, 0xb0, 0x54, 0xbb, 0x16]

def referenceParams : Config.Params where
  memSize := 256
  sbox := ⟨(sboxRows0 ++ sboxRows1 ++ sboxRows2 ++ sboxRows3).toArray, by decide +kernel⟩
  perm2 := #v[0, 1]
  perm4 := #v[0, 1, 2, 3]
  perm8 := #v[0, 1, 2, 3, 4, 5, 6, 7]
  mask16 := #v[0, 1]
  mask32 := #v[0, 1, 2, 3]
  mask64 := #v[0, 1, 2, 3, 4, 5, 6, 7]
  maskLower := #v[0, 1, 2, 3, 4, 5, 6, 7]
  maskUpper := #v[8, 9, 10, 11, 12, 13, 14, 15]
  order128 := #v[1, 0]
  order256 := #v[3, 2, 1, 0]
  regBase := 0x40000000
  dmemBase := 0x50000000
  irqLine := 7

/-- The state after reset of a machine with the reference configuration. -/
def idle : State := { State.reset with params := referenceParams }

/-- A field of the state a step or a command answers, where it answers one. -/
def after {α : Type} (r : Result) (f : State → α) : Option α :=
  match r with
  | .next s => some (f s)
  | .fault _ => none
  | .refused _ => none

/-- KEY0..7 holding a key of at most 32 bytes. -/
def withKey (kb : List Byte) : State := { idle with key := packWords 8 kb }

/-- Bytes 0, 1, …, as the keys of `95_test_vectors.md`. -/
def countUp (n : Nat) : List Byte := (List.range n).map fun i => BitVec.ofNat 8 i

/-- The key of the published 96/96 vector. -/
def key96 : List Byte := [0, 1, 2, 3, 4, 5, 8, 9, 0xa, 0xb, 0xc, 0xd]

/-- All three slots holding the keys of `95_test_vectors.md` section 1, BLOCK and NONCE as given. -/
def keyed (block nonce : List Byte) : State :=
  { idle with
    slotS := ⟨scheduleOfKey 64 34 4 (countUp 32), true⟩
    slotH := ⟨scheduleOfKey 64 32 2 (countUp 16), true⟩
    slotIV := ⟨scheduleOfKey 48 28 2 key96, true⟩
    block := packWords 4 block
    nonce := packWords 4 nonce }

/-- DMEM holding a byte string at 0, with SRC, DST and LEN. -/
def withBuffer (s : State) (bytes : List Byte) (src dst len : Word) : State :=
  { s with mem := Memory.storeBytes [] 0 bytes, src := src, dst := dst, len := len }

/-- The nonce of `95_test_vectors.md` section 4. -/
def nonce4 : List Byte := (List.range 16).map fun i => BitVec.ofNat 8 (0x20 + i)

/-! ### Checks refuse ill-formed terms -/

theorem test_fields_wf_refuses_rsv : CommandFields.wf ⟨1, 1, 0⟩ = false := by decide
theorem test_fields_wf_refuses_class5 : CommandFields.wf ⟨0, 5, 0⟩ = false := by decide
theorem test_fields_wf_refuses_ctrl_func : CommandFields.wf ⟨0, 0, 1⟩ = false := by decide
theorem test_fields_wf_refuses_wsel5 : CommandFields.wf ⟨0, 1, 5⟩ = false := by decide
theorem test_fields_wf_refuses_kexp_slot3 : CommandFields.wf ⟨0, 2, 3⟩ = false := by decide
theorem test_fields_wf_refuses_ecb_func3 : CommandFields.wf ⟨0, 3, 8⟩ = false := by decide
theorem test_fields_wf_refuses_ctr_iv : CommandFields.wf ⟨0, 4, 2⟩ = false := by decide
theorem test_instr_wf : Instr.wf .ecbDecIV = true := by decide

theorem test_params_reference_wf : referenceParams.wf = true := by decide +kernel
theorem test_params_wf_refuses_empty_mem : Config.Params.wf { referenceParams with memSize := 0 } = false := by
  decide +kernel
theorem test_params_wf_refuses_huge_mem : Config.Params.wf { referenceParams with memSize := 2 ^ 32 + 1 } = false := by
  decide +kernel
theorem test_params_wf_refuses_sbox_repeat :
    Config.Params.wf { referenceParams with sbox := Vector.ofFn fun _ => 0 } = false := by decide +kernel
theorem test_params_wf_refuses_perm_repeat :
    Config.Params.wf { referenceParams with perm8 := #v[0, 1, 2, 3, 4, 5, 6, 6] } = false := by decide +kernel
theorem test_params_wf_refuses_equal_masks :
    Config.Params.wf { referenceParams with maskUpper := referenceParams.maskLower } = false := by decide +kernel
theorem test_params_wf_refuses_order_repeat :
    Config.Params.wf { referenceParams with order128 := #v[1, 1] } = false := by decide +kernel
theorem test_params_wf_refuses_overlapping_windows :
    Config.Params.wf { referenceParams with dmemBase := 0x40000FFF } = false := by decide +kernel

/-! ### Decoding: the words of `30_encoding.md` R104 and illegal words of `95_test_vectors.md` section 7.2 -/

theorem test_decode_nop : decode 0b00000000000000000000000000000000 = .ok .nop := by rfl
theorem test_decode_hash16 : decode 0b00000000000000000000000000010000 = .ok .hash16 := by rfl
theorem test_decode_hash32 : decode 0b00000000000000000000000000010001 = .ok .hash32 := by rfl
theorem test_decode_hash64 : decode 0b00000000000000000000000000010010 = .ok .hash64 := by rfl
theorem test_decode_hash128 : decode 0b00000000000000000000000000010011 = .ok .hash128 := by rfl
theorem test_decode_hash256 : decode 0b00000000000000000000000000010100 = .ok .hash256 := by rfl
theorem test_decode_kexpS : decode 0b00000000000000000000000000100000 = .ok .kexpS := by rfl
theorem test_decode_kexpH : decode 0b00000000000000000000000000100001 = .ok .kexpH := by rfl
theorem test_decode_kexpIV : decode 0b00000000000000000000000000100010 = .ok .kexpIV := by rfl
theorem test_decode_kclrS : decode 0b00000000000000000000000000100100 = .ok .kclrS := by rfl
theorem test_decode_kclrH : decode 0b00000000000000000000000000100101 = .ok .kclrH := by rfl
theorem test_decode_kclrIV : decode 0b00000000000000000000000000100110 = .ok .kclrIV := by rfl
theorem test_decode_ecbEncS : decode 0b00000000000000000000000000110000 = .ok .ecbEncS := by rfl
theorem test_decode_ecbEncH : decode 0b00000000000000000000000000110001 = .ok .ecbEncH := by rfl
theorem test_decode_ecbEncIV : decode 0b00000000000000000000000000110010 = .ok .ecbEncIV := by rfl
theorem test_decode_ecbDecS : decode 0b00000000000000000000000000110100 = .ok .ecbDecS := by rfl
theorem test_decode_ecbDecH : decode 0b00000000000000000000000000110101 = .ok .ecbDecH := by rfl
theorem test_decode_ecbDecIV : decode 0b00000000000000000000000000110110 = .ok .ecbDecIV := by rfl
theorem test_decode_ctrS : decode 0b00000000000000000000000001000000 = .ok .ctrS := by rfl
theorem test_decode_ctrH : decode 0b00000000000000000000000001000001 = .ok .ctrH := by rfl
theorem test_encode_nop : encode .nop = 0x00000000 := by rfl
theorem test_encode_hash16 : encode .hash16 = 0x00000010 := by rfl
theorem test_encode_hash32 : encode .hash32 = 0x00000011 := by rfl
theorem test_encode_hash64 : encode .hash64 = 0x00000012 := by rfl
theorem test_encode_hash128 : encode .hash128 = 0x00000013 := by rfl
theorem test_encode_hash256 : encode .hash256 = 0x00000014 := by rfl
theorem test_encode_kexpS : encode .kexpS = 0x00000020 := by rfl
theorem test_encode_kexpH : encode .kexpH = 0x00000021 := by rfl
theorem test_encode_kexpIV : encode .kexpIV = 0x00000022 := by rfl
theorem test_encode_kclrS : encode .kclrS = 0x00000024 := by rfl
theorem test_encode_kclrH : encode .kclrH = 0x00000025 := by rfl
theorem test_encode_kclrIV : encode .kclrIV = 0x00000026 := by rfl
theorem test_encode_ecbEncS : encode .ecbEncS = 0x00000030 := by rfl
theorem test_encode_ecbEncH : encode .ecbEncH = 0x00000031 := by rfl
theorem test_encode_ecbEncIV : encode .ecbEncIV = 0x00000032 := by rfl
theorem test_encode_ecbDecS : encode .ecbDecS = 0x00000034 := by rfl
theorem test_encode_ecbDecH : encode .ecbDecH = 0x00000035 := by rfl
theorem test_encode_ecbDecIV : encode .ecbDecIV = 0x00000036 := by rfl
theorem test_encode_ctrS : encode .ctrS = 0x00000040 := by rfl
theorem test_encode_ctrH : encode .ctrH = 0x00000041 := by rfl

theorem test_decode_ctr_iv : decode 0x00000042 = .error .unassignedFunc := by rfl
theorem test_decode_kexp_slot3 : decode 0x00000023 = .error .unassignedFunc := by rfl
theorem test_decode_rsv : decode 0x00000110 = .error .reservedBits := by rfl
theorem test_decode_class5 : decode 0x00000050 = .error .reservedClass := by rfl
theorem test_decode_hash_wsel5 : decode 0x00000015 = .error .unassignedFunc := by rfl
theorem test_decode_table_word : decodeTableWord 32 0x36 = some .ecbDecIV := by decide
theorem test_decode_bytes_rest : decodeBytes [0x41, 0, 0, 0, 9] = .ok (.ctrH, [9]) := by rfl
theorem test_decode_bytes_short : decodeBytes [0x41, 0, 0] = .error .shortWord := by rfl

/-! ### NOP and the end of a command -/

/-- `40_control.md` R133, the example. -/
theorem test_nop_status : after (step (idle.withFetchWord 32 0)) State.statusWord = some 0x00000002 := by
  decide +kernel

/-- `95_test_vectors.md` section 7.2: an illegal word. -/
theorem test_illegal_status : after (step (idle.withFetchWord 32 0x42)) State.statusWord = some 0x00000014 := by
  decide +kernel

/-! ### HASH (`95_test_vectors.md` section 6.1, 7.2) -/

theorem test_hash16_abc :
    after (exec .hash16 (withBuffer idle [0x61, 0x62, 0x63] 0 0 3)) State.digest =
      some #v[0x000076B2, 0x0, 0x0, 0x0, 0x0, 0x0, 0x0, 0x0] := by decide +kernel

theorem test_hash32_abc :
    after (exec .hash32 (withBuffer idle [0x61, 0x62, 0x63] 0 0 3)) State.digest =
      some #v[0xD29D76B2, 0x0, 0x0, 0x0, 0x0, 0x0, 0x0, 0x0] := by decide +kernel

theorem test_hash64_abc :
    after (exec .hash64 (withBuffer idle [0x61, 0x62, 0x63] 0 0 3)) State.digest =
      some #v[0xD29D76B2, 0x035E5390, 0x0, 0x0, 0x0, 0x0, 0x0, 0x0] := by decide +kernel

theorem test_hash128_abc :
    after (exec .hash128 (withBuffer idle [0x61, 0x62, 0x63] 0 0 3)) State.digest =
      some #v[0xF0EE39A9, 0xD9A3AFA8, 0xD29D76B2, 0x035E5390, 0x0, 0x0, 0x0, 0x0] := by decide +kernel

theorem test_hash256_abc :
    after (exec .hash256 (withBuffer idle [0x61, 0x62, 0x63] 0 0 3)) State.digest =
      some #v[0x40376504, 0x4DEEF68F, 0xA985F8E3, 0x88B6790B, 0xF0EE39A9, 0xD9A3AFA8, 0xD29D76B2, 0x035E5390] := by decide +kernel

/-- A rejected HASH leaves the digest (section 7.2). -/
theorem test_hash16_range :
    after (exec .hash16 { idle with src := 0xFF, len := 2 }) State.statusWord = some 0x00000034 := by decide +kernel

/-- An empty input, at any address (section 7.2). -/
theorem test_hash256_empty :
    after (exec .hash256 { idle with src := 0xFFFFFFFF }) State.statusWord = some 0x00000002 := by decide +kernel

/-- A HASH over a byte nothing has written completes and records the fault (`20_memory.md` R75). -/
theorem test_hash32_unwritten :
    after (exec .hash32 { idle with len := 1 }) (fun s => (s.done, s.faults)) = some (true, [.unwrittenRead]) := by
  decide +kernel

/-- `95_test_vectors.md` section 6.2, the trace of HASH32 over "abc" after two bytes. -/
theorem test_lane_trace :
    laneHash referenceParams.sbox referenceParams.perm4 referenceParams.mask32 [0x61, 0x62] =
      #v[0x5d, 0x6d, 0x14, 0x1f] := by decide +kernel

/-! ### SPECK (`95_test_vectors.md` section 3) -/

theorem test_round_carry_lost : encRound (n := 64) 0xffffffffffffffff 1 0 = (0, 8) := by decide +kernel
theorem test_round_general : encRound (n := 64) 0x0123456789abcdef 0xfedcba9876543210 0x0f1e2d3c4b5a6978 =
    (0xe2c3f0e19687b4a5, 0x1426242224262422) := by decide +kernel
theorem test_round48 : encRound (n := 48) 0x0123456789ab 0xba9876543210 0x0f1e2d3c4b5a =
    (0x6a87b4a5d2c3, 0xbe4406044246) := by decide +kernel
theorem test_inverse_round48 : decRound (n := 48) 0x808000000000 0x808000000004 0 =
    (0x800000000000, 0x800000000000) := by decide +kernel
theorem test_packed_round : encRoundPacked 0x0000000000010000 0 0 =
    (0x0100000000000000, 0x0100000000000000) := by decide +kernel
theorem test_packed_round_general : encRoundPacked 0x0123456789ab0000 0xba98765432100000 0x0f1e2d3c4b5a0000 =
    (0x6a87b4a5d2c30000, 0xbe44060442460000) := by decide +kernel

/-! ### KEXP and KCLR (`42_speck_core.md` R190 to R195, `95_test_vectors.md` section 3.4) -/

theorem test_kexpS_first_last :
    after (exec .kexpS (withKey (countUp 32))) (fun s => (s.slotS.rk[0], s.slotS.rk[3], s.slotS.rk[33])) =
      some (0x0706050403020100, 0xe698e09f31334dfe, 0xf4d26f589a56b276) := by decide +kernel
theorem test_kexpS_status : after (exec .kexpS idle) State.statusWord = some 0x00000102 := by decide +kernel
theorem test_kexpH_first_last :
    after (exec .kexpH (withKey (countUp 16))) (fun s => (s.slotH.rk[0], s.slotH.rk[2], s.slotH.rk[31])) =
      some (0x0706050403020100, 0xf91d89cc90c4085c, 0x2199c870db8ec93f) := by decide +kernel
theorem test_kexpIV_first_last :
    after (exec .kexpIV (withKey key96)) (fun s => (s.slotIV.rk[0], s.slotIV.rk[2], s.slotIV.rk[27])) =
      some (0x050403020100, 0x07b690c4085c, 0xf0a930ddf377) := by decide +kernel
theorem test_kexpIV_status : after (exec .kexpIV idle) State.statusWord = some 0x00000402 := by decide +kernel
theorem test_kclrS : after (exec .kclrS (keyed [] [])) (fun s => (s.slotS, s.slotH.valid)) =
    some (Slot.empty 64 34, true) := by decide +kernel
theorem test_kclrH : after (exec .kclrH (keyed [] [])) (fun s => (s.slotH, s.slotIV.valid)) =
    some (Slot.empty 64 32, true) := by decide +kernel
theorem test_kclrIV : after (exec .kclrIV (keyed [] [])) (fun s => (s.slotIV, s.slotS.valid)) =
    some (Slot.empty 48 28, true) := by decide +kernel

/-! ### ECB (`95_test_vectors.md` sections 1, 5 and 7.2; the published vectors) -/

def plainS : List Byte := [0x70, 0x6f, 0x6f, 0x6e, 0x65, 0x72, 0x2e, 0x20, 0x49, 0x6e, 0x20, 0x74, 0x68, 0x6f, 0x73, 0x65]
def plainH : List Byte := [0x20, 0x6d, 0x61, 0x64, 0x65, 0x20, 0x69, 0x74, 0x20, 0x65, 0x71, 0x75, 0x69, 0x76, 0x61, 0x6c]
def plainIV : List Byte :=
  [0x20, 0x75, 0x73, 0x61, 0x67, 0x65, 0x2c, 0x20, 0x68, 0x6f, 0x77, 0x65, 0xaa, 0xbb, 0xcc, 0xdd]

theorem test_ecbEncS : after (exec .ecbEncS (keyed plainS [])) State.block =
    some #v[0x9C188F43, 0x4EEEB48D, 0x05C0F53E, 0x41090104] := by decide +kernel
theorem test_ecbEncH : after (exec .ecbEncH (keyed plainH [])) State.block =
    some #v[0x5C570D18, 0x7860FEDF, 0x79783265, 0xA65D9851] := by decide +kernel
theorem test_ecbEncIV : after (exec .ecbEncIV (keyed plainIV [])) State.block =
    some #v[0xDE8F79AA, 0x717862BD, 0x9E4D09AB, 0xDDCCBBAA] := by decide +kernel
theorem test_ecbDecS :
    after (exec .ecbDecS { keyed [] [] with block := #v[0x9C188F43, 0x4EEEB48D, 0x05C0F53E, 0x41090104] })
      State.block = some #v[0x6E6F6F70, 0x202E7265, 0x74206E49, 0x65736F68] := by decide +kernel
theorem test_ecbDecH :
    after (exec .ecbDecH { keyed [] [] with block := #v[0x5C570D18, 0x7860FEDF, 0x79783265, 0xA65D9851] })
      State.block = some #v[0x64616D20, 0x74692065, 0x75716520, 0x6C617669] := by decide +kernel
theorem test_ecbDecIV :
    after (exec .ecbDecIV { keyed [] [] with block := #v[0xDE8F79AA, 0x717862BD, 0x9E4D09AB, 0xDDCCBBAA] })
      State.block = some #v[0x61737520, 0x202C6567, 0x65776F68, 0xDDCCBBAA] := by decide +kernel
theorem test_ecbDecH_nokey : after (exec .ecbDecH idle) State.statusWord = some 0x00000024 := by decide +kernel

/-! ### CTR (`95_test_vectors.md` sections 4 and 7.2) -/

/-- Section 4.3: a 20-byte message, in place. -/
theorem test_ctrS_message :
    after (exec .ctrS (withBuffer (keyed [] nonce4)
      [0x48, 0x65, 0x6c, 0x6c, 0x6f, 0x2c, 0x20, 0x53, 0x50, 0x45, 0x43, 0x4b, 0x20, 0x43, 0x54, 0x52, 0x21, 0x21,
        0x21, 0x21] 0 0 20)) (fun s => (s.readBytes 0 20, s.nonce)) =
      some ([0x01, 0x8d, 0x73, 0x93, 0x3a, 0x26, 0x0f, 0x35, 0xd2, 0x24, 0xb5, 0x87, 0x16, 0x23, 0xbf, 0xde, 0xeb,
        0x4e, 0x4c, 0x07], #v[0x23222122, 0x27262524, 0x2B2A2928, 0x2F2E2D2C]) := by decide +kernel

/-- Section 4.7: the counter wraps and the carry is lost. -/
theorem test_ctrS_wrap :
    after (exec .ctrS (withBuffer (keyed [] [0xff, 0xff, 0xff, 0xff, 0xff, 0xff, 0xff, 0xff, 0xef, 0xcd, 0xab, 0x89,
      0x67, 0x45, 0x23, 0x01]) (List.replicate 32 0) 0 0x20 32)) (fun s => (s.readBytes 0x2e 4, s.nonce)) =
      some ([0x22, 0xec, 0xab, 0x46], #v[0x00000001, 0x00000000, 0x89ABCDEF, 0x01234567]) := by decide +kernel

/-- Section 4.6. -/
theorem test_ctrH_zeros :
    after (exec .ctrH (withBuffer (keyed [] nonce4) (List.replicate 20 0) 0 0x40 20)) (fun s => s.readBytes 0x4e 6) =
      some [0xb4, 0x75, 0x4d, 0xfb, 0x50, 0xb4] := by decide +kernel

/-- NOKEY before the length. -/
theorem test_ctrS_nokey : after (exec .ctrS idle) State.statusWord = some 0x00000024 := by decide +kernel

/-- RANGE before OVERLAP. -/
theorem test_ctrS_range :
    after (exec .ctrS { keyed [] [] with src := 0xF8, dst := 0xFC, len := 16 }) (fun s => (s.err, s.errcode)) =
      some (true, 3) := by decide +kernel

/-- One common byte. -/
theorem test_ctrS_overlap :
    after (exec .ctrS { keyed [] [] with src := 0, dst := 0x0F, len := 16 }) (fun s => (s.err, s.errcode)) =
      some (true, 4) := by decide +kernel

/-- Adjacent buffers do not overlap. -/
theorem test_ctrH_adjacent :
    after (exec .ctrH { keyed [] [] with src := 0, dst := 0x10, len := 16 }) (fun s => (s.done, s.err)) =
      some (true, false) := by decide +kernel

/-! ### The host port (`95_test_vectors.md` sections 7.3 and 7.4) -/

theorem test_statusWord_overlap :
    State.statusWord { idle with slotS := ⟨Vector.replicate 34 0, true⟩, done := true, err := true, errcode := 4 } =
      0x00000146 := by decide +kernel
theorem test_write_status_keeps_err :
    after (hostMove (writeEvent .status 0x2) { idle with done := true, err := true, errcode := 3 })
      (fun s => (s.done, s.err, s.errcode)) = some (false, true, 3) := by decide +kernel
theorem test_write_status_clears_err :
    after (hostMove (writeEvent .status 0x4) { idle with err := true, errcode := 3 })
      (fun s => (s.err, s.errcode)) = some (false, 0) := by decide +kernel
theorem test_write_ctrl_raises_irq :
    after (hostMove (writeEvent .ctrl 1) { idle with done := true }) State.irq = some true := by decide +kernel
theorem test_read_key_is_zero :
    after (hostMove (.register 0x020 (.read .word)) (withKey (countUp 32))) State.responses = some [.data 0] := by
  decide +kernel
theorem test_write_digest_ignored :
    after (hostMove (writeEvent (.digest 0) 1) { idle with busy := true }) (fun s => (s.digest[0], s.ovr)) =
      some (0, false) := by decide +kernel
theorem test_write_len_while_busy :
    after (hostMove (writeEvent .len 0x20) { idle with busy := true, len := 16 }) (fun s => (s.len, s.ovr)) =
      some (16, true) := by decide +kernel
theorem test_half_access_is_bus_error :
    after (hostMove (.register 0x004 (.read .half)) idle) (fun s => (s.responses, s.faults)) =
      some ([.readBusError 0], [.registerBusError]) := by decide +kernel
theorem test_read_reserved :
    after (hostMove (.register 0x0C0 (.read .word)) idle) (fun s => (s.responses, s.faults)) =
      some ([.data 0], []) := by decide +kernel
theorem test_cmd_write_issues :
    after (hostMove (commandEvent .ctrS) idle) (fun s => (s.cmdl, s.busy)) = some (0x40, true) := by decide +kernel
theorem test_dmem_write_little_endian :
    after (hostMove (.dmem 0x10 (.write .half 0xAABBCCDD)) idle) State.mem = some [(0x10, 0xDD), (0x11, 0xCC)] := by
  decide +kernel
theorem test_dmem_read_word :
    after (hostMove (.dmem 1 (.read .word)) (withBuffer idle [1, 2, 3, 4, 5] 0 0 0)) State.responses =
      some [.data 0x05040302] := by decide +kernel
theorem test_dmem_beyond_size :
    after (hostMove (.dmem 0xFE (.read .word)) idle) (fun s => (s.responses, s.faults)) =
      some ([.readBusError 0], [.dmemBusError]) := by decide +kernel
theorem test_dmem_while_busy_recorded :
    after (hostMove (.dmem 0 (.write .byte 1)) { idle with busy := true }) (fun s => (s.busy, s.mem, s.faults)) =
      some (true, [], [.dmemAccessWhileBusy]) := by decide +kernel

/-- `60_exceptions.md` R259, rows 3 and 4: a read while BUSY of bytes not written since reset. -/
theorem test_unwritten_read_while_busy_recorded :
    after (hostMove (.dmem 0xFC (.read .word)) { idle with busy := true }) State.faults =
      some [.unwrittenRead, .dmemAccessWhileBusy] := by decide +kernel

/-- A command the host has disturbed still ends, and the fault stays on record. -/
theorem test_disturbed_command_ends :
    after (step { idle with busy := true, disturbed := true, mem := [(3, 7)], faults := [.dmemAccessWhileBusy] })
      (fun s => (s.statusWord, s.disturbed, s.mem.map Prod.fst, s.faults)) =
      some (2, false, [3], [.dmemAccessWhileBusy]) := by decide +kernel

/-- `20_memory.md` R74: two reads of one byte with no write between, the byte not written since reset. -/
theorem test_unwritten_byte_reads_alike (d : Response) :
    after (step { idle with pending := [.dmem 3 (.read .byte)], responses := [d] }) (fun s => s.readByte 3) =
      some (idle.readByte 3) := by rfl
theorem test_platform_address :
    after (hostMove (.platform 0x40000010 (.write .word 5)) idle) State.src = some 5 := by decide +kernel
theorem test_reset_keeps_parameters :
    after (hostMove .reset (keyed plainS nonce4)) (fun s => (s.slotS, s.block, s.params.memSize)) =
      some (Slot.empty 64 34, #v[0, 0, 0, 0], 256) := by decide +kernel
theorem test_wait_polls_again :
    after (hostMove .awaitIdle { idle with busy := true }) State.pending = some [.awaitIdle] := by decide +kernel

/-- `95_test_vectors.md` program P2: the writes of `ldkey` for the first word of the key. -/
theorem test_ldkey_events : expandStmt (.ldkey (countUp 5)) =
    [.register 0x020 (.write .word 0x03020100), .register 0x024 (.write .word 0x00000004)] := by decide +kernel

/-! ### Witnesses: for each obligation with hypotheses, states and operands that meet all of them together, at the ends
of the ranges the clauses name. -/

/-- All three keys in their slots and DMEM written from 0 to 63, with buffers. -/
def buffers (src dst len : Word) : State := withBuffer (keyed [] nonce4) (countUp 64) src dst len

/-- A command running, with host moves still to come. -/
def running (turns : Nat) (events : List HostEvent) : State :=
  { idle with busy := true, hostTurns := turns, pending := events }

/-- The two ends of the illegal words, CTR on slot IV and every bit set; the engine's turn, undisturbed and disturbed. -/
theorem witness_IllegalWordRejected :
    (∀ p ∈ opcodeTable, State.cmdl { idle with cmdl := 0x42 } ≠ p.1) ∧
    (∀ p ∈ opcodeTable, State.cmdl { idle with cmdl := 0xFFFFFFFF } ≠ p.1) ∧
    State.disturbed { running 0 [] with cmdl := 0x42 } = false ∧
    State.disturbed { running 0 [] with cmdl := 0x42, disturbed := true } = true ∧
    State.busy { running 0 [] with cmdl := 0x42, disturbed := true } = true ∧
    State.hostTurns { running 0 [] with cmdl := 0x42, disturbed := true } = 0 := by decide +kernel

/-- The engine's turn: no host turn left, or no event to come. -/
theorem witness_StepRunsDecodedCommand :
    ((running 0 [.awaitIdle]).engineTurn ∧ decode (running 0 [.awaitIdle]).cmdl = .ok .nop) ∧
    ((running 5 []).engineTurn ∧ decode (running 5 []).cmdl = .ok .nop ∧ (running 5 []).disturbed = false) ∧
    State.engineTurn { running 5 [] with disturbed := true } :=
  ⟨⟨⟨rfl, .inl rfl⟩, rfl⟩, ⟨⟨rfl, .inr rfl⟩, rfl, rfl⟩, rfl, .inr rfl⟩

/-- One state for each check: no key; length 0; one byte past the end, at SRC and at DST; one common byte. -/
theorem witness_CtrChecksInOrder :
    idle.slotS.valid = false ∧ ((keyed [] []).slotS.valid = true ∧ (keyed [] []).len = 0) ∧
    ((buffers 0xF1 0 16).slotH.valid = true ∧ (buffers 0xF1 0 16).len ≠ 0 ∧
      ¬ (inDmem (buffers 0xF1 0 16) 0xF1 ∧ inDmem (buffers 0xF1 0 16) 0)) ∧
    ¬ (inDmem (buffers 0 0xF1 16) 0 ∧ inDmem (buffers 0 0xF1 16) 0xF1) ∧
    (inDmem (buffers 0 15 16) 0 ∧ inDmem (buffers 0 15 16) 15 ∧ (0 : Word) ≠ 15 ∧
      (0 : Word).toNat < (15 : Word).toNat + (16 : Word).toNat ∧
      (15 : Word).toNat < (0 : Word).toNat + (16 : Word).toNat) := by
  unfold inDmem; decide +kernel

theorem witness_HashOutOfRangeRejected :
    (buffers 0xFF 0 2).len ≠ 0 ∧ ¬ inDmem (buffers 0xFF 0 2) (buffers 0xFF 0 2).src ∧
    ¬ inDmem (buffers 0xFFFFFFFF 0 1) (buffers 0xFFFFFFFF 0 1).src := by
  unfold inDmem; decide +kernel

theorem witness_EcbWithoutKeyRejected :
    idle.slotS.valid = false ∧ idle.slotH.valid = false ∧ idle.slotIV.valid = false := ⟨rfl, rfl, rfl⟩

theorem witness_CommandsWriteOnlyTheirResults : ∃ t, exec .kexpIV idle = .next t := ⟨_, rfl⟩

/-- An empty input at an address outside DMEM; an input that ends at the end of DMEM. -/
theorem witness_NarrowHashResult :
    (buffers 0xFFFFFFFF 0 0).len = 0 ∧ inDmem (buffers 0xF0 0 16) (buffers 0xF0 0 16).src := by
  unfold inDmem; decide +kernel

theorem witness_WideHashResult : inDmem (buffers 0 0 256) (buffers 0 0 256).src := by unfold inDmem; decide +kernel

theorem witness_HashEmptyAndRepeatable :
    inDmem (buffers 240 0 16) (buffers 240 0 16).src ∧ (buffers 48 0 0).len = 0 := by
  unfold inDmem; decide +kernel

theorem witness_WideDigestsShareLanes :
    inDmem (buffers 48 0 16) (buffers 48 0 16).src ∧
    idle.params.order256[(2 : Fin 4)].val = idle.params.order128[(0 : Fin 2)].val ∧
    idle.params.order256[(3 : Fin 4)].val = idle.params.order128[(1 : Fin 2)].val := by
  unfold inDmem; decide +kernel

/-- Two bytes that differ, one of them the last of DMEM. -/
theorem witness_SingleByteDigestsDiffer :
    let s : State := { withBuffer idle [7] 0 0 1 with mem := [(0, 7), (255, 8)] }
    s.params.sboxOk = true ∧ s.len = 1 ∧ inDmem s s.src ∧ inDmem s 255 ∧
      s.readByte s.src.toNat ≠ s.readByte (255 : Word).toNat := by
  unfold inDmem State.readByte; decide +kernel

/-- Written and not written, for HASH and CTR. -/
theorem witness_UnwrittenReadsRecorded :
    ((buffers 48 0 16).len ≠ 0 ∧ inDmem (buffers 48 0 16) 48 ∧ inputWritten (buffers 48 0 16) ∧
      ctrAccepted (buffers 48 0 16).slotS.valid (buffers 48 0 16)) ∧
    (buffers 49 0 16).len ≠ 0 ∧ inDmem (buffers 49 0 16) 49 ∧ ¬ inputWritten (buffers 49 0 16) ∧
      ctrAccepted (buffers 49 0 16).slotH.valid (buffers 49 0 16) := by
  unfold ctrAccepted inDmem inputWritten; decide +kernel

theorem witness_EncryptionRoundArithmetic : encRound (n := 9) 0 0 1 = (1, 1) ∧ 8 < 9 := by decide +kernel

theorem witness_RoundsAreInverse : decRound (n := 9) 1 1 1 = (0, 0) ∧ 8 < 9 := by decide +kernel

theorem witness_BlockCipherRoundTrip : encryptBlock (n := 9) #v[1] 0 0 = (1, 1) ∧ 8 < 9 := by decide +kernel

theorem witness_EcbEncryptResult :
    (keyed plainS []).slotS.valid = true ∧ (keyed plainH []).slotH.valid = true ∧
    (keyed plainIV []).slotIV.valid = true := ⟨rfl, rfl, rfl⟩

theorem witness_EcbDecryptResult :
    (keyed plainS []).slotS.valid = true ∧ (keyed plainH []).slotH.valid = true ∧
    (keyed plainIV []).slotIV.valid = true := ⟨rfl, rfl, rfl⟩

theorem witness_EcbRoundTrip :
    Instr.ecbEncIV = .ecbEncIV ∧ Instr.ecbDecIV = .ecbDecIV ∧ (keyed plainIV []).slotIV.valid = true := ⟨rfl, rfl, rfl⟩

/-- In place, up to the end of DMEM; adjacent from below and from above. -/
theorem witness_CtrTransformsBuffer :
    ctrAccepted (buffers 0xF0 0xF0 16).slotS.valid (buffers 0xF0 0xF0 16) ∧
    ctrAccepted (buffers 0 16 16).slotH.valid (buffers 0 16 16) ∧
    ctrAccepted (buffers 16 0 16).slotS.valid (buffers 16 0 16) := by
  unfold ctrAccepted inDmem; decide +kernel

theorem witness_CtrZeroLength :
    (buffers 0xFFFFFFFF 0xFFFFFFFF 0).len = 0 ∧ (buffers 0xFFFFFFFF 0xFFFFFFFF 0).slotS.valid = true ∧
    (buffers 0xFFFFFFFF 0xFFFFFFFF 0).slotH.valid = true ∧ idle.len = 0 ∧ idle.slotS.valid = false ∧
    idle.slotH.valid = false := by decide +kernel

/-- The second command's destination is the first one's source. -/
theorem witness_CtrIsSelfInverse :
    ctrAccepted (buffers 0 16 16).slotS.valid (buffers 0 16 16) ∧ ∃ t, exec .ctrS (buffers 0 16 16) = .next t ∧
      ctrAccepted (buffers 0 16 16).slotS.valid { t with nonce := (buffers 0 16 16).nonce, src := 16, dst := 0 } := by
  refine ⟨by unfold ctrAccepted inDmem; decide +kernel,
    ((buffers 0 16 16).ctrBody (buffers 0 16 16).slotS.rk).complete, ?_, ?_⟩
  · show ctrCommand (buffers 0 16 16).slotS (buffers 0 16 16) = _
    rw [ctrCommand, if_neg (by decide +kernel), if_neg (by decide +kernel), if_neg (by decide +kernel),
      if_neg (by decide +kernel)]
  · show ctrAccepted true { buffers 16 0 16 with
      mem := ((buffers 0 16 16).ctrBody (buffers 0 16 16).slotS.rk).mem }
    unfold ctrAccepted inDmem
    refine ⟨rfl, ?_, ?_, ?_, ?_⟩ <;> decide +kernel

/-- The least and the greatest split point of a buffer of 33 bytes. -/
theorem witness_CtrSplitLaw :
    ctrAccepted (buffers 0 0 33).slotH.valid (buffers 0 0 33) ∧
    (buffers 0 0 33).params.memSizeOk = true ∧
    ((16 : Word).toNat % 16 = 0 ∧ 0 < (16 : Word).toNat ∧ (16 : Word).toNat < (33 : Word).toNat) ∧
    (32 : Word).toNat % 16 = 0 ∧ 0 < (32 : Word).toNat ∧ (32 : Word).toNat < (33 : Word).toNat := by
  unfold ctrAccepted inDmem; decide +kernel

theorem witness_CommandWriteIssues : idle.busy = false ∧ (running 1 []).busy = true := ⟨rfl, rfl⟩

/-- The ends of each clause's offsets. The clauses of one kind of access share no offset. -/
theorem witness_RegisterAccessWhileBusy :
    (running 1 []).busy = true ∧
    (∀ o ∈ [0x000, 0x010, 0x018, 0x020, 0x05C], o % 4 = 0 ∧
      (o = 0x000 ∨ o = 0x010 ∨ o = 0x014 ∨ o = 0x018 ∨ (0x020 ≤ o ∧ o < 0x060))) ∧
    (∀ o ∈ [0x00C, 0x01C, 0x060, 0xFFC], o % 4 = 0 ∧ (o = 0x00C ∨ o = 0x01C ∨ (0x060 ≤ o ∧ o < 0x1000))) ∧
    ∀ o ∈ [0x040, 0x07C], o % 4 = 0 ∧ 0x040 ≤ o ∧ o < 0x080 := by decide

theorem witness_ReservedAndWriteOnlyAccess :
    (∀ o ∈ [0x000, 0x00C, 0x01C, 0x020, 0x03C, 0x080, 0xFFC], o % 4 = 0 ∧
      (o = 0x000 ∨ o = 0x00C ∨ o = 0x01C ∨ (0x020 ≤ o ∧ o < 0x040) ∨ (0x080 ≤ o ∧ o < 0x1000))) ∧
    ∀ o ∈ [0x00C, 0x01C, 0x060, 0xFFC], o % 4 = 0 ∧ (o = 0x00C ∨ o = 0x01C ∨ (0x060 ≤ o ∧ o < 0x1000)) := by decide

/-- The register itself, and another one, from KEY0 to BLOCK3 and from NONCE0 to DIGEST7. -/
theorem witness_WrittenRegistersReadBack :
    idle.busy = false ∧ ∀ q ∈ [(0x010, 0x010), (0x05C, 0x05C), (0x020, 0x040), (0x05C, 0x07C)],
      q.1 % 4 = 0 ∧ q.2 % 4 = 0 ∧ (q.1 = 0x010 ∨ q.1 = 0x014 ∨ q.1 = 0x018 ∨ (0x020 ≤ q.1 ∧ q.1 < 0x060)) ∧
      (q.2 = 0x010 ∨ q.2 = 0x014 ∨ q.2 = 0x018 ∨ (0x040 ≤ q.2 ∧ q.2 < 0x080)) := by decide

theorem witness_RegisterWritesSetFields : idle.busy = false := rfl

theorem witness_RegisterReadsAnswerFields : idle.busy = false := rfl

/-- Each of the three ways an access can be wrong. -/
theorem witness_RegisterBusError :
    (Access.read .half).width ≠ .word ∧ ((Access.write .word 0).width = .word ∧ 0x002 % 4 ≠ 0) ∧ 0x1000 ≤ 0x1000 := by
  decide

/-- The last word of DMEM, and the first that runs past it. -/
theorem witness_HostDmemAccess :
    idle.busy = false ∧ 252 + AccessWidth.word.bytes ≤ idle.params.memSize ∧
    idle.params.memSize < 253 + AccessWidth.word.bytes ∧ (Access.read .word).width = .word := by decide +kernel

/-- A read of the last bytes of DMEM, not written; a write that runs past its end. -/
theorem witness_DmemAccessWhileBusyFaults :
    (running 1 []).busy = true ∧ Access.read .byte = .read .byte ∧ Access.write .word 0 = .write .word 0 ∧
    252 + (Access.read .word).width.bytes ≤ (running 1 []).params.memSize ∧
    Memory.load? (running 1 []).mem (252 + 3) = none ∧ (running 1 []).params.memSize < 253 + (Access.write .word 0).width.bytes := by decide +kernel

theorem witness_InterruptFollowsFlags : ∃ t, State.ie { idle with ie := true } = true ∧
    exec .nop { idle with ie := true } = .next t := ⟨_, rfl, rfl⟩

/-- The host's turn while idle, and its last one while BUSY; nobody's turn. -/
theorem witness_HostStepTakesNextEvent :
    (State.pending { idle with pending := [.reset] } = [.reset] ∧ State.busy { idle with pending := [.reset] } = false) ∧
    ((running 1 [.awaitIdle]).pending = [.awaitIdle] ∧ (running 1 [.awaitIdle]).hostTurns ≠ 0) ∧
    idle.busy = false ∧ idle.pending = [] := ⟨⟨rfl, rfl⟩, ⟨rfl, by decide⟩, rfl, rfl⟩

/-- The last offset of each window. -/
theorem witness_PlatformAddressesReachTheWindows :
    idle.params.windowsOk = true ∧ 0xFFF < 0x1000 ∧ 255 < idle.params.memSize := by decide +kernel

/-- A state with a command to run and an error on record. -/
theorem witness_StepKeepsInvariant :
    Inv { idle with busy := true, cmdl := 0x20, mem := [(255, 1)], err := true, errcode := 4, disturbed := true } ∧
    ∃ t, step { idle with
      busy := true, cmdl := 0x20, mem := [(255, 1)], err := true, errcode := 4, disturbed := true } = .next t :=
  ⟨⟨test_params_reference_wf, rfl, by simp [idle, referenceParams], by simp, by simp, fun _ => rfl, fun _ => rfl,
    fun _ => rfl, fun _ => rfl⟩, _, rfl⟩

theorem witness_StepKeepsParametersAndFaults :
    ∃ t, step { running 1 [.register 2 (.read .word)] with faults := [.dmemBusError] } = .next t ∧
      Fault.dmemBusError ∈ State.faults { running 1 [.register 2 (.read .word)] with faults := [.dmemBusError] } :=
  ⟨_, rfl, by decide⟩

theorem witness_OnlyKeyCommandsWriteSlots : ∃ t, step (idle.withFetchWord 32 0x20) = .next t := ⟨_, rfl⟩

/-- The last host turn of a running command. -/
theorem witness_OperandsHeldWhileBusy :
    (running 1 [.awaitIdle]).busy = true ∧ (running 1 [.awaitIdle]).hostTurns ≠ 0 ∧
    (running 1 [.awaitIdle]).pending = [.awaitIdle] ∧ HostEvent.awaitIdle ≠ .reset ∧
    ∃ t, step (running 1 [.awaitIdle]) = .next t ∧ t.disturbed = false := ⟨rfl, by decide, rfl, by decide, _, rfl, rfl⟩

theorem witness_BusyCommandEnds : (running 3 [.awaitIdle]).busy = true := rfl

theorem witness_CanonicalMemoriesAreEqual :
    Memory.wf [(1, 7), (4, 8)] = true ∧ Memory.wf (Memory.store [(4, 8)] 1 7) = true ∧
    ∀ a ∈ [0, 1, 4, 5], Memory.load? [(1, 7), (4, 8)] a = Memory.load? (Memory.store [(4, 8)] 1 7) a := by decide

end Sys2Proof.Tests
end

section
/-! PROOFS, family 10_state.md. What one host move and one engine step do, said once, and from it what every step keeps:
the invariant, the parameters and the fault record, the slots. -/

namespace Sys2Proof.Machine

/-! ### The host's move -/

/-- The states a host move leads to. -/
inductive HostShape (e : HostEvent) (s : State) : State → Prop where
  | register (offset : Nat) (a : Access) : HostShape e s (registerAccess offset a s)
  | dmemWhileBusy (hb : s.busy = true) (address : Nat) (a : Access) : HostShape e s (busyDmemAccess address a s)
  | dmemBusError (r : Response) : HostShape e s ((s.record .dmemBusError).respond r)
  | dmemRead (address k : Nat) (r : Response) : HostShape e s ((s.noteReads address k).respond r)
  | dmemWrite (address : Nat) (bytes : List Byte) (hr : address + bytes.length ≤ s.params.memSize) :
      HostShape e s ((s.writeBytes address bytes).respond .accepted)
  | noWindow : HostShape e s s
  | poll : HostShape e s (poll s)
  | reset (he : e = .reset) : HostShape e s s.applyReset

theorem dmemAccess_shape (e : HostEvent) (address : Nat) (a : Access) (s : State) :
    ∃ t, dmemAccess address a s = .next t ∧ HostShape e s t := by
  rcases dmemAccess_cases address a s with ⟨hb, h⟩ | ⟨-, -, h⟩ | ⟨-, w, -, -, h⟩ | ⟨-, w, v, -, hr, h⟩
  · exact ⟨_, h, .dmemWhileBusy hb address a⟩
  · exact ⟨_, h, .dmemBusError _⟩
  · exact ⟨_, h, .dmemRead address w.bytes _⟩
  · exact ⟨_, h, .dmemWrite address _ (by rwa [writtenBytes_length])⟩

/-- An access at a host address is a register access, a DMEM access, or none of the block's. -/
theorem platformAccess_cases (hostAddress : Nat) (a : Access) (s : State) :
    (∃ offset, platformAccess hostAddress a s = .next (registerAccess offset a s)) ∨
    (∃ address, platformAccess hostAddress a s = dmemAccess address a s) ∨
    platformAccess hostAddress a s = .next s := by
  unfold platformAccess
  rcases route s.params hostAddress with _ | ⟨_ | _, n⟩
  · exact .inr (.inr rfl)
  · exact .inl ⟨n, rfl⟩
  · exact .inr (.inl ⟨n, rfl⟩)

/-- Every host move answers a next state, of one of the shapes above. -/
theorem hostMove_shape (e : HostEvent) (s : State) : ∃ t, hostMove e s = .next t ∧ HostShape e s t := by
  cases e with
  | register offset a => exact ⟨_, rfl, .register offset a⟩
  | dmem address a => exact dmemAccess_shape _ address a s
  | platform hostAddress a =>
    rcases platformAccess_cases hostAddress a s with ⟨offset, h⟩ | ⟨address, h⟩ | h
    · exact ⟨_, h, .register offset a⟩
    · obtain ⟨t, ht, shape⟩ := dmemAccess_shape (.platform hostAddress a) address a s
      exact ⟨t, h.trans ht, shape⟩
    · exact ⟨_, h, .noWindow⟩
  | awaitIdle => exact ⟨_, rfl, .poll⟩
  | reset => exact ⟨_, rfl, .reset rfl⟩

/-! ### The engine's step -/

/-- Running the latch answers a next state: the word rejected as illegal, or one of the shapes of a command. -/
theorem runLatch_shape (s : State) :
    ∃ t, runLatch s = .next t ∧ (t = s.reject .illegal ∨ ExecShape s t) := by
  rcases runLatch_cases s with ⟨-, h⟩ | ⟨i, -, h⟩
  · exact ⟨_, h, .inl rfl⟩
  · obtain ⟨t, ht, shape⟩ := exec_shape i s
    exact ⟨t, h.trans ht, .inr shape⟩

@[simp] theorem State.ctrBody_faults {T : Nat} (s : State) (rk : Vector (BitVec 64) T) :
    (s.ctrBody rk).faults = s.noteInput.faults := by simp [State.ctrBody]

@[simp] theorem State.ctrBody_disturbed {T : Nat} (s : State) (rk : Vector (BitVec 64) T) :
    (s.ctrBody rk).disturbed = s.disturbed := by simp [State.ctrBody, State.noteInput]

/-! ### The invariant -/

theorem Inv.takeTurn {s : State} (h : Inv s) (rest : List HostEvent) : Inv (s.takeTurn rest) := { h with }

theorem Inv.respond {s : State} (h : Inv s) (r : Response) : Inv (s.respond r) := { h with }

theorem Inv.record {s : State} (h : Inv s) (f : Fault) : Inv (s.record f) := { h with }

theorem Inv.noteReads {s : State} (h : Inv s) (a k : Nat) : Inv (s.noteReads a k) := { h with }

theorem Inv.setDigest {s : State} (h : Inv s) (d : List Byte) : Inv (s.setDigest d) := { h with }

theorem Inv.setBlock {s : State} (h : Inv s) (b : List Byte) : Inv (s.setBlock b) := { h with }

theorem Inv.setNonceLo {s : State} (h : Inv s) (v : BitVec 64) : Inv (s.setNonceLo v) := { h with }

theorem Inv.setSlotS {s : State} (h : Inv s) {x : Slot 64 34} (hx : x.valid = false → x = Slot.empty 64 34) :
    Inv (s.setSlotS x) := { h with noKeyInS := hx }

theorem Inv.setSlotH {s : State} (h : Inv s) {x : Slot 64 32} (hx : x.valid = false → x = Slot.empty 64 32) :
    Inv (s.setSlotH x) := { h with noKeyInH := hx }

theorem Inv.setSlotIV {s : State} (h : Inv s) {x : Slot 48 28} (hx : x.valid = false → x = Slot.empty 48 28) :
    Inv (s.setSlotIV x) := { h with noKeyInIV := hx }

/-- A write of bytes that end within MEM_SIZE keeps the invariant. -/
theorem Inv.writeBytes {s : State} (h : Inv s) {a : Nat} {bytes : List Byte}
    (hr : a + bytes.length ≤ s.params.memSize) : Inv (s.writeBytes a bytes) :=
  { h with
    memCanonical := Memory.wf_storeBytes a bytes h.memCanonical
    memInRange := Memory.inRange_storeBytes h.memInRange hr }

/-- The body of a CTR command whose destination passes its check keeps the invariant: it writes LEN bytes at DST. -/
theorem Inv.ctrBody {T : Nat} {s : State} (h : Inv s) (rk : Vector (BitVec 64) T) (hdst : s.exceedsMem s.dst = false) :
    Inv (s.ctrBody rk) := by
  have hr : s.dst.toNat + (xorBytes s.inputBytes (keystream rk s.nonceHi s.nonceLo s.len.toNat)).length ≤
      s.params.memSize := by
    simpa using (s.exceedsMem_eq_false s.dst).mp hdst
  exact ((h.noteReads _ _).writeBytes hr).setNonceLo _

/-- A disturbance of DMEM keeps the invariant. -/
theorem Inv.disturb {s : State} (h : Inv s) : Inv s.disturb :=
  { h with
    memCanonical := Memory.wf_disturb s.draws h.memCanonical
    memInRange := Memory.inRange_disturb s.draws h.memInRange }

/-- A completion, settled, keeps the invariant: nothing is disturbed any more. -/
theorem Inv.complete_settle {s : State} (h : Inv s) : Inv s.complete.settle :=
  { h with disturbedWhileBusy := fun hd => nomatch hd }

/-- A rejection, settled, keeps the invariant: it records one of the four codes. -/
theorem Inv.reject_settle {s : State} (h : Inv s) (e : ErrorCode) : Inv (s.reject e).settle :=
  { h with
    noCodeWithoutErr := fun he => nomatch he
    knownCode := fun _ => by cases e <;> simp [State.settle, ErrorCode.code]
    disturbedWhileBusy := fun hd => nomatch hd }

theorem State.settle_of_not_disturbed {s : State} (h : s.disturbed = false) : s.settle = s := by
  rw [State.settle, ← h]

/-- A command, settled, keeps the invariant. -/
theorem ExecShape.inv_settle {s t : State} (shape : ExecShape s t) (h : Inv s) : Inv t.settle := by
  cases shape with
  | rejected e => exact h.reject_settle e
  | nothing => exact h.complete_settle
  | digest d => exact ((h.noteReads _ _).setDigest d).complete_settle
  | slotS x hx => exact (h.setSlotS hx).complete_settle
  | slotH x hx => exact (h.setSlotH hx).complete_settle
  | slotIV x hx => exact (h.setSlotIV hx).complete_settle
  | block b => exact (h.setBlock b).complete_settle
  | ctr rk _ hdst => exact (h.ctrBody rk hdst).complete_settle

theorem runLatch_inv_settle {s t : State} (h : Inv s) (ht : runLatch s = .next t) : Inv t.settle := by
  obtain ⟨u, hu, shape⟩ := runLatch_shape s
  cases hu.symm.trans ht
  rcases shape with rfl | shape
  · exact h.reject_settle .illegal
  · exact shape.inv_settle h

/-- The latch changes no disturbance. -/
theorem runLatch_disturbed {s t : State} (ht : runLatch s = .next t) : t.disturbed = s.disturbed := by
  obtain ⟨u, hu, shape⟩ := runLatch_shape s
  cases hu.symm.trans ht
  rcases shape with rfl | shape
  · rfl
  · cases shape with
    | ctr rk => exact s.ctrBody_disturbed rk
    | _ => rfl

/-- The engine's step keeps the invariant: undisturbed, the command's end is its own settling; disturbed, the settling
follows a second disturbance. -/
theorem engineStep_inv {s t : State} (h : Inv s) (ht : engineStep s = .next t) : Inv t := by
  rcases engineStep_cases s with ⟨hd, e⟩ | ⟨-, u, hu, e⟩
  · have hrun : runLatch s = .next t := e.symm.trans ht
    have := runLatch_inv_settle h hrun
    rwa [State.settle_of_not_disturbed ((runLatch_disturbed hrun).trans hd)] at this
  · cases e.symm.trans ht
    exact (runLatch_inv_settle h.disturb hu).disturb

/-- A register access keeps the invariant. -/
theorem RegisterKeeps.inv {s t : State} (k : RegisterKeeps s t) (h : Inv s) : Inv t where
  paramsOk := k.params ▸ h.paramsOk
  memCanonical := k.mem ▸ h.memCanonical
  memInRange := k.mem ▸ k.params ▸ h.memInRange
  noCodeWithoutErr ht := by
    rcases k.flags with ⟨herr, hcode⟩ | ⟨-, hcode⟩
    · exact hcode ▸ h.noCodeWithoutErr (herr ▸ ht)
    · exact hcode
  knownCode ht := by
    rcases k.flags with ⟨herr, hcode⟩ | ⟨herr, -⟩
    · exact hcode ▸ h.knownCode (herr ▸ ht)
    · exact nomatch herr.symm.trans ht
  noKeyInS := k.slotS ▸ h.noKeyInS
  noKeyInH := k.slotH ▸ h.noKeyInH
  noKeyInIV := k.slotIV ▸ h.noKeyInIV
  disturbedWhileBusy ht := by
    rcases k.disturbance with ⟨hdist, hbusy⟩ | hdist
    · exact hbusy ▸ h.disturbedWhileBusy (hdist ▸ ht)
    · exact nomatch hdist.symm.trans ht

/-- A host DMEM access while BUSY keeps the invariant: the command it may disturb is running. -/
theorem Inv.busyDmemAccess {s : State} (h : Inv s) (hb : s.busy = true) (address : Nat) (a : Access) :
    Inv (busyDmemAccess address a s) := by
  rw [busyDmemAccess_eq]
  exact { h with disturbedWhileBusy := fun _ => hb }

theorem Inv.poll {s : State} (h : Inv s) : Inv (poll s) := by
  rw [poll_eq]
  exact { h with }

/-- A reset leaves the invariant to the parameters, which stay. -/
theorem Inv.applyReset {s : State} (h : Inv s) : Inv s.applyReset where
  paramsOk := h.paramsOk
  memCanonical := reset_mem_wf
  memInRange := fun _ hc => nomatch hc
  noCodeWithoutErr := fun _ => rfl
  knownCode := fun he => nomatch he
  noKeyInS := fun _ => rfl
  noKeyInH := fun _ => rfl
  noKeyInIV := fun _ => rfl
  disturbedWhileBusy := fun hd => nomatch hd

/-- A host move keeps the invariant. -/
theorem HostShape.inv {e : HostEvent} {s t : State} (shape : HostShape e s t) (h : Inv s) : Inv t := by
  cases shape with
  | register offset a => exact (registerAccess_keeps offset a s).inv h
  | dmemWhileBusy hb address a => exact h.busyDmemAccess hb address a
  | dmemBusError r => exact (h.record _).respond r
  | dmemRead address k r => exact (h.noteReads address k).respond r
  | dmemWrite address bytes hr => exact (h.writeBytes hr).respond _
  | noWindow => exact h
  | poll => exact h.poll
  | reset => exact h.applyReset

theorem hostMove_inv {e : HostEvent} {s t : State} (h : Inv s) (ht : hostMove e s = .next t) : Inv t := by
  obtain ⟨u, hu, shape⟩ := hostMove_shape e s
  cases hu.symm.trans ht
  exact shape.inv h

/-! ### The parameters and the fault record -/

/-- The parameters are the same, and no recorded fault is lost (`10_state.md` R47, `60_exceptions.md` R259). -/
def KeepsParamsAndFaults (s t : State) : Prop := t.params = s.params ∧ ∀ f ∈ s.faults, f ∈ t.faults

theorem KeepsParamsAndFaults.refl (s : State) : KeepsParamsAndFaults s s := ⟨rfl, fun _ hf => hf⟩

/-- Noting a read of DMEM only adds to the record. -/
theorem State.noteReads_keepsParamsAndFaults (s : State) (a k : Nat) : KeepsParamsAndFaults s (s.noteReads a k) :=
  ⟨rfl, fun f hf => (s.mem_noteReads a k f).mpr (.inr hf)⟩

theorem ExecShape.keepsParamsAndFaults {s t : State} (shape : ExecShape s t) : KeepsParamsAndFaults s t := by
  obtain ⟨-, noted⟩ := s.noteReads_keepsParamsAndFaults s.src.toNat s.len.toNat
  cases shape with
  | digest d => exact ⟨rfl, noted⟩
  | ctr rk => exact ⟨s.ctrBody_params rk, s.ctrBody_faults rk ▸ noted⟩
  | _ => exact ⟨rfl, fun _ hf => hf⟩

theorem runLatch_keepsParamsAndFaults {s t : State} (ht : runLatch s = .next t) : KeepsParamsAndFaults s t := by
  obtain ⟨u, hu, shape⟩ := runLatch_shape s
  cases hu.symm.trans ht
  rcases shape with rfl | shape
  · exact .refl s
  · exact shape.keepsParamsAndFaults

/-- The engine's step keeps both: a disturbance is of DMEM alone. -/
theorem engineStep_keepsParamsAndFaults {s t : State} (ht : engineStep s = .next t) : KeepsParamsAndFaults s t := by
  rcases engineStep_cases s with ⟨-, e⟩ | ⟨-, u, hu, e⟩
  · exact runLatch_keepsParamsAndFaults (e.symm.trans ht)
  · cases e.symm.trans ht
    have run : KeepsParamsAndFaults s.disturb u := runLatch_keepsParamsAndFaults hu
    exact run

theorem busyDmemAccess_keepsParamsAndFaults (address : Nat) (a : Access) (s : State) :
    KeepsParamsAndFaults s (busyDmemAccess address a s) := by
  rw [busyDmemAccess_eq]
  refine ⟨rfl, fun f hf => (mem_recordBusyAccess s address a f).mpr (.inr ?_)⟩
  exact (mem_noteAccess s address a f).mpr (.inr (.inr hf))

theorem HostShape.keepsParamsAndFaults {e : HostEvent} {s t : State} (shape : HostShape e s t) :
    KeepsParamsAndFaults s t := by
  cases shape with
  | register offset a =>
    have k := registerAccess_keeps offset a s
    exact ⟨k.params, k.faults⟩
  | dmemWhileBusy _ address a => exact busyDmemAccess_keepsParamsAndFaults address a s
  | dmemBusError r => exact ⟨rfl, fun _ hf => mem_addFault_of_mem hf⟩
  | dmemRead address k r => exact s.noteReads_keepsParamsAndFaults address k
  | poll => rw [poll_eq]; exact .refl s
  | _ => exact .refl s

theorem hostMove_keepsParamsAndFaults {e : HostEvent} {s t : State} (ht : hostMove e s = .next t) :
    KeepsParamsAndFaults s t := by
  obtain ⟨u, hu, shape⟩ := hostMove_shape e s
  cases hu.symm.trans ht
  exact shape.keepsParamsAndFaults

/-! ### The slots -/

/-- No slot has changed (`10_state.md` R40). -/
def KeepsSlots (s t : State) : Prop := t.slotS = s.slotS ∧ t.slotH = s.slotH ∧ t.slotIV = s.slotIV

theorem KeepsSlots.refl (s : State) : KeepsSlots s s := ⟨rfl, rfl, rfl⟩

/-- The key commands, KEXP and KCLR of each slot (`42_speck_core.md` R190 to R195). -/
def keyCommands : List Instr := [.kexpS, .kexpH, .kexpIV, .kclrS, .kclrH, .kclrIV]

theorem hashCommand_keepsSlots {width : DigestWidth} {s t : State} (ht : hashCommand width s = .next t) :
    KeepsSlots s t := by
  rcases hashCommand_cases width s with ⟨-, -, h⟩ | ⟨-, h⟩
  all_goals
    cases h.symm.trans ht
    exact ⟨rfl, rfl, rfl⟩

theorem ecbCommand_keepsSlots {n T : Nat} {slot : Slot n T} {dir : Direction} {s t : State}
    (ht : ecbCommand slot dir s = .next t) : KeepsSlots s t := by
  rcases ecbCommand_cases slot dir s with ⟨-, h⟩ | ⟨-, h⟩
  all_goals
    cases h.symm.trans ht
    exact ⟨rfl, rfl, rfl⟩

theorem State.ctrBody_keepsSlots {T : Nat} (s : State) (rk : Vector (BitVec 64) T) : KeepsSlots s (s.ctrBody rk) := by
  simp [KeepsSlots, State.ctrBody, State.noteInput]

theorem ctrCommand_keepsSlots {T : Nat} {slot : Slot 64 T} {s t : State} (ht : ctrCommand slot s = .next t) :
    KeepsSlots s t := by
  rcases ctrCommand_cases slot s with ⟨-, h⟩ | ⟨-, -, h⟩ | ⟨-, -, -, h⟩ | ⟨-, -, -, -, -, h⟩ | ⟨-, -, -, -, -, h⟩
  all_goals cases h.symm.trans ht
  case inr.inr.inr.inr => exact s.ctrBody_keepsSlots slot.rk
  all_goals exact ⟨rfl, rfl, rfl⟩

/-- A command that is no key command changes no slot. -/
theorem exec_keepsSlots {i : Instr} {s t : State} (hi : i ∉ keyCommands) (ht : exec i s = .next t) :
    KeepsSlots s t := by
  cases i with
  | nop => cases ht; exact .refl s
  | hash16 | hash32 | hash64 | hash128 | hash256 => exact hashCommand_keepsSlots ht
  | kexpS | kexpH | kexpIV | kclrS | kclrH | kclrIV => exact absurd (by decide) hi
  | ecbEncS | ecbEncH | ecbEncIV | ecbDecS | ecbDecH | ecbDecIV => exact ecbCommand_keepsSlots ht
  | ctrS | ctrH => exact ctrCommand_keepsSlots ht

/-- Running the latch changes no slot unless it holds a key command. -/
theorem runLatch_slots {s t : State} (ht : runLatch s = .next t) :
    KeepsSlots s t ∨ ∃ i ∈ keyCommands, decode s.cmdl = .ok i := by
  rcases runLatch_cases s with ⟨-, h⟩ | ⟨i, hdec, h⟩
  · cases h.symm.trans ht
    exact .inl (.refl s)
  · by_cases hi : i ∈ keyCommands
    · exact .inr ⟨i, hi, hdec⟩
    · exact .inl (exec_keepsSlots hi (h.symm.trans ht))

theorem engineStep_slots {s t : State} (ht : engineStep s = .next t) :
    KeepsSlots s t ∨ ∃ i ∈ keyCommands, decode s.cmdl = .ok i := by
  rcases engineStep_cases s with ⟨-, e⟩ | ⟨-, u, hu, e⟩
  · exact runLatch_slots (e.symm.trans ht)
  · cases e.symm.trans ht
    have run : KeepsSlots s.disturb u ∨ ∃ i ∈ keyCommands, decode s.disturb.cmdl = .ok i := runLatch_slots hu
    exact run

/-- A host move changes no slot unless it is a reset. -/
theorem HostShape.slots {e : HostEvent} {s t : State} (shape : HostShape e s t) : KeepsSlots s t ∨ e = .reset := by
  cases shape with
  | register offset a =>
    have k := registerAccess_keeps offset a s
    exact .inl ⟨k.slotS, k.slotH, k.slotIV⟩
  | dmemWhileBusy _ address a => rw [busyDmemAccess_eq]; exact .inl (.refl s)
  | poll => rw [poll_eq]; exact .inl (.refl s)
  | reset he => exact .inr he
  | _ => exact .inl (.refl s)

theorem hostMove_slots {e : HostEvent} {s t : State} (ht : hostMove e s = .next t) : KeepsSlots s t ∨ e = .reset := by
  obtain ⟨u, hu, shape⟩ := hostMove_shape e s
  cases hu.symm.trans ht
  exact shape.slots

/-- The host moves only where it is not the engine's turn, and its move is the first event to come. -/
theorem State.mover_host {s : State} {e : HostEvent} {rest : List HostEvent} (h : s.mover = .host e rest) :
    ¬ s.engineTurn ∧ s.pending.head? = some e := by
  rcases s.mover_cases with ⟨hm, -⟩ | ⟨e', rest', hm, hp, hturn⟩ | ⟨hm, -⟩
  · cases hm.symm.trans h
  · cases hm.symm.trans h
    refine ⟨fun ⟨hb, hnone⟩ => ?_, by rw [hp]; rfl⟩
    exact hnone.elim (hturn hb) (fun hnil => nomatch hp.symm.trans hnil)
  · cases hm.symm.trans h

/-- The engine moves only on its turn. -/
theorem State.engineTurn_of_mover {s : State} (h : s.mover = .engine) : s.engineTurn := by
  rcases s.mover_cases with ⟨-, hb, ht⟩ | ⟨_, _, hm, -⟩ | ⟨hm, -⟩
  · exact ⟨hb, ht⟩
  · cases hm.symm.trans h
  · cases hm.symm.trans h

end Sys2Proof.Machine

namespace Sys2Proof.Proofs

open Sys2Proof.Machine Sys2Proof.Spec

/-- Settles O54: the engine's step, the host's move and nobody's turn each keep the invariant. -/
theorem stepKeepsInvariant : Obligations.StepKeepsInvariant := by
  intro s t h ht
  rcases step_cases s with ⟨-, e⟩ | ⟨_, rest, -, e⟩ | ⟨-, e⟩
  · exact engineStep_inv h (e.symm.trans ht)
  · exact hostMove_inv (h.takeTurn rest) (e.symm.trans ht)
  · cases e.symm.trans ht
    exact h

/-- Settles O55, over the shapes of the engine's step and of the host's move. -/
theorem stepKeepsParametersAndFaults : Obligations.StepKeepsParametersAndFaults := by
  intro s t ht
  rcases step_cases s with ⟨-, e⟩ | ⟨_, rest, -, e⟩ | ⟨-, e⟩
  · exact engineStep_keepsParamsAndFaults (e.symm.trans ht)
  · have move : KeepsParamsAndFaults (s.takeTurn rest) t := hostMove_keepsParamsAndFaults (e.symm.trans ht)
    exact move
  · cases e.symm.trans ht
    exact KeepsParamsAndFaults.refl s

/-- Settles O56: the engine writes a slot by a key command alone, the host by a reset alone. -/
theorem onlyKeyCommandsWriteSlots : Obligations.OnlyKeyCommandsWriteSlots := by
  intro s t ht
  rcases step_cases s with ⟨hm, e⟩ | ⟨_, rest, hm, e⟩ | ⟨-, e⟩
  · exact (engineStep_slots (e.symm.trans ht)).imp_right fun key => .inr ⟨State.engineTurn_of_mover hm, key⟩
  · refine (hostMove_slots (e.symm.trans ht)).imp_right fun he => .inl ?_
    exact he ▸ State.mover_host hm
  · cases e.symm.trans ht
    exact .inl (KeepsSlots.refl s)

end Sys2Proof.Proofs
end

section
/-! PROOFS, family 10_state.md. The register window: which offset is which register, and what an aligned 32-bit access
of each register does while idle and while BUSY. -/

namespace Sys2Proof.Machine

open Sys2Proof.Spec

/-! ### Offsets (`10_state.md` R31) -/

/-- Every register stands at its offset. -/
theorem regAt_regOffset (r : Reg) : regAt (regOffset r) = some r := by
  cases r with
  | key r | nonce r | block r | digest r => revert r; decide
  | _ => rfl

theorem regOffset_injective : Function.Injective regOffset := fun r r' h =>
  Option.some.inj ((regAt_regOffset r).symm.trans (h ▸ regAt_regOffset r'))

/-- Every register's offset is that of an aligned 32-bit access. -/
theorem regOffset_aligned (r : Reg) : regOffset r % 4 = 0 ∧ regOffset r < 0x1000 := by
  cases r with
  | key r | nonce r | block r | digest r => revert r; decide
  | _ => decide

/-- An aligned offset between the named registers, or past DIGEST7, is reserved (`10_state.md` R33). -/
theorem regAt_reserved {o : Nat} (h : o = 0x00C ∨ o = 0x01C ∨ 0x080 ≤ o) : regAt o = none := by
  rcases h with rfl | rfl | h
  · rfl
  · rfl
  · unfold regAt
    repeat rw [if_neg (by omega)]

theorem exists_regOffset_key {o : Nat} (hal : o % 4 = 0) (h : 0x020 ≤ o ∧ o < 0x040) : ∃ r, o = regOffset (.key r) :=
  ⟨⟨(o - 0x020) / 4, by omega⟩, by simp only [regOffset]; omega⟩

theorem exists_regOffset_nonce {o : Nat} (hal : o % 4 = 0) (h : 0x040 ≤ o ∧ o < 0x050) :
    ∃ r, o = regOffset (.nonce r) :=
  ⟨⟨(o - 0x040) / 4, by omega⟩, by simp only [regOffset]; omega⟩

theorem exists_regOffset_block {o : Nat} (hal : o % 4 = 0) (h : 0x050 ≤ o ∧ o < 0x060) :
    ∃ r, o = regOffset (.block r) :=
  ⟨⟨(o - 0x050) / 4, by omega⟩, by simp only [regOffset]; omega⟩

theorem exists_regOffset_digest {o : Nat} (hal : o % 4 = 0) (h : 0x060 ≤ o ∧ o < 0x080) :
    ∃ r, o = regOffset (.digest r) :=
  ⟨⟨(o - 0x060) / 4, by omega⟩, by simp only [regOffset]; omega⟩

/-! ### Kinds of registers -/

/-- An operand register: SRC, DST, LEN, KEY, NONCE or BLOCK. -/
inductive IsOperand : Reg → Prop where
  | src : IsOperand .src
  | dst : IsOperand .dst
  | len : IsOperand .len
  | key (r : Fin 8) : IsOperand (.key r)
  | nonce (r : Fin 4) : IsOperand (.nonce r)
  | block (r : Fin 4) : IsOperand (.block r)

/-- A register that a running command may change: NONCE, BLOCK or DIGEST (`10_state.md` R34). -/
inductive IsResult : Reg → Prop where
  | nonce (r : Fin 4) : IsResult (.nonce r)
  | block (r : Fin 4) : IsResult (.block r)
  | digest (r : Fin 8) : IsResult (.digest r)

/-- The offsets of the operand registers. -/
theorem exists_operand {o : Nat} (hal : o % 4 = 0) (h : o = 0x010 ∨ o = 0x014 ∨ o = 0x018 ∨ (0x020 ≤ o ∧ o < 0x060)) :
    ∃ r, IsOperand r ∧ o = regOffset r := by
  rcases h with rfl | rfl | rfl | h
  · exact ⟨_, .src, rfl⟩
  · exact ⟨_, .dst, rfl⟩
  · exact ⟨_, .len, rfl⟩
  · by_cases hk : o < 0x040
    · obtain ⟨r, rfl⟩ := exists_regOffset_key hal ⟨h.1, hk⟩
      exact ⟨_, .key r, rfl⟩
    · by_cases hn : o < 0x050
      · obtain ⟨r, rfl⟩ := exists_regOffset_nonce hal ⟨by omega, hn⟩
        exact ⟨_, .nonce r, rfl⟩
      · obtain ⟨r, rfl⟩ := exists_regOffset_block hal ⟨by omega, h.2⟩
        exact ⟨_, .block r, rfl⟩

/-- The offsets of the result registers. -/
theorem exists_result {o : Nat} (hal : o % 4 = 0) (h : 0x040 ≤ o ∧ o < 0x080) : ∃ r, IsResult r ∧ o = regOffset r := by
  by_cases hn : o < 0x050
  · obtain ⟨r, rfl⟩ := exists_regOffset_nonce hal ⟨h.1, hn⟩
    exact ⟨_, .nonce r, rfl⟩
  · by_cases hb : o < 0x060
    · obtain ⟨r, rfl⟩ := exists_regOffset_block hal ⟨by omega, hb⟩
      exact ⟨_, .block r, rfl⟩
    · obtain ⟨r, rfl⟩ := exists_regOffset_digest hal ⟨by omega, h.2⟩
      exact ⟨_, .digest r, rfl⟩

/-! ### Accesses at an offset -/

theorem registerAccessOk_word {o : Nat} {a : Access} (hw : a.width = .word) (hal : o % 4 = 0) (ho : o < 0x1000) :
    registerAccessOk o a = true := by
  simp [registerAccessOk, hw, hal, ho]

theorem hostWrite_aligned {o : Nat} (hal : o % 4 = 0) (ho : o < 0x1000) (v : Word) (s : State) :
    hostWrite o v s = .next (answered (s.writeReg v (regAt o)) .accepted) := by
  rw [hostWrite, hostMove, registerAccess, registerAccessOk_word rfl hal ho]
  rfl

theorem hostRead_aligned {o : Nat} (hal : o % 4 = 0) (ho : o < 0x1000) (s : State) :
    hostRead o s = .next (s.readReg (regAt o)) := by
  rw [hostRead, hostMove, registerAccess, registerAccessOk_word rfl hal ho]
  rfl

/-- A write to a register's offset is a write to that register. -/
theorem hostWrite_regOffset (r : Reg) (v : Word) (s : State) :
    hostWrite (regOffset r) v s = .next (answered (s.writeReg v (some r)) .accepted) := by
  obtain ⟨hal, ho⟩ := regOffset_aligned r
  rw [hostWrite_aligned hal ho, regAt_regOffset]

/-- A read at a register's offset is a read of that register. -/
theorem hostRead_regOffset (r : Reg) (s : State) : hostRead (regOffset r) s = .next (s.readReg (some r)) := by
  obtain ⟨hal, ho⟩ := regOffset_aligned r
  rw [hostRead_aligned hal ho, regAt_regOffset]

theorem hostWrite_reserved {o : Nat} (h : o = 0x00C ∨ o = 0x01C ∨ 0x080 ≤ o) (hal : o % 4 = 0) (ho : o < 0x1000)
    (v : Word) (s : State) : hostWrite o v s = .next (answered s .accepted) := by
  rw [hostWrite_aligned hal ho, regAt_reserved h]
  rfl

theorem hostRead_reserved {o : Nat} (h : o = 0x00C ∨ o = 0x01C ∨ 0x080 ≤ o) (hal : o % 4 = 0) (ho : o < 0x1000)
    (s : State) : hostRead o s = .next (answered s (.data 0)) := by
  rw [hostRead_aligned hal ho, regAt_reserved h]
  rfl

/-- A write to a reserved offset or to DIGEST is ignored, BUSY or not (`10_state.md` R33, R34). -/
theorem hostWrite_ignored {o : Nat} (hal : o % 4 = 0) (h : o = 0x00C ∨ o = 0x01C ∨ (0x060 ≤ o ∧ o < 0x1000))
    (v : Word) (s : State) : hostWrite o v s = .next (answered s .accepted) := by
  by_cases hd : 0x060 ≤ o ∧ o < 0x080
  · obtain ⟨r, rfl⟩ := exists_regOffset_digest hal hd
    exact hostWrite_regOffset (.digest r) v s
  · exact hostWrite_reserved (by omega) hal (by omega) v s

/-! ### Registers while idle and while BUSY (`10_state.md` R34) -/

theorem State.guarded_busy {s : State} (hb : s.busy = true) (s' : State) : s.guarded s' = { s with ovr := true } :=
  if_pos hb

theorem State.guarded_idle {s : State} (hb : s.busy = false) (s' : State) : s.guarded s' = s' := by
  simp [State.guarded, hb]

theorem State.readResult_idle {s : State} (hb : s.busy = false) (v : Word) :
    s.readResult v = answered s (.data v) := by
  simp [State.readResult, hb, State.respond, answered]

theorem State.readResult_busy {s : State} (hb : s.busy = true) (v : Word) :
    s.readResult v = { answered s (.data (Config.busyReadValue s.draws)) with draws := s.draws + 1 } :=
  if_pos hb

/-- While BUSY a write to an operand register is ignored and sets OVR. -/
theorem State.writeReg_operand_busy {s : State} {r : Reg} (hr : IsOperand r) (hb : s.busy = true) (v : Word) :
    s.writeReg v (some r) = { s with ovr := true } := by
  cases hr <;> exact State.guarded_busy hb _

/-- While BUSY a read of a result register answers a free value. -/
theorem State.readReg_result_busy {s : State} {r : Reg} (hr : IsResult r) (hb : s.busy = true) :
    s.readReg (some r) = { answered s (.data (Config.busyReadValue s.draws)) with draws := s.draws + 1 } := by
  cases hr <;> exact State.readResult_busy hb _

/-- The CTRL word is IE (`10_state.md` R45). -/
theorem State.ctrlWord_eq (s : State) : s.ctrlWord = if s.ie then 1 else 0 := by
  unfold State.ctrlWord
  cases s.ie <;> rfl

theorem hostRead_ctrl (s : State) : hostRead 0x008 s = .next (answered s (.data (if s.ie then 1 else 0))) :=
  s.ctrlWord_eq ▸ hostRead_regOffset .ctrl s

/-! ### The words of the operand and result registers -/

/-- The word a register of operands or results holds. -/
def State.regValue (s : State) : Reg → Word
  | .src => s.src
  | .dst => s.dst
  | .len => s.len
  | .key r => s.key[r]
  | .nonce r => s.nonce[r]
  | .block r => s.block[r]
  | .digest r => s.digest[r]
  | .cmd | .status | .ctrl => 0

/-- An operand or result register that the host can read: all but KEY (`10_state.md` R37). -/
inductive IsReadable : Reg → Prop where
  | src : IsReadable .src
  | dst : IsReadable .dst
  | len : IsReadable .len
  | result {r : Reg} (h : IsResult r) : IsReadable r

/-- The offsets of the readable operand and result registers. -/
theorem exists_readable {p : Nat} (hal : p % 4 = 0) (h : p = 0x010 ∨ p = 0x014 ∨ p = 0x018 ∨ (0x040 ≤ p ∧ p < 0x080)) :
    ∃ r, IsReadable r ∧ p = regOffset r := by
  rcases h with rfl | rfl | rfl | h
  · exact ⟨_, .src, rfl⟩
  · exact ⟨_, .dst, rfl⟩
  · exact ⟨_, .len, rfl⟩
  · exact (exists_result hal h).imp fun _ hr => ⟨.result hr.1, hr.2⟩

/-- While idle a readable register answers its word. -/
theorem State.readReg_readable_idle {s : State} {r : Reg} (hr : IsReadable r) (hb : s.busy = false) :
    s.readReg (some r) = answered s (.data (s.regValue r)) := by
  cases hr with
  | src | dst | len => rfl
  | result h => cases h <;> exact State.readResult_idle hb _

/-- The state with an operand register set. -/
def State.setOperand (s : State) (v : Word) : Reg → State
  | .src => { s with src := v }
  | .dst => { s with dst := v }
  | .len => { s with len := v }
  | .key r => { s with key := s.key.set r v }
  | .nonce r => { s with nonce := s.nonce.set r v }
  | .block r => { s with block := s.block.set r v }
  | .cmd | .status | .ctrl | .digest _ => s

/-- While idle a write to an operand register sets it. -/
theorem State.writeReg_operand_idle {s : State} {r : Reg} (hr : IsOperand r) (hb : s.busy = false) (v : Word) :
    s.writeReg v (some r) = s.setOperand v r := by
  cases hr <;> exact State.guarded_idle hb _

theorem hostWrite_operand_idle {s : State} {r : Reg} (hr : IsOperand r) (hb : s.busy = false) (v : Word) :
    hostWrite (regOffset r) v s = .next (answered (s.setOperand v r) .accepted) :=
  State.writeReg_operand_idle hr hb v ▸ hostWrite_regOffset r v s

theorem hostRead_readable_idle {s : State} {r : Reg} (hr : IsReadable r) (hb : s.busy = false) :
    hostRead (regOffset r) s = .next (answered s (.data (s.regValue r))) :=
  State.readReg_readable_idle hr hb ▸ hostRead_regOffset r s

@[simp] theorem State.setOperand_busy (s : State) (v : Word) (r : Reg) : (s.setOperand v r).busy = s.busy := by
  cases r <;> rfl

/-- The operand register set holds the word. -/
theorem State.regValue_setOperand_same {r : Reg} (hr : IsOperand r) (s : State) (v : Word) :
    (s.setOperand v r).regValue r = v := by
  cases hr with
  | src | dst | len => rfl
  | key r | nonce r | block r => exact Vector.getElem_set_self r.isLt

/-- Every other register holds the word it held. -/
theorem State.regValue_setOperand_ne {r p : Reg} (hne : p ≠ r) (s : State) (v : Word) :
    (s.setOperand v r).regValue p = s.regValue p := by
  have other : ∀ {m : Nat} {i j : Fin m}, i ≠ j → j.val ≠ i.val := fun h he => h (Fin.ext he.symm)
  cases r with
  | cmd | status | ctrl | digest => rfl
  | src => cases p with
    | src => exact absurd rfl hne
    | _ => rfl
  | dst => cases p with
    | dst => exact absurd rfl hne
    | _ => rfl
  | len => cases p with
    | len => exact absurd rfl hne
    | _ => rfl
  | key j => cases p with
    | key i => exact Vector.getElem_set_ne j.isLt i.isLt (other fun h => hne (h ▸ rfl))
    | _ => rfl
  | nonce j => cases p with
    | nonce i => exact Vector.getElem_set_ne j.isLt i.isLt (other fun h => hne (h ▸ rfl))
    | _ => rfl
  | block j => cases p with
    | block i => exact Vector.getElem_set_ne j.isLt i.isLt (other fun h => hne (h ▸ rfl))
    | _ => rfl

/-! ### The STATUS word (`10_state.md` R43) -/

/-- Bit `j` of the STATUS word. -/
theorem State.statusWord_getLsbD (s : State) (j : Nat) : s.statusWord.getLsbD j =
    if j = 0 then s.busy else if j = 1 then s.done else if j = 2 then s.err else if j = 3 then s.ovr
    else if j < 8 then s.errcode.getLsbD (j - 4) else if j = 8 then s.slotS.valid else if j = 9 then s.slotH.valid
    else if j = 10 then s.slotIV.valid else false := by
  show BitVec.getLsbD (w := 21 + 1 + 1 + 1 + 4 + 1 + 1 + 1 + 1) s.statusWord j = _
  simp only [State.statusWord, BitVec.getLsbD_append]
  match j with
  | 0 | 1 | 2 | 3 | 4 | 5 | 6 | 7 | 8 | 9 | 10 | j + 11 => simp

/-- Bits 7:4 of the STATUS word are ERRCODE. -/
theorem State.statusWord_errcode (s : State) : s.statusWord.extractLsb' 4 4 = s.errcode := by
  apply BitVec.eq_of_getLsbD_eq
  intro j hj
  rw [BitVec.getLsbD_extractLsb', State.statusWord_getLsbD]
  repeat rw [if_neg (by omega)]
  rw [if_pos (by omega)]
  simp [hj]

/-- Bits 31:11 of the STATUS word are 0. -/
theorem State.statusWord_reserved (s : State) : s.statusWord.extractLsb' 11 21 = 0 := by
  apply BitVec.eq_of_getLsbD_eq
  intro j hj
  rw [BitVec.getLsbD_extractLsb', State.statusWord_getLsbD]
  repeat rw [if_neg (by omega)]
  simp

end Sys2Proof.Machine

namespace Sys2Proof.Proofs

open Sys2Proof.Machine Sys2Proof.Spec

/-- Settles O33, bit by bit. -/
theorem statusWordLayout : Obligations.StatusWordLayout := fun s =>
  ⟨s.statusWord_getLsbD 0, s.statusWord_getLsbD 1, s.statusWord_getLsbD 2, s.statusWord_getLsbD 3,
    s.statusWord_errcode, s.statusWord_getLsbD 8, s.statusWord_getLsbD 9, s.statusWord_getLsbD 10,
    s.statusWord_reserved⟩

/-- Settles O36, over the kinds of registers. -/
theorem registerAccessWhileBusy : Obligations.RegisterAccessWhileBusy := by
  intro s v o hb hal
  refine ⟨fun h => ?_, hostWrite_regOffset .ctrl v s, fun h => hostWrite_ignored hal h v s, fun h => ?_,
    hostRead_regOffset .src s, hostRead_regOffset .dst s, hostRead_regOffset .len s, hostRead_regOffset .status s,
    hostRead_ctrl s⟩
  · rcases h with rfl | h
    · exact State.guarded_busy hb (s.issue v) ▸ hostWrite_regOffset .cmd v s
    · obtain ⟨r, hr, rfl⟩ := exists_operand hal h
      exact State.writeReg_operand_busy hr hb v ▸ hostWrite_regOffset r v s
  · obtain ⟨r, hr, rfl⟩ := exists_result hal h
    exact ⟨_, State.readReg_result_busy hr hb ▸ hostRead_regOffset r s⟩

/-- Settles O37: a reserved offset is no register, CMD and KEY read 0, DIGEST ignores a write. -/
theorem reservedAndWriteOnlyAccess : Obligations.ReservedAndWriteOnlyAccess := by
  intro s v o hal
  refine ⟨fun h => ?_, fun h => hostWrite_ignored hal h v s⟩
  rcases h with rfl | rfl | rfl | h | h
  · exact hostRead_regOffset .cmd s
  · exact hostRead_reserved (by omega) hal (by omega) s
  · exact hostRead_reserved (by omega) hal (by omega) s
  · obtain ⟨r, rfl⟩ := exists_regOffset_key hal h
    exact hostRead_regOffset (.key r) s
  · exact hostRead_reserved (by omega) hal h.2 s

/-- Settles O38: the write sets one register's word, the read answers a register's word. -/
theorem writtenRegistersReadBack : Obligations.WrittenRegistersReadBack := by
  intro s v o p hb ho hp hwrite hread
  obtain ⟨r, hr, rfl⟩ := exists_operand ho hwrite
  obtain ⟨q, hq, rfl⟩ := exists_readable hp hread
  have hb' : (answered (s.setOperand v r) .accepted).busy = false := (s.setOperand_busy v r).trans hb
  refine ⟨_, _, _, hostWrite_operand_idle hr hb v, hostRead_readable_idle hq hb, hostRead_readable_idle hq hb', ?_, ?_⟩
  · intro he
    cases regOffset_injective he
    exact State.regValue_setOperand_same hr s v
  · intro hne
    exact State.regValue_setOperand_ne (fun he => hne (congrArg regOffset he)) s v

/-- Settles O39: an operand register is set while idle, CTRL always. -/
theorem registerWritesSetFields : Obligations.RegisterWritesSetFields := by
  intro s v
  refine ⟨fun hb => ?_, hostWrite_regOffset .ctrl v s⟩
  exact ⟨hostWrite_operand_idle .src hb v, hostWrite_operand_idle .dst hb v, hostWrite_operand_idle .len hb v,
    fun r => hostWrite_operand_idle (.key r) hb v, fun r => hostWrite_operand_idle (.nonce r) hb v,
    fun r => hostWrite_operand_idle (.block r) hb v⟩

/-- Settles O40: NONCE, BLOCK and DIGEST answer their word while idle, the others always. -/
theorem registerReadsAnswerFields : Obligations.RegisterReadsAnswerFields := by
  intro s
  refine ⟨hostRead_regOffset .status s, hostRead_ctrl s, hostRead_regOffset .src s, hostRead_regOffset .dst s,
    hostRead_regOffset .len s, fun hb => ?_⟩
  exact ⟨fun r => hostRead_readable_idle (.result (.nonce r)) hb, fun r => hostRead_readable_idle (.result (.block r)) hb,
    fun r => hostRead_readable_idle (.result (.digest r)) hb⟩

/-- Settles O35: CMD is issued while idle, guarded while BUSY. -/
theorem commandWriteIssues : Obligations.CommandWriteIssues := by
  intro s v
  have hw := hostWrite_regOffset .cmd v s
  constructor <;> intro hb
  · have issued : s.writeReg v (some .cmd) = s.issue v := State.guarded_idle hb _
    exact ⟨_, issued ▸ hw, rfl⟩
  · have ignored : s.writeReg v (some .cmd) = { s with ovr := true } := State.guarded_busy hb _
    exact ⟨_, ignored ▸ hw, rfl⟩

/-- Settles O34: the write is the host's acknowledgement. -/
theorem statusWriteClears : Obligations.StatusWriteClears := by
  intro s v
  refine ⟨answered (s.acknowledge v) .accepted, hostWrite_regOffset .status v s, rfl, ?_, ?_, ?_, rfl⟩
  all_goals simp only [answered, State.acknowledge]
  · cases v.getLsbD 1 <;> simp
  · cases v.getLsbD 3 <;> simp
  · cases v.getLsbD 2 <;> simp

/-- Settles O41: the access fails the check, so it is recorded and answered with a bus error. -/
theorem registerBusError : Obligations.RegisterBusError := by
  intro s o a h
  have hbad : registerAccessOk o a = false := by
    simp only [registerAccessOk, decide_eq_false_iff_not]
    rintro ⟨hw, hal, ho⟩
    rcases h with h | h | h
    · exact h hw
    · exact h hal
    · omega
  refine ⟨(s.record .registerBusError).respond (busErrorAnswer a), ?_, rfl, fun f => mem_addFault _ f s.faults⟩
  cases a <;> simp [hostMove, registerAccess, hbad, busErrorResponse, busErrorAnswer]

/-- Settles O51: the reset state has each field written out. -/
theorem resetValues : Obligations.ResetValues :=
  ⟨rfl, rfl, rfl, rfl, rfl, rfl, rfl, rfl, rfl, rfl, rfl, rfl, rfl, rfl, rfl, Memory.load?_nil⟩

/-- Settles O53: the parameters' constraints come with the platform, and DMEM and the slots are empty. -/
theorem resetHasInvariant : Obligations.ResetHasInvariant where
  paramsOk := Config.platform.wf
  memCanonical := reset_mem_wf
  memInRange := fun _ hc => nomatch hc
  noCodeWithoutErr := fun _ => rfl
  knownCode := fun he => nomatch he
  noKeyInS := fun _ => rfl
  noKeyInH := fun _ => rfl
  noKeyInIV := fun _ => rfl
  disturbedWhileBusy := fun hd => nomatch hd

end Sys2Proof.Proofs
end

section
/-! PROOFS, family 10_state.md. Key material and the host port: every host move commutes with replacing KEY and the round
keys. -/

namespace Sys2Proof.Machine

open Sys2Proof.Spec

/-- The second result is the first with other key material: both are next states, equal but for KEY and the round keys,
the VALID bits the same (`10_state.md` R37, R40). -/
def EqualButKeys (r r' : Result) : Prop :=
  ∃ t key rkS rkH rkIV, r = .next t ∧ r' = .next (withKeys t key rkS rkH rkIV)

/-- A guarded write commutes with the replacement of the keys where the write it guards does. -/
theorem guarded_withKeys {s : State} {key : Vector Word 8} {rkS : Vector (BitVec 64) 34} {rkH : Vector (BitVec 64) 32}
    {rkIV : Vector (BitVec 48) 28} {u u' : State} {key' : Vector Word 8} (h : u' = withKeys u key' rkS rkH rkIV) :
    ∃ key'', (withKeys s key rkS rkH rkIV).guarded u' = withKeys (s.guarded u) key'' rkS rkH rkIV := by
  cases hb : s.busy with
  | true => exact ⟨key, by simp [State.guarded, withKeys, hb]⟩
  | false => exact ⟨key', by simp [State.guarded, h, withKeys, hb]⟩

section
variable (s : State) (key : Vector Word 8) (rkS : Vector (BitVec 64) 34) (rkH : Vector (BitVec 64) 32)
  (rkIV : Vector (BitVec 48) 28)

theorem readResult_withKeys (v : Word) :
    (withKeys s key rkS rkH rkIV).readResult v = withKeys (s.readResult v) key rkS rkH rkIV := by
  unfold State.readResult
  rw [apply_ite (withKeys · key rkS rkH rkIV)]
  rfl

/-- A register read shows no key material: KEY reads 0. -/
theorem readReg_withKeys (r : Option Reg) :
    (withKeys s key rkS rkH rkIV).readReg r = withKeys (s.readReg r) key rkS rkH rkIV := by
  cases r with
  | none => rfl
  | some r =>
    cases r with
    | nonce r | block r | digest r => exact readResult_withKeys s key rkS rkH rkIV _
    | _ => rfl

/-- A register write moves key material into KEY alone. -/
theorem writeReg_withKeys (v : Word) (r : Option Reg) :
    ∃ key', (withKeys s key rkS rkH rkIV).writeReg v r = withKeys (s.writeReg v r) key' rkS rkH rkIV := by
  cases r with
  | none => exact ⟨key, rfl⟩
  | some r =>
    cases r with
    | status | ctrl | digest => exact ⟨key, rfl⟩
    | key r => exact guarded_withKeys (key' := key.set r v) rfl
    | _ => exact guarded_withKeys (key' := key) rfl

theorem registerAccess_withKeys (offset : Nat) (a : Access) :
    ∃ key', registerAccess offset a (withKeys s key rkS rkH rkIV) =
      withKeys (registerAccess offset a s) key' rkS rkH rkIV := by
  unfold registerAccess
  split
  · cases a with
    | read w => exact ⟨key, readReg_withKeys s key rkS rkH rkIV (regAt offset)⟩
    | write w v =>
      obtain ⟨key', h⟩ := writeReg_withKeys s key rkS rkH rkIV v (regAt offset)
      exact ⟨key', congrArg (State.respond · .accepted) h⟩
  · exact ⟨key, rfl⟩

/-- A DMEM access neither shows nor changes key material. -/
theorem dmemAccess_withKeys (address : Nat) (a : Access) :
    EqualButKeys (dmemAccess address a s) (dmemAccess address a (withKeys s key rkS rkH rkIV)) := by
  have hbusy : (withKeys s key rkS rkH rkIV).busy = s.busy := rfl
  have hbeyond : (withKeys s key rkS rkH rkIV).beyondMem address a = s.beyondMem address a := rfl
  unfold dmemAccess
  rw [hbusy, hbeyond]
  split
  · exact ⟨_, key, rkS, rkH, rkIV, rfl, by cases a <;> rfl⟩
  · split
    · exact ⟨_, key, rkS, rkH, rkIV, rfl, rfl⟩
    · cases a <;> exact ⟨_, key, rkS, rkH, rkIV, rfl, rfl⟩

theorem register_equalButKeys (offset : Nat) (a : Access) :
    EqualButKeys (.next (registerAccess offset a s)) (.next (registerAccess offset a (withKeys s key rkS rkH rkIV))) := by
  obtain ⟨key', h⟩ := registerAccess_withKeys s key rkS rkH rkIV offset a
  exact ⟨_, key', rkS, rkH, rkIV, rfl, congrArg _ h⟩

/-- Where the platform routes an access does not depend on the keys. -/
theorem platformAccess_withKeys (hostAddress : Nat) (a : Access) :
    EqualButKeys (platformAccess hostAddress a s) (platformAccess hostAddress a (withKeys s key rkS rkH rkIV)) := by
  have hparams : (withKeys s key rkS rkH rkIV).params = s.params := rfl
  rw [platformAccess, platformAccess, hparams]
  rcases route s.params hostAddress with _ | ⟨_ | _, n⟩
  · exact ⟨s, key, rkS, rkH, rkIV, rfl, rfl⟩
  · exact register_equalButKeys s key rkS rkH rkIV n a
  · exact dmemAccess_withKeys s key rkS rkH rkIV n a

theorem poll_withKeys : poll (withKeys s key rkS rkH rkIV) = withKeys (poll s) key rkS rkH rkIV := by
  rw [poll_eq, poll_eq]
  rfl

theorem hostMove_withKeys (e : HostEvent) :
    EqualButKeys (hostMove e s) (hostMove e (withKeys s key rkS rkH rkIV)) := by
  cases e with
  | register offset a => exact register_equalButKeys s key rkS rkH rkIV offset a
  | dmem address a => exact dmemAccess_withKeys s key rkS rkH rkIV address a
  | platform hostAddress a => exact platformAccess_withKeys s key rkS rkH rkIV hostAddress a
  | awaitIdle => exact ⟨_, key, rkS, rkH, rkIV, rfl, congrArg _ (poll_withKeys s key rkS rkH rkIV)⟩
  | reset => exact ⟨s.applyReset, _, _, _, _, rfl, rfl⟩

end

end Sys2Proof.Machine

namespace Sys2Proof.Proofs

open Sys2Proof.Machine Sys2Proof.Spec

/-- Settles O50: the run with other keys stays the same but for KEY and the round keys, move by move. -/
theorem hostCannotReadKeys : Obligations.HostCannotReadKeys :=
  fun e s key rkS rkH rkIV => hostMove_withKeys s key rkS rkH rkIV e

end Sys2Proof.Proofs
end

section
/-! PROOFS, family 20_memory.md. DMEM: the canonical form determines a memory, the host's accesses of DMEM and of its
windows, and the record of reads of unwritten bytes. -/

namespace Sys2Proof.Machine

open Sys2Proof.Spec

/-! ### The canonical form (`20_memory.md` R74) -/

/-- Below the addresses of a memory nothing has been written. -/
theorem Memory.load?_eq_none_of_lt {m : Memory} {x : Nat} (h : ∀ c ∈ m, x < c.1) : Memory.load? m x = none := by
  induction m with
  | nil => rfl
  | cons c rest ih =>
    obtain ⟨hc, hrest⟩ := List.forall_mem_cons.mp h
    rw [Memory.load?_cons, if_neg (Nat.ne_of_gt hc), ih hrest]

/-- In canonical form the cells of a memory are the bytes it reads. -/
theorem Memory.mem_iff_load? {m : Memory} (h : Memory.wf m = true) (c : Host.Cell) :
    c ∈ m ↔ Memory.load? m c.1 = some c.2 := by
  replace h : m.Pairwise fun c d => c.1 < d.1 := of_decide_eq_true h
  induction m with
  | nil => simp
  | cons d rest ih =>
    obtain ⟨hd, hrest⟩ := List.pairwise_cons.mp h
    rw [List.mem_cons, Memory.load?_cons]
    by_cases he : d.1 = c.1
    · have hnone : Memory.load? rest c.1 = none := Memory.load?_eq_none_of_lt (he ▸ hd)
      simp [ih hrest, hnone, he, Prod.ext_iff, eq_comm]
    · have hne : c ≠ d := fun h => he (h ▸ rfl)
      simp [ih hrest, he, hne]

/-! ### Little-endian values (`00_scope.md` R12) -/

theorem leNat_lt (bytes : List Byte) : leNat bytes < 2 ^ (8 * bytes.length) := by
  induction bytes with
  | nil => decide
  | cons b bs ih =>
    have hb : b.toNat < 2 ^ 8 := b.isLt
    rw [leNat, List.length_cons, Nat.mul_succ, Nat.pow_add]
    omega

/-- The value of a byte string is zero-extended. -/
theorem leValue_toNat_lt (n : Nat) (bytes : List Byte) : (leValue n bytes).toNat < 2 ^ (8 * bytes.length) := by
  rw [leValue, BitVec.toNat_ofNat]
  exact Nat.lt_of_le_of_lt (Nat.mod_le _ _) (leNat_lt bytes)

theorem accessWidth_bytes_le (w : AccessWidth) : w.bytes ≤ 4 := by cases w <;> decide

/-- Byte `i` of the value of the bytes read is the byte at `a + i`. -/
theorem leValue_readBytes_byte (s : State) (a : Nat) (w : AccessWidth) {i : Nat} (hi : i < w.bytes) :
    (leValue 32 (s.readBytes a w.bytes)).extractLsb' (8 * i) 8 = s.readByte (a + i) := by
  have hw := accessWidth_bytes_le w
  have hl : i < (s.readBytes a w.bytes).length := by simpa using hi
  rw [leValue_byte 32 _ i (by omega), List.getD_eq_getElem _ _ hl, State.readBytes_getElem]

/-- A byte written is the byte of the value at its place, low byte first. -/
theorem load?_writtenBytes (m : Memory) (a : Nat) (w : AccessWidth) (v : Word) {i : Nat} (hi : i < w.bytes) :
    Memory.load? (Memory.storeBytes m a ((leBytes v).take w.bytes)) (a + i) = some (v.extractLsb' (8 * i) 8) := by
  have hw := accessWidth_bytes_le w
  have hl : i < (leBytes v).length := by simp; omega
  rw [Memory.load?_storeBytes, writtenBytes_length, if_pos (by omega), Nat.add_sub_cancel_left,
    List.getElem?_take_of_lt hi, List.getElem?_eq_getElem hl, leBytes_getElem]

/-! ### Host accesses of DMEM (`20_memory.md` R76, R84) -/

theorem dmemAccess_busy {s : State} (hb : s.busy = true) (address : Nat) (a : Access) :
    dmemAccess address a s = .next (busyDmemAccess address a s) := if_pos hb

theorem dmemAccess_beyond {s : State} (hb : s.busy = false) {address : Nat} {a : Access}
    (h : s.params.memSize < address + a.width.bytes) :
    dmemAccess address a s = .next ((s.record .dmemBusError).respond (busErrorAnswer a)) := by
  have hm : s.beyondMem address a = true := decide_eq_true h
  have hr : busErrorResponse a = busErrorAnswer a := by cases a <;> rfl
  simp [dmemAccess, hb, hm, State.noteAccess_beyond hm, hr]

theorem dmemAccess_read {s : State} (hb : s.busy = false) {address : Nat} {w : AccessWidth}
    (h : address + w.bytes ≤ s.params.memSize) :
    dmemAccess address (.read w) s =
      .next ((s.noteReads address w.bytes).respond (.data (leValue 32 (s.readBytes address w.bytes)))) := by
  have hm : s.beyondMem address (.read w) = false := decide_eq_false (Nat.not_lt.mpr h)
  simp [dmemAccess, hb, hm, State.noteAccess_read hm]

theorem dmemAccess_write {s : State} (hb : s.busy = false) {address : Nat} {w : AccessWidth} (v : Word)
    (h : address + w.bytes ≤ s.params.memSize) :
    dmemAccess address (.write w v) s =
      .next ((s.writeBytes address ((leBytes v).take w.bytes)).respond .accepted) := by
  have hm : s.beyondMem address (.write w v) = false := decide_eq_false (Nat.not_lt.mpr h)
  simp [dmemAccess, hb, hm]

/-! ### The platform's windows (`20_memory.md` R73) -/

theorem route_regBase (p : Config.Params) {o : Nat} (ho : o < 0x1000) :
    route p (p.regBase + o) = some (.registers, o) := by
  rw [route, if_pos (by omega), Nat.add_sub_cancel_left]

/-- An address in the DMEM window is not one in the register window, which does not overlap it. -/
theorem route_dmemBase {p : Config.Params} (hw : p.windowsOk = true) {o : Nat} (ho : o < p.memSize) :
    route p (p.dmemBase + o) = some (.dmem, o) := by
  have apart : p.regBase + 4096 ≤ p.dmemBase ∨ p.dmemBase + p.memSize ≤ p.regBase := of_decide_eq_true hw
  rw [route, if_neg (by omega), if_pos (by omega), Nat.add_sub_cancel_left]

/-! ### The input of HASH and CTR (`20_memory.md` R75, R78) -/

theorem inputWritten_iff (s : State) : inputWritten s ↔ s.allWritten s.src.toNat s.len.toNat = true := by
  simp [inputWritten, State.allWritten]

/-- The fault record of `t` is that of `s` after the read of its input: the fault of an unwritten byte is added where
there is one, and nothing else (`20_memory.md` R75). -/
def RecordsInputRead (s t : State) : Prop :=
  (inputWritten s → t.faults = s.faults) ∧
  (¬ inputWritten s → ∀ f, f ∈ t.faults ↔ f = .unwrittenRead ∨ f ∈ s.faults)

theorem State.noteInput_recordsInputRead (s : State) : RecordsInputRead s s.noteInput := by
  refine ⟨fun h => if_pos ((inputWritten_iff s).mp h), fun h f => ?_⟩
  have noted : s.noteInput.faults = addFault .unwrittenRead s.faults := if_neg (mt (inputWritten_iff s).mpr h)
  rw [noted, mem_addFault]

/-- A HASH instruction is the HASH command of a digest width (`41_pearson.md` R152 to R156). -/
theorem exec_hash {i : Instr} (hi : i ∈ [Instr.hash16, .hash32, .hash64, .hash128, .hash256]) :
    ∃ width, exec i = hashCommand width := by
  simp only [List.mem_cons, List.not_mem_nil, or_false] at hi
  rcases hi with rfl | rfl | rfl | rfl | rfl
  · exact ⟨.w16, rfl⟩
  · exact ⟨.w32, rfl⟩
  · exact ⟨.w64, rfl⟩
  · exact ⟨.w128, rfl⟩
  · exact ⟨.w256, rfl⟩

/-- A HASH whose input lies in DMEM reads it and writes the digest. -/
theorem hashCommand_inDmem (width : DigestWidth) {s : State} (h : inDmem s s.src) :
    hashCommand width s = .next (s.noteInput.setDigest (pearson s.params width s.inputBytes)).complete := by
  have hin : s.exceedsMem s.src = false := (s.exceedsMem_eq_false s.src).mpr h
  simp [hashCommand, hin]

theorem hashCommand_recordsInputRead (width : DigestWidth) {s : State} (h : inDmem s s.src) :
    ∃ t, hashCommand width s = .next t ∧ RecordsInputRead s t :=
  ⟨_, hashCommand_inDmem width h, s.noteInput_recordsInputRead⟩

/-- Buffers that are one or do not intersect pass the check (`20_memory.md` R80). -/
theorem buffersOverlap_eq_false {s : State} (h : s.src = s.dst ∨ s.src.toNat + s.len.toNat ≤ s.dst.toNat ∨
    s.dst.toNat + s.len.toNat ≤ s.src.toNat) : s.buffersOverlap = false := by
  simp only [State.buffersOverlap, decide_eq_false_iff_not]
  rintro ⟨hne, hs, hd⟩
  rcases h with h | h | h
  · exact hne h
  · omega
  · omega

/-- A CTR command that passes its checks runs its body. -/
theorem ctrCommand_accepted {T : Nat} {slot : Slot 64 T} {s : State} (h : ctrAccepted slot.valid s) :
    ctrCommand slot s = .next (s.ctrBody slot.rk).complete := by
  obtain ⟨hvalid, hlen, hsrc, hdst, hapart⟩ := h
  have hlen' : s.len ≠ 0#32 := hlen
  simp [ctrCommand, hvalid, hlen', (s.exceedsMem_eq_false s.src).mpr hsrc, (s.exceedsMem_eq_false s.dst).mpr hdst,
    buffersOverlap_eq_false hapart]

theorem ctrCommand_recordsInputRead {T : Nat} {slot : Slot 64 T} {s : State} (h : ctrAccepted slot.valid s) :
    ∃ t, ctrCommand slot s = .next t ∧ RecordsInputRead s t :=
  ⟨_, ctrCommand_accepted h, s.noteInput_recordsInputRead⟩

end Sys2Proof.Machine

namespace Sys2Proof.Proofs

open Sys2Proof.Machine Sys2Proof.Spec

/-- Settles O59: in canonical form the cells are the bytes read, and two strictly rising lists with the same cells are
the same list. -/
theorem canonicalMemoriesAreEqual : Obligations.CanonicalMemoriesAreEqual := by
  intro m m' h h' hload
  have antisymm : Std.Antisymm fun c d : Host.Cell => c.1 < d.1 := ⟨fun _ _ hcd hdc => absurd hcd (Nat.lt_asymm hdc)⟩
  have irrefl : Std.Irrefl fun c d : Host.Cell => c.1 < d.1 := ⟨fun c => Nat.lt_irrefl c.1⟩
  refine List.Pairwise.eq_of_mem_iff (of_decide_eq_true h) (of_decide_eq_true h') fun c => ?_
  rw [Memory.mem_iff_load? h, Memory.mem_iff_load? h', hload]

/-- Settles O42: the write, the read and the bus error of an idle access. -/
theorem hostDmemAccess : Obligations.HostDmemAccess := by
  intro s a w v hb
  refine ⟨fun hin => ⟨?_, ?_⟩, ?_⟩
  · refine ⟨_, dmemAccess_write hb v hin, rfl, fun i hi => load?_writtenBytes s.mem a w v hi, fun x hx => ?_⟩
    have outside : ¬ (a ≤ x ∧ x < a + ((leBytes v).take w.bytes).length) := by
      rw [writtenBytes_length]
      omega
    exact (Memory.load?_storeBytes s.mem a x _).trans (if_neg outside)
  · refine ⟨_, _, dmemAccess_read hb hin, rfl, fun i hi => leValue_readBytes_byte s a w hi, ?_, fun f => ?_⟩
    · simpa using leValue_toNat_lt 32 (s.readBytes a w.bytes)
    · exact (s.mem_noteReads a w.bytes f).trans or_comm
  · rintro hout acc rfl
    exact ⟨_, dmemAccess_beyond hb hout, rfl, fun f => mem_addFault _ f s.faults⟩

/-- Settles O43: the access is recorded as one while BUSY and as whatever else it is. -/
theorem dmemAccessWhileBusyFaults : Obligations.DmemAccessWhileBusyFaults := by
  intro s a acc hb
  have move : hostMove (.dmem a acc) s = .next (busyDmemAccess a acc s) := dmemAccess_busy hb a acc
  rw [busyDmemAccess_eq] at move
  refine ⟨_, busyDmemResponse s.draws acc, move, rfl, ?_, ?_, fun f => ?_⟩
  · rintro w rfl
    rfl
  · rintro w v rfl
    rfl
  · exact (mem_recordBusyAccess s a acc f).trans (or_congr_right (mem_noteAccess s a acc f))

/-- Settles O49, by the route of an address in either window. -/
theorem platformAddressesReachTheWindows : Obligations.PlatformAddressesReachTheWindows := by
  intro s o a hw
  refine ⟨fun ho => ?_, fun ho => ?_⟩
  · simp only [hostMove, platformAccess, route_regBase s.params ho]
  · simp only [hostMove, platformAccess, route_dmemBase hw ho]

/-- Settles O17: HASH and CTR record what the read of their input records. -/
theorem unwrittenReadsRecorded : Obligations.UnwrittenReadsRecorded := by
  intro s _
  refine ⟨fun hin i hi => ?_, fun i hi hacc => ?_⟩
  · obtain ⟨width, hexec⟩ := exec_hash hi
    rw [hexec]
    exact hashCommand_recordsInputRead width hin
  · simp only [List.mem_cons, List.not_mem_nil, or_false] at hi
    rcases hi with rfl | rfl
    · exact ctrCommand_recordsInputRead (slot := s.slotS) hacc
    · exact ctrCommand_recordsInputRead (slot := s.slotH) hacc

end Sys2Proof.Proofs
end

section
/-! PROOFS, family 30_encoding.md. The decoder and the encoder undo each other, what each family of commands can change,
and the events of the statements of a host program. -/

namespace Sys2Proof

open Sys2Proof.Spec Sys2Proof.Laws

/-! ### The decoder (`30_encoding.md` R100 to R105) -/

/-- The lemmas of the single commands, for any command. -/
theorem roundTrip : ∀ i : Instr, RoundTrip.Statement i
  | .nop => RoundTrip.nop
  | .hash16 => RoundTrip.hash16 | .hash32 => RoundTrip.hash32 | .hash64 => RoundTrip.hash64
  | .hash128 => RoundTrip.hash128 | .hash256 => RoundTrip.hash256
  | .kexpS => RoundTrip.kexpS | .kexpH => RoundTrip.kexpH | .kexpIV => RoundTrip.kexpIV
  | .kclrS => RoundTrip.kclrS | .kclrH => RoundTrip.kclrH | .kclrIV => RoundTrip.kclrIV
  | .ecbEncS => RoundTrip.ecbEncS | .ecbEncH => RoundTrip.ecbEncH | .ecbEncIV => RoundTrip.ecbEncIV
  | .ecbDecS => RoundTrip.ecbDecS | .ecbDecH => RoundTrip.ecbDecH | .ecbDecIV => RoundTrip.ecbDecIV
  | .ctrS => RoundTrip.ctrS | .ctrH => RoundTrip.ctrH

theorem decode_encode (i : Instr) : decode (encode i) = .ok i := (roundTrip i).2

/-- The fields of a word make up the word. -/
theorem toWord_ofWord (w : Word) : (CommandFields.ofWord w).toWord = w := by
  show w.extractLsb' 8 24 ++ w.extractLsb' 4 4 ++ w.extractLsb' 0 4 = w
  rw [BitVec.extractLsb'_append_extractLsb'_eq_extractLsb' (by rfl),
    BitVec.extractLsb'_append_extractLsb'_eq_extractLsb' (by rfl), BitVec.extractLsb'_eq_self]

section
variable {f : BitVec 4} {i : Instr}

theorem fields_of_decodeHash (h : decodeHash f = .ok i) : i.fields = ⟨0, 1, f⟩ := by
  unfold decodeHash at h
  split at h <;> cases h
  all_goals simp [Instr.fields, ← BitVec.toNat_inj, *]

theorem fields_of_decodeKey (h : decodeKey f = .ok i) : i.fields = ⟨0, 2, f⟩ := by
  unfold decodeKey at h
  split at h <;> cases h
  all_goals simp [Instr.fields, slotFunc, SlotCode.bits, ← BitVec.toNat_inj, *]

theorem fields_of_decodeEcb (h : decodeEcb f = .ok i) : i.fields = ⟨0, 3, f⟩ := by
  unfold decodeEcb at h
  split at h <;> cases h
  all_goals simp [Instr.fields, slotFunc, SlotCode.bits, ← BitVec.toNat_inj, *]

theorem fields_of_decodeCtr (h : decodeCtr f = .ok i) : i.fields = ⟨0, 4, f⟩ := by
  unfold decodeCtr at h
  split at h <;> cases h
  all_goals simp [Instr.fields, slotFunc, SlotCode.bits, ← BitVec.toNat_inj, *]

end

/-- Fields decode to no command but the one that has them: RSV is 0, and the class fixes the decoder of FUNC. -/
theorem fields_of_decodeFields {f : CommandFields} {i : Instr} (h : decodeFields f = .ok i) : i.fields = f := by
  obtain ⟨rsv, cls, func⟩ := f
  unfold decodeFields at h
  split at h
  · next hrsv =>
    cases hrsv
    split at h
    case h_1 hcls =>
      obtain rfl : cls = 0 := BitVec.eq_of_toNat_eq hcls
      split at h
      · next hfunc => cases hfunc; cases h; rfl
      · cases h
    case h_2 hcls =>
      obtain rfl : cls = 1 := BitVec.eq_of_toNat_eq hcls
      exact fields_of_decodeHash h
    case h_3 hcls =>
      obtain rfl : cls = 2 := BitVec.eq_of_toNat_eq hcls
      exact fields_of_decodeKey h
    case h_4 hcls =>
      obtain rfl : cls = 3 := BitVec.eq_of_toNat_eq hcls
      exact fields_of_decodeEcb h
    case h_5 hcls =>
      obtain rfl : cls = 4 := BitVec.eq_of_toNat_eq hcls
      exact fields_of_decodeCtr h
    case h_6 => cases h
  · cases h

/-- A word decodes to a command exactly when it is the command's own. -/
theorem decode_eq_ok_iff (w : Word) (i : Instr) : decode w = .ok i ↔ w = encode i := by
  refine ⟨fun h => ?_, fun h => h ▸ decode_encode i⟩
  calc w = (CommandFields.ofWord w).toWord := (toWord_ofWord w).symm
    _ = encode i := by rw [encode, fields_of_decodeFields h]

/-- The opcode map pairs each command with its own word, and with no other (`30_encoding.md` R104). -/
theorem mem_opcodeTable_iff (w : Word) (i : Instr) : (w, i) ∈ opcodeTable ↔ w = encode i := by
  have words : ∀ p ∈ opcodeTable, p.1 = encode p.2 := by decide
  refine ⟨words (w, i), ?_⟩
  rintro rfl
  cases i <;> decide

end Sys2Proof

namespace Sys2Proof.Machine

open Sys2Proof.Spec

/-! ### What each family of commands can change (`30_encoding.md` R103) -/

/-- The HASH commands (`41_pearson.md` R152 to R156). -/
def hashCommands : List Instr := [.hash16, .hash32, .hash64, .hash128, .hash256]

/-- The ECB commands (`43_ecb.md` R200 to R205). -/
def ecbCommands : List Instr := [.ecbEncS, .ecbEncH, .ecbEncIV, .ecbDecS, .ecbDecH, .ecbDecIV]

/-- The CTR commands (`44_ctr.md` R225, R226). -/
def ctrCommands : List Instr := [.ctrS, .ctrH]

/-- The states command `i` leads to: rejected or with nothing done, or with the results of its own family written. -/
inductive ResultShape (i : Instr) (s : State) : State → Prop where
  | rejected (e : ErrorCode) : ResultShape i s (s.reject e)
  | nothing : ResultShape i s s.complete
  | hash (hi : i ∈ hashCommands) (d : List Byte) : ResultShape i s (s.noteInput.setDigest d).complete
  | slotS (hi : i ∈ [Instr.kexpS, .kclrS]) (x : Slot 64 34) : ResultShape i s (s.setSlotS x).complete
  | slotH (hi : i ∈ [Instr.kexpH, .kclrH]) (x : Slot 64 32) : ResultShape i s (s.setSlotH x).complete
  | slotIV (hi : i ∈ [Instr.kexpIV, .kclrIV]) (x : Slot 48 28) : ResultShape i s (s.setSlotIV x).complete
  | ecb (hi : i ∈ ecbCommands) (b : List Byte) : ResultShape i s (s.setBlock b).complete
  | ctr (hi : i ∈ ctrCommands) {T : Nat} (rk : Vector (BitVec 64) T) : ResultShape i s (s.ctrBody rk).complete

/-- The operands, the flags and the model's own fields that no command writes. -/
def KeepsOperands (s t : State) : Prop :=
  t.src = s.src ∧ t.dst = s.dst ∧ t.len = s.len ∧ t.ie = s.ie ∧ t.key = s.key ∧ t.ovr = s.ovr ∧ t.cmdl = s.cmdl ∧
  t.nonce[2] = s.nonce[2] ∧ t.nonce[3] = s.nonce[3] ∧ t.params = s.params ∧ t.pending = s.pending ∧
  t.responses = s.responses ∧ t.hostTurns = s.hostTurns ∧ t.draws = s.draws ∧ t.epoch = s.epoch ∧
  t.disturbed = s.disturbed

section
variable {i : Instr} {s t : State}

theorem hashCommand_resultShape {width : DigestWidth} (hi : i ∈ hashCommands)
    (ht : hashCommand width s = .next t) : ResultShape i s t := by
  rcases hashCommand_cases width s with ⟨-, -, h⟩ | ⟨-, h⟩
  all_goals cases h.symm.trans ht
  · exact .rejected .range
  · exact .hash hi _

theorem ecbCommand_resultShape {n T : Nat} {slot : Slot n T} {dir : Direction} (hi : i ∈ ecbCommands)
    (ht : ecbCommand slot dir s = .next t) : ResultShape i s t := by
  rcases ecbCommand_cases slot dir s with ⟨-, h⟩ | ⟨-, h⟩
  all_goals cases h.symm.trans ht
  · exact .rejected .noKey
  · exact .ecb hi _

theorem ctrCommand_resultShape {T : Nat} {slot : Slot 64 T} (hi : i ∈ ctrCommands)
    (ht : ctrCommand slot s = .next t) : ResultShape i s t := by
  rcases ctrCommand_cases slot s with ⟨-, h⟩ | ⟨-, -, h⟩ | ⟨-, -, -, h⟩ | ⟨-, -, -, -, -, h⟩ | ⟨-, -, -, -, -, h⟩
  all_goals cases h.symm.trans ht
  · exact .rejected .noKey
  · exact .nothing
  · exact .rejected .range
  · exact .rejected .overlap
  · exact .ctr hi slot.rk

theorem exec_resultShape (ht : exec i s = .next t) : ResultShape i s t := by
  cases i with
  | nop => cases ht; exact .nothing
  | hash16 | hash32 | hash64 | hash128 | hash256 => exact hashCommand_resultShape (by decide) ht
  | kexpS | kclrS => cases ht; exact .slotS (by decide) _
  | kexpH | kclrH => cases ht; exact .slotH (by decide) _
  | kexpIV | kclrIV => cases ht; exact .slotIV (by decide) _
  | ecbEncS | ecbEncH | ecbEncIV | ecbDecS | ecbDecH | ecbDecIV => exact ecbCommand_resultShape (by decide) ht
  | ctrS | ctrH => exact ctrCommand_resultShape (by decide) ht

namespace ResultShape

variable (shape : ResultShape i s t)
include shape

theorem digest_eq (hi : i ∉ hashCommands) : t.digest = s.digest := by
  cases shape with
  | hash h => exact absurd h hi
  | ctr _ rk => rw [s.ctrBody_eq rk]; rfl
  | _ => rfl

theorem slotS_eq (hi : i ∉ [Instr.kexpS, .kclrS]) : t.slotS = s.slotS := by
  cases shape with
  | slotS h => exact absurd h hi
  | ctr _ rk => rw [s.ctrBody_eq rk]; rfl
  | _ => rfl

theorem slotH_eq (hi : i ∉ [Instr.kexpH, .kclrH]) : t.slotH = s.slotH := by
  cases shape with
  | slotH h => exact absurd h hi
  | ctr _ rk => rw [s.ctrBody_eq rk]; rfl
  | _ => rfl

theorem slotIV_eq (hi : i ∉ [Instr.kexpIV, .kclrIV]) : t.slotIV = s.slotIV := by
  cases shape with
  | slotIV h => exact absurd h hi
  | ctr _ rk => rw [s.ctrBody_eq rk]; rfl
  | _ => rfl

theorem block_eq (hi : i ∉ ecbCommands) : t.block = s.block := by
  cases shape with
  | ecb h => exact absurd h hi
  | ctr _ rk => rw [s.ctrBody_eq rk]; rfl
  | _ => rfl

theorem mem_nonce_eq (hi : i ∉ ctrCommands) : t.mem = s.mem ∧ t.nonce = s.nonce := by
  cases shape with
  | ctr h => exact absurd h hi
  | _ => exact ⟨rfl, rfl⟩

/-- CTR writes NONCE too, but its low half alone (`44_ctr.md` R223). -/
theorem keepsOperands : KeepsOperands s t := by
  cases shape with
  | ctr _ rk => simp [KeepsOperands, State.ctrBody, State.noteInput]
  | _ => and_intros <;> rfl

end ResultShape

end

/-! ### The statements of a host program (`30_encoding.md` R108, R109) -/

theorem registerMap_offset {p : Nat × Reg} (h : p ∈ registerMap) : p.1 = regOffset p.2 := by
  revert p
  decide

theorem expandStmt_mwb (a : Nat) (bytes : List Byte) : expandStmt (.mwb a bytes) =
    (List.range bytes.length).map fun i => .dmem (a + i) (.write .byte ((bytes.getD i 0).setWidth 32)) := by
  refine List.ext_getElem (by simp [expandStmt]) fun i hi _ => ?_
  have hlen : i < bytes.length := by simpa [expandStmt] using hi
  simp [expandStmt, hlen]

/-- Bit `j` of a word is bit `j mod 8` of its byte `j div 8`. -/
theorem wordAt_getLsbD (bytes : List Byte) (r : Nat) {j : Nat} (hj : j < 32) :
    (wordAt bytes r).getLsbD j = (bytes.getD (4 * r + j / 8) 0).getLsbD (j % 8) := by
  simp only [wordAt, BitVec.getLsbD_append]
  obtain h | h | h | h : j / 8 = 0 ∨ j / 8 = 1 ∨ j / 8 = 2 ∨ j / 8 = 3 := by omega
  · rw [h, if_pos (by omega), show j = j % 8 by omega, Nat.mod_mod, Nat.add_zero]
  · rw [h, if_neg (by omega), if_pos (by omega), show j - 8 = j % 8 by omega]
  · rw [h, if_neg (by omega), if_neg (by omega), if_pos (by omega), show j - 8 - 8 = j % 8 by omega]
  · rw [h, if_neg (by omega), if_neg (by omega), if_neg (by omega), show j - 8 - 8 - 8 = j % 8 by omega]

/-- The value written to register `r` of a bank is word `r` of the byte string. -/
theorem leValue_eq_wordAt (bytes : List Byte) (r : Nat) :
    leValue 32 ((bytes.drop (4 * r)).take 4) = wordAt bytes r := by
  apply BitVec.eq_of_getLsbD_eq
  intro j hj
  rw [leValue_getLsbD, wordAt_getLsbD bytes r hj, decide_eq_true hj, Bool.true_and]
  simp only [List.getD_eq_getElem?_getD, List.getElem?_take, List.getElem?_drop]
  rw [if_pos (by omega)]

/-- The write of word `r` of a byte string to register `r` of the bank at offset `base`. -/
def loadEvent (base : Nat) (bytes : List Byte) (r : Nat) : HostEvent :=
  .register (base + 4 * r) (.write .word (wordAt bytes r))

section
variable {m base : Nat} {bank : Fin m → Reg} (hbank : ∀ r, regOffset (bank r) = base + 4 * r.val)
include hbank

theorem writeEvent_bank (bytes : List Byte) (r : Fin m) :
    writeEvent (bank r) (leValue 32 ((bytes.drop (4 * r.val)).take 4)) = loadEvent base bytes r := by
  rw [writeEvent, hbank, leValue_eq_wordAt, loadEvent]

/-- The bytes reach the first `⌈length / 4⌉` registers of the bank. -/
theorem loadEvents_eq (bytes : List Byte) :
    loadEvents bank bytes = (List.range (min m ((bytes.length + 3) / 4))).map (loadEvent base bytes) := by
  have reached : ∀ r, decide (4 * r < bytes.length) = decide (r < (bytes.length + 3) / 4) := fun r =>
    decide_eq_decide.mpr (by omega)
  have range_reached : (List.range m).filter (fun r => decide (r < (bytes.length + 3) / 4)) =
      List.range (min m ((bytes.length + 3) / 4)) := by
    simpa only [List.Ico.zero_bot] using List.Ico.filter_lt 0 m ((bytes.length + 3) / 4)
  simp only [loadEvents, writeEvent_bank hbank, reached]
  rw [← range_reached, ← List.map_coe_finRange_eq_range, List.filter_map, List.map_map]
  rfl

end

end Sys2Proof.Machine

namespace Sys2Proof.Proofs

open Sys2Proof.Machine Sys2Proof.Spec

/-- Settles O1: a word that decodes to a command is made up of the command's fields, and so is the command's word in the
opcode map. -/
theorem decodeExactlyTheTwentyWords : Obligations.DecodeExactlyTheTwentyWords :=
  ⟨fun w i => (decode_eq_ok_iff w i).trans (mem_opcodeTable_iff w i).symm, decode_encode⟩

/-- Settles O9, over the shapes of the state a command of each family leads to. -/
theorem commandsWriteOnlyTheirResults : Obligations.CommandsWriteOnlyTheirResults := by
  intro i s t ht
  have shape : ResultShape i s t := exec_resultShape ht
  exact ⟨shape.digest_eq, shape.slotS_eq, shape.slotH_eq, shape.slotIV_eq, shape.block_eq, shape.mem_nonce_eq,
    shape.keepsOperands⟩

/-- Settles O48: the bytes reach the first registers of the bank, and each gets its word of the byte string. -/
theorem loadStatementsExpand : Obligations.LoadStatementsExpand := by
  intro bytes
  refine ⟨loadEvents_eq (bank := Reg.key) (fun _ => rfl) bytes, ?_,
    loadEvents_eq (bank := Reg.block) (fun _ => rfl) bytes⟩
  simp only [expandStmt, writeEvent_bank (bank := Reg.nonce) (base := 0x040) fun _ => rfl]
  rfl

/-- Settles O2: the five words are those of the commands' fields. -/
theorem sampleWordsDecode : Obligations.SampleWordsDecode :=
  ⟨decode_encode .nop, decode_encode .hash256, decode_encode .kclrIV, decode_encode .ecbDecH, decode_encode .ctrH⟩

/-- Settles O45: bit 0 of the STATUS word, which the poll tests, is BUSY. -/
theorem waitPollsUntilIdle : Obligations.WaitPollsUntilIdle := by
  intro s
  have bit0 : s.statusWord.getLsbD 0 = s.busy := s.statusWord_getLsbD 0
  show Host.Outcome.next (poll s) = _
  rw [poll_eq, bit0]

/-- Settles O47: the register map gives the offset of each register, the opcode map the word of each command. -/
theorem hostStatementsExpand : Obligations.HostStatementsExpand := by
  refine ⟨fun p hp v => ?_, fun p hp => ?_, expandStmt_mwb, fun _ _ => rfl, rfl, rfl⟩
  · rw [registerMap_offset hp]
    exact ⟨rfl, rfl⟩
  · have word : p.1 = encode p.2 := (mem_opcodeTable_iff p.1 p.2).mp hp
    rw [word]
    exact ⟨rfl, rfl⟩

end Sys2Proof.Proofs
end

section
/-! PROOFS, family 40_control.md. The engine's step, by what the latch holds and by whether the host has disturbed the
command; the two ends of a command; whose step it is. -/

namespace Sys2Proof.Machine

open Sys2Proof.Spec

/-! ### Running the latch (`40_control.md` R130, R131) -/

/-- A word that stands nowhere in the opcode map is illegal (`30_encoding.md` R106). -/
theorem decode_error_of_not_in_opcodeTable {w : Word} (h : ∀ p ∈ opcodeTable, w ≠ p.1) : ∃ e, decode w = .error e := by
  cases hdec : decode w with
  | error e => exact ⟨e, rfl⟩
  | ok i =>
    have row : (w, i) ∈ opcodeTable := (mem_opcodeTable_iff w i).mpr ((decode_eq_ok_iff w i).mp hdec)
    exact absurd rfl (h (w, i) row)

theorem runLatch_illegal {s : State} (h : ∃ e, decode s.cmdl = .error e) : runLatch s = .next (s.reject .illegal) := by
  obtain ⟨e, he⟩ := h
  rw [runLatch, he]

theorem runLatch_legal {s : State} {i : Instr} (h : decode s.cmdl = .ok i) : runLatch s = exec i s := by
  rw [runLatch, h]

/-! ### The engine's step, undisturbed and disturbed (`20_memory.md` R84) -/

theorem engineStep_undisturbed {s : State} (hd : s.disturbed = false) : engineStep s = runLatch s := by
  simp [engineStep, hd]

theorem engineStep_disturbed {s t : State} (hd : s.disturbed = true) (ht : runLatch s.disturb = .next t) :
    engineStep s = .next t.disturb.settle := by
  simp [engineStep, hd, ht, settleResult]

/-! ### The step by whose turn it is -/

theorem step_engineTurn {s : State} (h : s.engineTurn) : step s = engineStep s := step_engine h.1 h.2

/-- With BUSY = 0 and no event to come it is nobody's turn. -/
theorem step_nobody {s : State} (hb : s.busy = false) (hp : s.pending = []) : step s = .next s := by
  have turn : s.mover = .nobody := by simp [State.mover, hp, hb]
  rw [step, turn]

/-- On the engine's turn an undisturbed step is that of the command in the latch. -/
theorem step_exec {s : State} {i : Instr} (turn : s.engineTurn) (hdec : decode s.cmdl = .ok i)
    (hd : s.disturbed = false) : step s = exec i s :=
  calc step s = engineStep s := step_engineTurn turn
    _ = runLatch s := engineStep_undisturbed hd
    _ = exec i s := runLatch_legal hdec

theorem State.withFetchWord_engineTurn (s : State) (nbits w : Nat) : (s.withFetchWord nbits w).engineTurn :=
  ⟨rfl, .inl rfl⟩

theorem State.withFetchWord_cmdl_word (s : State) (w : Word) : (s.withFetchWord 32 w.toNat).cmdl = w := by
  rw [State.withFetchWord_cmdl, Nat.mod_eq_of_lt w.isLt, BitVec.ofNat_toNat, BitVec.setWidth_eq]

/-! ### The end of a command (`40_control.md` R132, `60_exceptions.md` R252) -/

/-- The command has completed, and ERR, ERRCODE and OVR are those of before. -/
def CompletedKeepingErrors (s t : State) : Prop :=
  t.done = true ∧ t.busy = false ∧ t.err = s.err ∧ t.errcode = s.errcode ∧ t.ovr = s.ovr

/-- A completion after writes that leave ERR, ERRCODE and OVR alone. -/
theorem State.complete_keepingErrors {s u : State} (herr : u.err = s.err) (hcode : u.errcode = s.errcode)
    (hovr : u.ovr = s.ovr) : CompletedKeepingErrors s u.complete :=
  ⟨rfl, rfl, herr, hcode, hovr⟩

/-- A command completes, or is rejected with another code than ILLEGAL. -/
theorem ExecShape.completed_or_rejected {s t : State} (shape : ExecShape s t) :
    CompletedKeepingErrors s t ∨ ∃ e, e ≠ .illegal ∧ t = s.reject e := by
  cases shape with
  | rejected e he => exact .inr ⟨e, he, rfl⟩
  | ctr rk => rw [s.ctrBody_eq rk]; exact .inl (State.complete_keepingErrors rfl rfl rfl)
  | _ => exact .inl (State.complete_keepingErrors rfl rfl rfl)

/-- The codes but ILLEGAL (`60_exceptions.md` R250). -/
theorem ErrorCode.code_of_ne_illegal {e : ErrorCode} (h : e ≠ .illegal) : e.code = 2 ∨ e.code = 3 ∨ e.code = 4 := by
  cases e with
  | illegal => exact absurd rfl h
  | noKey => exact .inl rfl
  | range => exact .inr (.inl rfl)
  | overlap => exact .inr (.inr rfl)

end Sys2Proof.Machine

namespace Sys2Proof.Proofs

open Sys2Proof.Machine Sys2Proof.Spec

/-- Settles O3: the word decodes to no command, so running the latch rejects it, before or between the losses of what
DMEM holds. -/
theorem illegalWordRejected : Obligations.IllegalWordRejected := by
  intro s h
  have illegal : ∃ e, decode s.cmdl = .error e := decode_error_of_not_in_opcodeTable h
  refine ⟨step_engineTurn, fun hd => ?_, fun hd => ?_⟩
  · exact (engineStep_undisturbed hd).trans (runLatch_illegal illegal)
  · have run : runLatch s.disturb = .next (s.disturb.reject .illegal) := runLatch_illegal (s := s.disturb) illegal
    exact ⟨_, engineStep_disturbed hd run, rfl⟩

/-- Settles O5, over the shapes of the state a command leads to. -/
theorem everyCommandEnds : Obligations.EveryCommandEnds := by
  intro i s
  obtain ⟨t, ht, shape⟩ := exec_shape i s
  rcases shape.completed_or_rejected with completion | ⟨e, he, rfl⟩
  · exact .inl ⟨t, ht, completion⟩
  · exact .inr ⟨e.code, ErrorCode.code_of_ne_illegal he, ht⟩

/-- Settles O4: a disturbed command answers a next state too, which the second loss and the settling follow; a placed
word is latched whole, with the engine's turn next. -/
theorem stepRunsDecodedCommand : Obligations.StepRunsDecodedCommand := by
  refine ⟨fun s i turn hdec => ⟨step_exec turn hdec, fun hd => ?_⟩, fun s i => ?_⟩
  · obtain ⟨t, ht, -⟩ := exec_shape i s.disturb
    have run : runLatch s.disturb = .next t := (runLatch_legal (s := s.disturb) hdec).trans ht
    exact ⟨t, ht, (step_engineTurn turn).trans (engineStep_disturbed hd run)⟩
  · have hdec : decode (s.withFetchWord 32 (encode i).toNat).cmdl = .ok i := by
      rw [s.withFetchWord_cmdl_word, decode_encode]
    exact step_exec (s.withFetchWord_engineTurn 32 _) hdec rfl

/-- Settles O10: the body of NOP is empty, so its step is the completion alone. -/
theorem nopCompletes : Obligations.NopCompletes := fun _ => rfl

/-- Settles O46: the host's turn and nobody's. -/
theorem hostStepTakesNextEvent : Obligations.HostStepTakesNextEvent :=
  ⟨fun _ _ _ hp turn => step_host hp turn, fun _ hb hp => step_nobody hb hp⟩

end Sys2Proof.Proofs
end

section
/-! PROOFS, family 41_pearson.md. What one lane holds after an input, the bytes of a digest of each width, and what an
accepted or a rejected HASH leaves. -/

namespace Sys2Proof.Machine

open Sys2Proof.Spec

/-! ### One lane (`41_pearson.md` R141, R144, R145, R148) -/

section
variable {w : Nat} (sbox : Vector Byte 256) (perm : Vector (Fin w) w)

theorem laneHash_append_singleton (mask : Vector Byte w) (input : List Byte) (c : Byte) :
    laneHash sbox perm mask (input ++ [c]) = diffuse sbox perm (absorb (laneHash sbox perm mask input) c mask) :=
  List.foldl_append

theorem lockstep_append_singleton {k : Nat} (masks : Vector (Vector Byte w) k) (input : List Byte) (c : Byte) :
    lockstep sbox perm masks (input ++ [c]) =
      Vector.ofFn fun l => diffuse sbox perm (absorb (lockstep sbox perm masks input)[l] c masks[l]) :=
  List.foldl_append

/-- In each step of the lock-step a lane reads itself and its mask alone (`41_pearson.md` R141). -/
theorem lockstep_getElem {k : Nat} (masks : Vector (Vector Byte w) k) (input : List Byte) (l : Fin k) :
    (lockstep sbox perm masks input)[l] = laneHash sbox perm masks[l] input := by
  induction input using List.reverseRecOn with
  | nil => simp [lockstep, laneHash]
  | append_singleton input c ih =>
    rw [lockstep_append_singleton, laneHash_append_singleton, ← ih]
    simp

theorem diffuse_absorb_getElem (lane mask : Vector Byte w) (c : Byte) (j : Fin w) :
    (diffuse sbox perm (absorb lane c mask))[j] = sboxAt sbox (lane[perm[j]] ^^^ c ^^^ mask[perm[j]]) := by
  simp [diffuse, absorb]

/-- The bytes of a lane are those of the absorb and diffusion equations, which count from the newest byte back. -/
theorem laneHash_getElem (mask : Vector Byte w) (input : List Byte) (j : Fin w) :
    (laneHash sbox perm mask input)[j] = laneByte sbox perm (fun i => mask[i]) input.reverse j := by
  induction input using List.reverseRecOn generalizing j with
  | nil => simp [laneHash, laneByte]
  | append_singleton input c ih =>
    rw [laneHash_append_singleton, diffuse_absorb_getElem, ih, List.reverse_concat]
    rfl

end

/-! ### The S-box (`41_pearson.md` R140) -/

/-- Every byte value occurs among as many entries as there are byte values, so none occurs twice. -/
theorem sboxAt_injective {p : Config.Params} (h : p.sboxOk = true) : Function.Injective (sboxAt p.sbox) := by
  have finite : Finite Byte := Finite.of_injective BitVec.toFin fun _ _ => BitVec.eq_of_toFin_eq
  refine Finite.injective_iff_surjective.mpr fun b => ?_
  obtain ⟨e, he, hb⟩ := List.any_eq_true.mp (List.all_eq_true.mp h b.toNat (List.mem_range.mpr b.isLt))
  obtain ⟨i, hi, rfl⟩ := List.getElem_of_mem he
  refine ⟨BitVec.ofNat 8 i, BitVec.eq_of_toNat_eq ?_⟩
  have hi' : i < 256 := by simpa using hi
  simpa [sboxAt, Nat.mod_eq_of_lt hi'] using hb

/-- After one byte a lane holds S-box entries at that byte and the mask. -/
theorem laneHash_singleton_injective {p : Config.Params} (h : p.sboxOk = true) {w : Nat} (perm : Vector (Fin w) w)
    (mask : Vector Byte w) (j : Fin w) : Function.Injective fun c => (laneHash p.sbox perm mask [c])[j] := by
  intro c c' heq
  simp only [laneHash_getElem] at heq
  simpa [laneByte] using sboxAt_injective h heq

/-! ### The bytes of a digest (`41_pearson.md` R142, R143, R149) -/

theorem flatMap_byte {n : Nat} (order : Vector (Fin n) n) (lane : Fin n → Vector Byte 8) (i : Fin n) (j : Fin 8) :
    (order.toList.flatMap fun l => (lane l).toList).getD (8 * i + j) 0 = (lane order[i])[j] := by
  rw [List.getD_eq_getElem?_getD, flatMap_getElem?_of_length _ 8 (by omega) (by simp),
    show (8 * i.val + j.val) / 8 = i by omega, show (8 * i.val + j.val) % 8 = j by omega]
  simp

theorem pearson_length (p : Config.Params) (width : DigestWidth) (input : List Byte) :
    (pearson p width input).length = width.bytes := by
  cases width <;> simp [pearson, DigestWidth.bytes, List.length_flatMap]

theorem pearson_w128_byte (p : Config.Params) (input : List Byte) (i : Fin 2) (j : Fin 8) :
    (pearson p .w128 input).getD (8 * i + j) 0 = (laneHash p.sbox p.perm8 p.masks128[p.order128[i]] input)[j] :=
  flatMap_byte p.order128 (lane128 p input) i j

theorem pearson_w256_byte (p : Config.Params) (input : List Byte) (i : Fin 4) (j : Fin 8) :
    (pearson p .w256 input).getD (8 * i + j) 0 = (laneHash p.sbox p.perm8 p.masks256[p.order256[i]] input)[j] :=
  flatMap_byte p.order256 (lane256 p input) i j

theorem masks128_getElem (p : Config.Params) (l : Fin 2) (j : Fin 8) : p.masks128[l][j] = laneMask p l j := by
  fin_cases l <;> simp [Config.Params.masks128, laneMask]

theorem masks256_getElem (p : Config.Params) (l : Fin 4) (j : Fin 8) : p.masks256[l][j] = laneMask p l j := by
  fin_cases l <;> simp [Config.Params.masks256, Config.highMask, laneMask]

/-- At every width, byte 0 of the digest is byte 0 of one lane. -/
theorem pearson_firstByte (p : Config.Params) (width : DigestWidth) :
    ∃ (w : Nat) (perm : Vector (Fin w) w) (mask : Vector Byte w) (j : Fin w),
      ∀ input, (pearson p width input).getD 0 0 = (laneHash p.sbox perm mask input)[j] := by
  cases width with
  | w16 => exact ⟨2, p.perm2, p.mask16, 0, fun _ => by simp [pearson]⟩
  | w32 => exact ⟨4, p.perm4, p.mask32, 0, fun _ => by simp [pearson]⟩
  | w64 => exact ⟨8, p.perm8, p.mask64, 0, fun _ => by simp [pearson]⟩
  | w128 => exact ⟨8, p.perm8, _, 0, fun input => pearson_w128_byte p input 0 0⟩
  | w256 => exact ⟨8, p.perm8, _, 0, fun input => pearson_w256_byte p input 0 0⟩

/-- The digest of the empty input (`41_pearson.md` R151). -/
theorem pearson_nil (p : Config.Params) (width : DigestWidth) :
    pearson p width [] = List.replicate width.bytes 0 := by
  refine List.eq_replicate_iff.mpr ⟨pearson_length p width [], fun b hb => ?_⟩
  cases width with
  | w16 | w32 | w64 => exact List.eq_of_mem_replicate hb
  | w128 | w256 =>
    obtain ⟨l, -, hl⟩ := List.mem_flatMap.mp hb
    exact List.eq_of_mem_replicate hl

/-! ### The DIGEST registers (`10_state.md` R42) -/

theorem regByte_packWords (m : Nat) (bytes : List Byte) {k : Nat} (h : k < 4 * m) :
    regByte (packWords m bytes) k = bytes.getD k 0 := by
  have hk : k / 4 < m := by omega
  rw [← packWords_byte m bytes k h, regByte]
  simp [hk]

theorem leNat_replicate_zero (n : Nat) : leNat (List.replicate n 0#8) = 0 := by
  induction n with
  | zero => rfl
  | succ n ih => simp [List.replicate_succ, leNat, ih]

theorem packWords_replicate_zero (m n : Nat) : packWords m (List.replicate n 0) = Vector.replicate m 0 := by
  ext1 r hr
  simp [packWords, leValue, List.drop_replicate, List.take_replicate, leNat_replicate_zero]

/-! ### The HASH commands (`41_pearson.md` R150) -/

/-- The state an accepted HASH leaves. -/
def State.hashed (s : State) (width : DigestWidth) : State :=
  (s.noteInput.setDigest (pearson s.params width s.inputBytes)).complete

theorem hashCommand_accepted (width : DigestWidth) {s : State} (h : s.len = 0 ∨ inDmem s s.src) :
    hashCommand width s = .next (s.hashed width) := by
  rcases h with hlen | hin
  · exact if_neg fun hc => hc.1 hlen
  · exact hashCommand_inDmem width hin

theorem hashCommand_outOfRange (width : DigestWidth) {s : State} (hlen : s.len ≠ 0) (h : ¬ inDmem s s.src) :
    hashCommand width s = .next (s.reject .range) :=
  if_pos ⟨hlen, (s.exceedsMem_eq_true s.src).mpr (Nat.lt_of_not_le h)⟩

theorem State.hashed_onlyDigest (s : State) (width : DigestWidth) : onlyDigest s (s.hashed width) :=
  ⟨rfl, s.noteInput_recordsInputRead.1⟩

theorem State.hashed_digest (s : State) (width : DigestWidth) :
    (s.hashed width).digest = packWords 8 (pearson s.params width s.inputBytes) := rfl

theorem State.hashed_byte (s : State) (width : DigestWidth) {k : Nat} (h : k < 32) :
    regByte (s.hashed width).digest k = (pearson s.params width s.inputBytes).getD k 0 :=
  regByte_packWords 8 _ h

theorem State.hashed_byte_past (s : State) (width : DigestWidth) {k : Nat} (hw : width.bytes ≤ k) (h : k < 32) :
    regByte (s.hashed width).digest k = 0 := by
  rw [s.hashed_byte width h, List.getD_eq_default _ _ (by rwa [pearson_length])]

/-- A HASH writes nothing that a HASH reads. -/
theorem State.hashed_hashed_digest (s : State) (width : DigestWidth) :
    ((s.hashed width).hashed width).digest = (s.hashed width).digest := rfl

/-- With nothing to read the fault record stays and the digest is zero (`41_pearson.md` R151). -/
theorem State.hashed_of_len_zero {s : State} (h : s.len = 0) (width : DigestWidth) :
    s.hashed width = { completed s with digest := Vector.replicate 8 0 } := by
  have hinput : s.inputBytes = [] := List.length_eq_zero_iff.mp (by simp [h])
  have hwritten : inputWritten s := fun i hi => absurd hi (by simp [h])
  obtain ⟨hframe, hfaults⟩ := s.hashed_onlyDigest width
  have hdigest : (s.hashed width).digest = Vector.replicate 8 0 := by
    rw [s.hashed_digest, hinput, pearson_nil, packWords_replicate_zero]
  rw [hframe, hfaults hwritten, hdigest]
  rfl

/-- The digest of a width of one lane (`41_pearson.md` R149). -/
theorem State.hashed_oneLane (s : State) {width : DigestWidth} {perm : Vector (Fin width.bytes) width.bytes}
    {mask : Vector Byte width.bytes} (j : Fin width.bytes)
    (hlane : pearson s.params width s.inputBytes = (laneHash s.params.sbox perm mask s.inputBytes).toList) :
    regByte (s.hashed width).digest j = laneByte s.params.sbox perm (fun i => mask[i]) (inputReversed s) j := by
  have hj : width.bytes ≤ 32 := by cases width <;> decide
  rw [s.hashed_byte width (by omega), hlane]
  refine Eq.trans ?_ (laneHash_getElem s.params.sbox perm mask s.inputBytes j)
  simp

theorem State.hashed_w128_byte (s : State) (i : Fin 2) (j : Fin 8) : regByte (s.hashed .w128).digest (8 * i + j) =
    laneByte s.params.sbox s.params.perm8 (laneMask s.params s.params.order128[i].val) (inputReversed s) j := by
  rw [s.hashed_byte .w128 (by omega), pearson_w128_byte, laneHash_getElem]
  simp only [masks128_getElem]
  rfl

theorem State.hashed_w256_byte (s : State) (i : Fin 4) (j : Fin 8) : regByte (s.hashed .w256).digest (8 * i + j) =
    laneByte s.params.sbox s.params.perm8 (laneMask s.params s.params.order256[i].val) (inputReversed s) j := by
  rw [s.hashed_byte .w256 (by omega), pearson_w256_byte, laneHash_getElem]
  simp only [masks256_getElem]
  rfl

theorem State.inputBytes_of_len_one {s : State} (h : s.len = 1) : s.inputBytes = [s.readByte s.src.toNat] := by
  simp [State.inputBytes, State.readBytes, h]

end Sys2Proof.Machine

namespace Sys2Proof.Proofs

open Sys2Proof.Machine Sys2Proof.Spec

/-- Settles O11: the digest of a narrow width is one lane. -/
theorem narrowHashResult : Obligations.NarrowHashResult := by
  intro s h
  refine ⟨⟨_, hashCommand_accepted .w16 h, s.hashed_onlyDigest .w16, fun j => ?_, fun k => s.hashed_byte_past .w16⟩,
    ⟨_, hashCommand_accepted .w32 h, s.hashed_onlyDigest .w32, fun j => ?_, fun k => s.hashed_byte_past .w32⟩,
    ⟨_, hashCommand_accepted .w64 h, s.hashed_onlyDigest .w64, fun j => ?_, fun k => s.hashed_byte_past .w64⟩⟩
  · exact s.hashed_oneLane (width := .w16) j rfl
  · exact s.hashed_oneLane (width := .w32) j rfl
  · exact s.hashed_oneLane (width := .w64) j rfl

/-- Settles O12: each eight bytes of the digest are the lane that the order names. -/
theorem wideHashResult : Obligations.WideHashResult := fun s h =>
  ⟨⟨_, hashCommand_accepted .w128 h, s.hashed_onlyDigest .w128, s.hashed_w128_byte, fun _ => s.hashed_byte_past .w128⟩,
    _, hashCommand_accepted .w256 h, s.hashed_onlyDigest .w256, s.hashed_w256_byte⟩

/-- Settles O13: the state after a HASH has the same operands, parameters and DMEM, so the HASH is accepted again. -/
theorem hashEmptyAndRepeatable : Obligations.HashEmptyAndRepeatable := by
  intro s i hi
  obtain ⟨width, hexec⟩ := exec_hash hi
  rw [hexec]
  refine ⟨fun hlen => ?_, fun h => ?_⟩
  · rw [hashCommand_accepted width (.inl hlen), State.hashed_of_len_zero hlen]
  · have again : hashCommand width (s.hashed width) = .next ((s.hashed width).hashed width) :=
      hashCommand_accepted (s := s.hashed width) width h
    exact ⟨_, _, hashCommand_accepted width h, again, s.hashed_hashed_digest width, rfl⟩

/-- Settles O14: the bytes of a wide digest depend on the lane's number alone, not on the width. -/
theorem wideDigestsShareLanes : Obligations.WideDigestsShareLanes := fun s h =>
  ⟨_, _, hashCommand_accepted .w128 h, hashCommand_accepted .w256 h, fun i k hlane j => by
    rw [s.hashed_w128_byte i j, s.hashed_w256_byte k j, hlane]⟩

/-- Settles O15: the first digest byte is an S-box entry at the input byte and a mask byte, and no two entries are
equal. -/
theorem singleByteDigestsDiffer : Obligations.SingleByteDigestsDiffer := by
  intro s src' hsbox hlen hin hin' hne i hi
  obtain ⟨width, hexec⟩ := exec_hash hi
  rw [hexec]
  refine ⟨_, _, hashCommand_accepted width (.inr hin),
    hashCommand_accepted (s := { s with src := src' }) width (.inr hin'), fun heq => hne ?_⟩
  obtain ⟨w, perm, mask, j, hfirst⟩ := pearson_firstByte s.params width
  have hbyte := congrArg (fun regs => regByte regs 0) heq
  simp only [State.hashed_byte _ _ (k := 0) (by decide), hfirst] at hbyte
  rw [State.inputBytes_of_len_one hlen, State.inputBytes_of_len_one (s := { s with src := src' }) hlen] at hbyte
  exact laneHash_singleton_injective hsbox perm mask j hbyte

/-- Settles O16, byte by byte of the input. -/
theorem lockstepLanesAgree : Obligations.LockstepLanesAgree := fun _ _ sbox perm masks input l =>
  lockstep_getElem sbox perm masks input l

/-- Settles O7: the sum is that of numbers, which do not wrap. -/
theorem hashOutOfRangeRejected : Obligations.HashOutOfRangeRejected := by
  intro s hlen hout i hi
  obtain ⟨width, hexec⟩ := exec_hash hi
  rw [rejectedWith, hexec]
  exact hashCommand_outOfRange width hlen hout

end Sys2Proof.Proofs
end

section
/-! PROOFS, family 42_speck_core.md. The rotates, the rounds, the block cipher and their packed form: the two directions
undo each other, and the packed datapath holds the packed values throughout. -/

namespace Sys2Proof.Machine

/-! ### The rotates (`00_scope.md` R11) -/

section
variable {n : Nat}

/-- A left rotate is the right rotate by the rest of the width. -/
theorem rol_eq_ror (v : BitVec n) {r : Nat} (h : r ≤ n) : rol v r = ror v (n - r) := by
  rw [rol, ror, Nat.sub_sub_self h, BitVec.or_comm]

/-- The two parts of a right rotate share no bit, so their disjunction is their sum. -/
theorem ror_toNat (v : BitVec n) {r : Nat} (h : r ≤ n) :
    (ror v r).toNat = v.toNat / 2 ^ r + v.toNat % 2 ^ r * 2 ^ (n - r) := by
  have hpow : 2 ^ n = 2 ^ r * 2 ^ (n - r) := by rw [← Nat.pow_add, Nat.add_sub_cancel' h]
  have hlow : v.toNat / 2 ^ r < 2 ^ (n - r) := Nat.div_lt_of_lt_mul (hpow ▸ v.isLt)
  calc (ror v r).toNat
      = v.toNat / 2 ^ r ||| v.toNat * 2 ^ (n - r) % 2 ^ n := by
        rw [ror, BitVec.toNat_or, BitVec.toNat_ushiftRight, BitVec.toNat_shiftLeft, Nat.shiftRight_eq_div_pow,
          Nat.shiftLeft_eq]
    _ = v.toNat / 2 ^ r ||| 2 ^ (n - r) * (v.toNat % 2 ^ r) := by
        rw [hpow, Nat.mul_mod_mul_right, Nat.mul_comm]
    _ = v.toNat / 2 ^ r + v.toNat % 2 ^ r * 2 ^ (n - r) := by
        rw [Nat.or_comm, ← Nat.two_pow_add_eq_or_of_lt hlow, Nat.add_comm, Nat.mul_comm]

theorem rol_toNat (v : BitVec n) {r : Nat} (h : r ≤ n) :
    (rol v r).toNat = v.toNat * 2 ^ r % 2 ^ n + v.toNat / 2 ^ (n - r) := by
  have hpow : 2 ^ n = 2 ^ (n - r) * 2 ^ r := by rw [← Nat.pow_add, Nat.sub_add_cancel h]
  rw [rol_eq_ror v h, ror_toNat v (Nat.sub_le n r), Nat.sub_sub_self h, hpow, Nat.mul_mod_mul_right, Nat.add_comm]

/-- Two right rotates that together go once around the word. -/
theorem ror_ror_rest (v : BitVec n) {r : Nat} (h : r ≤ n) : ror (ror v r) (n - r) = v := by
  have hlow : v.toNat / 2 ^ r < 2 ^ (n - r) :=
    Nat.div_lt_of_lt_mul (by rw [← Nat.pow_add, Nat.add_sub_cancel' h]; exact v.isLt)
  refine BitVec.eq_of_toNat_eq ?_
  rw [ror_toNat _ (Nat.sub_le n r), ror_toNat v h, Nat.sub_sub_self h, Nat.add_mul_mod_self_right,
    Nat.mod_eq_of_lt hlow, Nat.add_mul_div_right _ _ (Nat.two_pow_pos _), Nat.div_eq_of_lt hlow, Nat.zero_add,
    Nat.mod_add_div']

theorem rol_ror (v : BitVec n) {r : Nat} (h : r ≤ n) : rol (ror v r) r = v := by
  rw [rol_eq_ror _ h, ror_ror_rest v h]

theorem ror_rol (v : BitVec n) {r : Nat} (h : r ≤ n) : ror (rol v r) r = v := by
  rw [rol_eq_ror v h]
  simpa [Nat.sub_sub_self h] using ror_ror_rest v (Nat.sub_le n r)

/-! ### The rounds (`42_speck_core.md` R173, R174) -/

theorem decRound_encRound (h : 8 < n) (x y k : BitVec n) :
    decRound (encRound x y k).1 (encRound x y k).2 k = (x, y) := by
  simp [encRound, decRound, ror_rol y (show 3 ≤ n by omega), rol_ror x (show 8 ≤ n by omega)]

theorem encRound_decRound (h : 8 < n) (x y k : BitVec n) :
    encRound (decRound x y k).1 (decRound x y k).2 k = (x, y) := by
  simp [encRound, decRound, rol_ror _ (show 3 ≤ n by omega), ror_rol _ (show 8 ≤ n by omega)]

/-! ### The block cipher (`42_speck_core.md` R175 to R177) -/

theorem encKeys_cons (k : BitVec n) (ks : List (BitVec n)) (x y : BitVec n) :
    encKeys (k :: ks) x y = encKeys ks (encRound x y k).1 (encRound x y k).2 := rfl

theorem encKeys_append_singleton (ks : List (BitVec n)) (k x y : BitVec n) :
    encKeys (ks ++ [k]) x y = encRound (encKeys ks x y).1 (encKeys ks x y).2 k := List.foldl_append

theorem decKeys_cons (k : BitVec n) (ks : List (BitVec n)) (x y : BitVec n) :
    decKeys (k :: ks) x y = decRound (decKeys ks x y).1 (decKeys ks x y).2 k := rfl

/-- Decryption undoes the last round of the encryption first. -/
theorem decKeys_encKeys (h : 8 < n) (ks : List (BitVec n)) (x y : BitVec n) :
    decKeys ks (encKeys ks x y).1 (encKeys ks x y).2 = (x, y) := by
  induction ks generalizing x y with
  | nil => rfl
  | cons k ks ih => rw [encKeys_cons, decKeys_cons, ih, decRound_encRound h]

theorem encKeys_decKeys (h : 8 < n) (ks : List (BitVec n)) (x y : BitVec n) :
    encKeys ks (decKeys ks x y).1 (decKeys ks x y).2 = (x, y) := by
  induction ks with
  | nil => rfl
  | cons k ks ih => rw [decKeys_cons, encKeys_cons, encRound_decRound h, ih]

end

/-! ### The packed operations (`42_speck_core.md` R182) -/

theorem pack48_toNat (v : BitVec 48) : (pack48 v).toNat = v.toNat * 2 ^ 16 :=
  (BitVec.toNat_append v 0#16).trans (by simp [Nat.shiftLeft_eq])

theorem pack48_getLsbD (v : BitVec 48) (i : Nat) :
    (pack48 v).getLsbD i = (decide (16 ≤ i) && v.getLsbD (i - 16)) := by
  refine (BitVec.getLsbD_append (x := v) (y := 0#16)).trans ?_
  split
  · next h => simp [h]
  · next h => simp [Nat.le_of_not_lt h]

theorem unpack48_pack48 (v : BitVec 48) : unpack48 (pack48 v) = v := by
  have hv := v.isLt
  refine BitVec.eq_of_toNat_eq ?_
  rw [unpack48, BitVec.toNat_setWidth, BitVec.toNat_ushiftRight, pack48_toNat, Nat.shiftRight_eq_div_pow]
  omega

theorem pack48_add (a b : BitVec 48) : pack48 a + pack48 b = pack48 (a + b) := by
  refine BitVec.eq_of_toNat_eq ?_
  simp only [BitVec.toNat_add, pack48_toNat]
  omega

theorem pack48_sub (a b : BitVec 48) : pack48 a - pack48 b = pack48 (a - b) := by
  have hb := b.isLt
  refine BitVec.eq_of_toNat_eq ?_
  simp only [BitVec.toNat_sub, pack48_toNat]
  omega

theorem pack48_xor (a b : BitVec 48) : pack48 a ^^^ pack48 b = pack48 (a ^^^ b) := by
  rw [pack48, pack48, pack48, BitVec.xor_append, BitVec.xor_self]

theorem pack48_ofNat (i : Nat) : pack48 (BitVec.ofNat 48 i) = BitVec.ofNat 64 (i * 2 ^ 16) := by
  refine BitVec.eq_of_toNat_eq ?_
  simp only [pack48_toNat, BitVec.toNat_ofNat]
  omega

theorem packedMask_eq : packedMask = pack48 (BitVec.allOnes 48) := rfl

/-- A rotate of a packed word by `r`: the left shift drops the bits above the half-word, the mask those that the right
shift moved into the padding. -/
theorem packedRotate_pack48 (v : BitVec 48) {r : Nat} (h : r ≤ 48) :
    ((pack48 v >>> r) ||| (pack48 v <<< (48 - r))) &&& packedMask = pack48 (ror v r) := by
  refine BitVec.eq_of_getLsbD_eq fun i hi => ?_
  rw [packedMask_eq]
  simp only [BitVec.getLsbD_and, BitVec.getLsbD_or, BitVec.getLsbD_ushiftRight, BitVec.getLsbD_shiftLeft,
    BitVec.getLsbD_allOnes, pack48_getLsbD, ror]
  by_cases hpad : 16 ≤ i
  · obtain ⟨j, rfl⟩ := Nat.exists_eq_add_of_le hpad
    have hright : r + (16 + j) - 16 = r + j := by omega
    have hleft : 16 + j - (48 - r) - 16 = j - (48 - r) := by omega
    rcases Nat.lt_or_ge j (48 - r) with hkept | hwrapped
    · simp [hright, hleft, hkept, show j < 48 by omega, show 16 ≤ r + (16 + j) by omega,
        show ¬ 16 ≤ 16 + j - (48 - r) by omega]
    · simp [hright, hleft, hi, Nat.not_lt.mpr hwrapped, show j < 48 by omega, show 16 ≤ r + (16 + j) by omega,
        show 16 ≤ 16 + j - (48 - r) by omega, show ¬ 16 + j < 48 - r by omega]
  · simp [hpad]

theorem ror8p_pack48 (v : BitVec 48) : ror8p (pack48 v) = pack48 (ror v 8) := packedRotate_pack48 v (by decide)

theorem ror3p_pack48 (v : BitVec 48) : ror3p (pack48 v) = pack48 (ror v 3) := packedRotate_pack48 v (by decide)

theorem rol3p_pack48 (v : BitVec 48) : rol3p (pack48 v) = pack48 (rol v 3) := by
  rw [rol3p, BitVec.or_comm, rol_eq_ror v (by decide)]
  exact packedRotate_pack48 v (by decide)

theorem rol8p_pack48 (v : BitVec 48) : rol8p (pack48 v) = pack48 (rol v 8) := by
  rw [rol8p, BitVec.or_comm, rol_eq_ror v (by decide)]
  exact packedRotate_pack48 v (by decide)

/-! ### The packed datapath (`42_speck_core.md` R182, R183) -/

/-- Both half-words of a block in packed form. -/
def packPair (p : BitVec 48 × BitVec 48) : BitVec 64 × BitVec 64 := (pack48 p.1, pack48 p.2)

theorem encRoundPacked_pack48 (x y k : BitVec 48) :
    encRoundPacked (pack48 x) (pack48 y) (pack48 k) = packPair (encRound x y k) := by
  simp only [encRoundPacked, encRound, packPair, ror8p_pack48, rol3p_pack48, pack48_add, pack48_xor]

theorem decRoundPacked_pack48 (x y k : BitVec 48) :
    decRoundPacked (pack48 x) (pack48 y) (pack48 k) = packPair (decRound x y k) := by
  simp only [decRoundPacked, decRound, packPair, ror3p_pack48, rol8p_pack48, pack48_sub, pack48_xor]

theorem encKeysPacked_cons (k : BitVec 64) (ks : List (BitVec 64)) (x y : BitVec 64) :
    encKeysPacked (k :: ks) x y = encKeysPacked ks (encRoundPacked x y k).1 (encRoundPacked x y k).2 := rfl

theorem decKeysPacked_cons (k : BitVec 64) (ks : List (BitVec 64)) (x y : BitVec 64) :
    decKeysPacked (k :: ks) x y = decRoundPacked (decKeysPacked ks x y).1 (decKeysPacked ks x y).2 k := rfl

theorem encKeysPacked_pack48 (rk : List (BitVec 48)) (x y : BitVec 48) :
    encKeysPacked (rk.map pack48) (pack48 x) (pack48 y) = packPair (encKeys rk x y) := by
  induction rk generalizing x y with
  | nil => rfl
  | cons k ks ih =>
    rw [List.map_cons, encKeysPacked_cons, encRoundPacked_pack48, encKeys_cons]
    exact ih _ _

theorem decKeysPacked_pack48 (rk : List (BitVec 48)) (x y : BitVec 48) :
    decKeysPacked (rk.map pack48) (pack48 x) (pack48 y) = packPair (decKeys rk x y) := by
  induction rk with
  | nil => rfl
  | cons k ks ih =>
    rw [List.map_cons, decKeysPacked_cons, ih, decKeys_cons]
    exact decRoundPacked_pack48 _ _ k

theorem schedulePackedFrom_pack48 (steps i : Nat) (k l : BitVec 48) (rest : List (BitVec 48)) :
    schedulePackedFrom steps i (pack48 k) (pack48 l) (rest.map pack48) = (scheduleFrom steps i k l rest).map pack48 := by
  induction steps generalizing i k l rest with
  | zero => rfl
  | succ steps ih =>
    cases rest <;> simp [schedulePackedFrom, scheduleFrom, encRoundPacked_pack48, packPair, ← ih]

end Sys2Proof.Machine

namespace Sys2Proof.Proofs

open Sys2Proof.Machine Sys2Proof.Spec

/-- Settles O18: the sum of the halves of each rotate is that of numbers. -/
theorem encryptionRoundArithmetic : Obligations.EncryptionRoundArithmetic := by
  intro n x y k hn
  constructor
  · rw [encRound, BitVec.toNat_xor, BitVec.toNat_add, ror_toNat x (by omega)]
  · rw [encRound, BitVec.toNat_xor, rol_toNat y (by omega)]

/-- Settles O19: the rotates undo each other, the difference undoes the sum, and each XOR undoes itself. -/
theorem roundsAreInverse : Obligations.RoundsAreInverse := fun _ x y k hn =>
  ⟨decRound_encRound hn x y k, encRound_decRound hn x y k⟩

/-- Settles O20: the states are the encryptions by the first `i` round keys, and the decryptions by those from `i` on. -/
theorem blockCipherRoundOrder : Obligations.BlockCipherRoundOrder := by
  intro n T rk x y
  refine ⟨⟨fun i => encKeys (rk.toList.take i) x y, rfl, ?_, fun i hi => ?_⟩,
    fun i => decKeys (rk.toList.drop i) x y, ?_, rfl, fun i hi => ?_⟩
  · dsimp only
    rw [List.take_of_length_le (by simp), encryptBlock]
  · have hlen : i < rk.toList.length := by simpa using hi
    dsimp only
    rw [List.take_succ_eq_append_getElem hlen, encKeys_append_singleton, Vector.getElem_toList]
  · dsimp only
    rw [List.drop_of_length_le (by simp)]
    rfl
  · have hlen : i < rk.toList.length := by simpa using hi
    dsimp only
    rw [List.drop_eq_getElem_cons hlen, decKeys_cons, Vector.getElem_toList]

/-- Settles O21, over the list of round keys. -/
theorem blockCipherRoundTrip : Obligations.BlockCipherRoundTrip := fun _ _ rk x y hn =>
  ⟨decKeys_encKeys hn rk.toList x y, encKeys_decKeys hn rk.toList x y⟩

/-- Settles O22, operation by operation. -/
theorem packedOperationsAgree : Obligations.PackedOperationsAgree := fun v a b =>
  ⟨ror8p_pack48 v, rol3p_pack48 v, pack48_add a b, pack48_sub a b, pack48_xor a b, fun i _ => pack48_ofNat i⟩

/-- Settles O23: each round and each step of the schedule keeps the packed form. -/
theorem packedDatapathRefines : Obligations.PackedDatapathRefines :=
  ⟨unpack48_pack48, fun rk x y => ⟨encKeysPacked_pack48 rk x y, decKeysPacked_pack48 rk x y⟩,
    schedulePackedFrom_pack48⟩

end Sys2Proof.Proofs
end

section
/-! PROOFS, family 42_speck_core.md. The key commands: the half-words in a bank of registers, the helper words of the key
schedule, and the states KEXP and KCLR lead to. -/

namespace Sys2Proof.Machine

open Sys2Proof.Spec

/-! ### Half-words of registers (`10_state.md` R37, R38, `42_speck_core.md` R171, R172) -/

section
variable {m : Nat} (regs : Vector Word m)

/-- Bit `j` of the half-word at byte `offset` is bit `8·offset + j` of the registers, 32 to a register. -/
theorem halfWord_regBytes_getLsbD {n offset j : Nat} (hn : n % 8 = 0) (hj : j < n) (h : 8 * offset + n ≤ 32 * m) :
    (halfWord n (regBytes regs) offset).getLsbD j =
      (regs[(8 * offset + j) / 32]'(by omega)).getLsbD ((8 * offset + j) % 32) := by
  have hbyte : (regBytes regs)[offset + j / 8]? = _ := regBytes_getElem? regs (offset + j / 8) (by omega)
  rw [halfWord, leValue_getLsbD, List.getD_eq_getElem?_getD, List.getElem?_take_of_lt (by omega), List.getElem?_drop,
    hbyte]
  simp [hj, show j % 8 < 8 by omega, show (offset + j / 8) / 4 = (8 * offset + j) / 32 by omega,
    show 8 * ((offset + j / 8) % 4) + j % 8 = (8 * offset + j) % 32 by omega]

/-- A 64-bit half-word is two registers, the lower one its low half. -/
theorem halfWord_regBytes_64 {i : Nat} (h : 2 * i + 1 < m) :
    halfWord 64 (regBytes regs) (8 * i) = regs[2 * i + 1] ++ regs[2 * i] := by
  refine BitVec.eq_of_getLsbD_eq fun j hj => ?_
  rw [halfWord_regBytes_getLsbD regs (by decide) hj (by omega), BitVec.getLsbD_append]
  split
  · next hlow => simp [show (8 * (8 * i) + j) / 32 = 2 * i by omega, show (8 * (8 * i) + j) % 32 = j by omega]
  · next hhigh =>
    simp [show (8 * (8 * i) + j) / 32 = 2 * i + 1 by omega, show (8 * (8 * i) + j) % 32 = j - 32 by omega]

/-- The first 48-bit half-word is a register and the low half of the next one. -/
theorem halfWord_regBytes_48_first (h : 2 < m) :
    halfWord 48 (regBytes regs) 0 = regs[1].extractLsb' 0 16 ++ regs[0] := by
  refine BitVec.eq_of_getLsbD_eq fun j hj => ?_
  rw [halfWord_regBytes_getLsbD regs (by decide) hj (by omega), BitVec.getLsbD_append]
  split
  · next hlow => simp [show j / 32 = 0 by omega, show j % 32 = j by omega]
  · next hhigh => simp [show j / 32 = 1 by omega, show j % 32 = j - 32 by omega, show j - 32 < 16 by omega]

/-- The second 48-bit half-word is the high half of that register and the register after it. -/
theorem halfWord_regBytes_48_second (h : 2 < m) :
    halfWord 48 (regBytes regs) 6 = regs[2] ++ regs[1].extractLsb' 16 16 := by
  refine BitVec.eq_of_getLsbD_eq fun j hj => ?_
  rw [halfWord_regBytes_getLsbD regs (by decide) hj (by omega), BitVec.getLsbD_append]
  split
  · next hlow => simp [hlow, show (48 + j) / 32 = 1 by omega, show (48 + j) % 32 = 16 + j by omega]
  · next hhigh => simp [show (48 + j) / 32 = 2 by omega, show (48 + j) % 32 = j - 16 by omega]

end

/-! ### The key schedule (`42_speck_core.md` R179) -/

section
variable {n : Nat}

/-- The helper words `l` of the round keys `ks` from step `i` on, the first of them `queue`: each step makes the newest
helper word and the next round key. -/
def HelperWords (i : Nat) (queue ks : List (BitVec n)) (l : Nat → BitVec n) : Prop :=
  (∀ j, (h : j < queue.length) → l j = queue[j]) ∧
  ∀ j k k', ks[j]? = some k → ks[j + 1]? = some k' →
    l (j + queue.length) = (ror (l j) 8 + k) ^^^ BitVec.ofNat n (i + j) ∧ k' = rol k 3 ^^^ l (j + queue.length)

/-- The helper words with one more before them. -/
def pushHelper (w : BitVec n) (l : Nat → BitVec n) : Nat → BitVec n
  | 0 => w
  | j + 1 => l j

/-- The head of a nonempty schedule is the round key it starts from. -/
theorem scheduleFrom_getElem?_zero {steps i : Nat} {k l k' : BitVec n} {rest : List (BitVec n)}
    (h : (scheduleFrom steps i k l rest)[0]? = some k') : k' = k := by
  cases steps with
  | zero => simp [scheduleFrom] at h
  | succ steps => simpa [scheduleFrom, eq_comm] using h

/-- One step before a schedule: the oldest helper word and the round key make the newest helper word, which the queue
ends in, and the next round key. -/
theorem HelperWords.push {i : Nat} {k w : BitVec n} {rest ks : List (BitVec n)} {l : Nat → BitVec n}
    (h : HelperWords (i + 1) (rest ++ [(encRound w k (BitVec.ofNat n i)).1]) ks l)
    (hks : ∀ k', ks[0]? = some k' → k' = (encRound w k (BitVec.ofNat n i)).2) :
    HelperWords i (w :: rest) (k :: ks) (pushHelper w l) := by
  obtain ⟨hqueue, hstep⟩ := h
  refine ⟨fun j hj => ?_, fun j a b ha hb => ?_⟩
  · cases j with
    | zero => rfl
    | succ j =>
      have hj' : j < rest.length := by simpa using hj
      exact (hqueue j (by simp; omega)).trans (List.getElem_append_left hj')
  · cases j with
    | zero =>
      obtain rfl : k = a := by simpa using ha
      have hnew : pushHelper w l (0 + (w :: rest).length) = (encRound w k (BitVec.ofNat n i)).1 := by
        simpa [pushHelper] using hqueue rest.length (by simp)
      rw [hnew, hks b hb]
      exact ⟨rfl, rfl⟩
    | succ j =>
      have hlater := hstep j a b ha hb
      rw [List.length_append, List.length_singleton, Nat.add_right_comm i] at hlater
      rw [List.length_cons, Nat.succ_add]
      exact hlater

theorem exists_helperWords (steps i : Nat) (k w : BitVec n) (rest : List (BitVec n)) :
    ∃ l, HelperWords i (w :: rest) (scheduleFrom steps i k w rest) l := by
  induction steps generalizing i k w rest with
  | zero => exact ⟨fun j => (w :: rest).getD j 0, fun j hj => List.getD_eq_getElem _ _ hj, by simp [scheduleFrom]⟩
  | succ steps ih =>
    cases rest with
    | nil =>
      obtain ⟨l, hl⟩ := ih (i + 1) _ _ []
      exact ⟨_, hl.push fun _ => scheduleFrom_getElem?_zero⟩
    | cons r rs =>
      obtain ⟨l, hl⟩ := ih (i + 1) _ r (rs ++ [_])
      exact ⟨_, hl.push fun _ => scheduleFrom_getElem?_zero⟩

/-- The key schedule meets its recurrence. -/
theorem keySchedule_isSchedule (hn : 8 < n) (T : Nat) (k0 l0 : BitVec n) (rest : List (BitVec n)) :
    isSchedule k0 (l0 :: rest) (keySchedule (T + 1) k0 l0 rest) := by
  obtain ⟨l, hqueue, hstep⟩ := exists_helperWords (T + 1) 0 k0 l0 rest
  refine ⟨rfl, l, hqueue, fun i hi => ?_⟩
  have hlen := scheduleFrom_length (T + 1) 0 k0 l0 rest
  have hround := hstep i _ _ (List.getElem?_eq_getElem (by omega)) (List.getElem?_eq_getElem (by omega))
  rw [Nat.zero_add, ror_eq_rotateRight _ 8 (by omega), rol_eq_rotateLeft _ 3 (by omega)] at hround
  exact hround

end

/-! ### The schedule of KEY (`42_speck_core.md` R172) -/

theorem scheduleOfKey_kexpS (s : State) : scheduleOfKey 64 34 4 s.keyBytes =
    keySchedule 34 (s.key[1] ++ s.key[0]) (s.key[3] ++ s.key[2]) [s.key[5] ++ s.key[4], s.key[7] ++ s.key[6]] := by
  have hk0 : halfWord 64 s.keyBytes 0 = _ := halfWord_regBytes_64 s.key (i := 0) (by decide)
  have hl0 : halfWord 64 s.keyBytes 8 = _ := halfWord_regBytes_64 s.key (i := 1) (by decide)
  have hl1 : halfWord 64 s.keyBytes 16 = _ := halfWord_regBytes_64 s.key (i := 2) (by decide)
  have hl2 : halfWord 64 s.keyBytes 24 = _ := halfWord_regBytes_64 s.key (i := 3) (by decide)
  change keySchedule 34 (halfWord 64 s.keyBytes 0) (halfWord 64 s.keyBytes 8)
    [halfWord 64 s.keyBytes 16, halfWord 64 s.keyBytes 24] = _
  rw [hk0, hl0, hl1, hl2]

theorem scheduleOfKey_kexpH (s : State) : scheduleOfKey 64 32 2 s.keyBytes =
    keySchedule 32 (s.key[1] ++ s.key[0]) (s.key[3] ++ s.key[2]) [] :=
  congrArg₂ (keySchedule 32 · · []) (halfWord_regBytes_64 s.key (i := 0) (by decide))
    (halfWord_regBytes_64 s.key (i := 1) (by decide))

theorem scheduleOfKey_kexpIV (s : State) : scheduleOfKey 48 28 2 s.keyBytes =
    keySchedule 28 (s.key[1].extractLsb' 0 16 ++ s.key[0]) (s.key[2] ++ s.key[1].extractLsb' 16 16) [] :=
  congrArg₂ (keySchedule 28 · · []) (halfWord_regBytes_48_first s.key (by decide))
    (halfWord_regBytes_48_second s.key (by decide))

end Sys2Proof.Machine

namespace Sys2Proof.Proofs

open Sys2Proof.Machine Sys2Proof.Spec

/-- Settles O24: the key words are registers of KEY, and their schedule meets the recurrence. -/
theorem keyExpansionResult : Obligations.KeyExpansionResult := by
  intro s
  refine ⟨⟨_, rfl, rfl, rfl, ?_⟩, ⟨_, rfl, rfl, rfl, ?_⟩, _, rfl, rfl, rfl, ?_⟩
  · rw [State.complete_slotS, State.setSlotS_slotS, scheduleOfKey_kexpS]
    exact keySchedule_isSchedule (by decide) 33 _ _ _
  · rw [State.complete_slotH, State.setSlotH_slotH, scheduleOfKey_kexpH]
    exact keySchedule_isSchedule (by decide) 31 _ _ _
  · rw [State.complete_slotIV, State.setSlotIV_slotIV, scheduleOfKey_kexpIV]
    exact keySchedule_isSchedule (by decide) 27 _ _ _

/-- Settles O25: the command writes its slot cleared and completes, whatever the state. -/
theorem keyClearResult : Obligations.KeyClearResult := fun _ => ⟨rfl, rfl, rfl⟩

end Sys2Proof.Proofs
end

section
/-! PROOFS, family 43_ecb.md. The block as a byte string in its registers and as a pair of half-words, the states an ECB
command leads to, and that the two directions undo each other. -/

namespace Sys2Proof.Machine

open Sys2Proof.Spec

/-! ### Byte strings in words and in registers (`00_scope.md` R12, `10_state.md` R38) -/

/-- `BYTES_n(LE_n(b)) = b`, for a byte string that fills the width. -/
theorem leBytes_leValue {n : Nat} {bytes : List Byte} (h : bytes.length = n / 8) :
    leBytes (leValue n bytes) = bytes := by
  refine List.ext_getElem (by simp [h]) fun i hi _ => ?_
  have hin : i < n / 8 := by simpa using hi
  rw [leBytes_getElem, leValue_byte n bytes i (by omega), List.getD_eq_getElem]

theorem leBytes_halfWord {n offset : Nat} {bytes : List Byte} (h : offset + n / 8 ≤ bytes.length) :
    leBytes (halfWord n bytes offset) = (bytes.drop offset).take (n / 8) :=
  leBytes_leValue (by rw [List.length_take, List.length_drop]; omega)

/-- A half-word written into a byte string is read back at the place it was written to. -/
theorem halfWord_append_leBytes {n : Nat} (h8 : n % 8 = 0) (before after : List Byte) (v : BitVec n) :
    halfWord n (before ++ (leBytes v ++ after)) before.length = v := by
  rw [halfWord, List.drop_left, List.take_left' (leBytes_length v), leValue_leBytes v h8]

theorem regBytes_packWords {m : Nat} {bytes : List Byte} (h : bytes.length = 4 * m) :
    regBytes (packWords m bytes) = bytes := by
  refine List.ext_getElem? fun i => ?_
  by_cases hi : i < 4 * m
  · rw [regBytes_getElem? _ i hi, packWords_byte m bytes i hi, List.getD_eq_getElem _ _ (h ▸ hi),
      List.getElem?_eq_getElem (h ▸ hi)]
  · rw [List.getElem?_eq_none (by simpa using hi), List.getElem?_eq_none (by omega)]

theorem packWords_regBytes {m : Nat} (regs : Vector Word m) : packWords m (regBytes regs) = regs := by
  ext1 r hr
  have hbytes : ((regBytes regs).drop (4 * r)).take 4 = leBytes regs[r] := by
    refine List.ext_getElem? fun i => ?_
    by_cases hi : i < 4
    · rw [List.getElem?_take_of_lt hi, List.getElem?_drop, regBytes_getElem? regs _ (by omega),
        List.getElem?_eq_getElem (by simpa using hi), leBytes_getElem]
      simp [show (4 * r + i) / 4 = r by omega, show (4 * r + i) % 4 = i by omega]
    · simp [hi]
  rw [packWords, Vector.getElem_ofFn, hbytes, leValue_leBytes _ (by decide)]

/-! ### The BLOCK registers (`10_state.md` R38, `42_speck_core.md` R171) -/

/-- The block as the pair `(x, y)` of half-words of `n` bits. -/
def State.halfWords (n : Nat) (s : State) : BitVec n × BitVec n :=
  (halfWord n s.blockBytes (n / 8), halfWord n s.blockBytes 0)

theorem State.halfWords_64 (s : State) : s.halfWords 64 = blockPair s :=
  Prod.ext (halfWord_regBytes_64 s.block (i := 1) (by decide)) (halfWord_regBytes_64 s.block (i := 0) (by decide))

theorem State.halfWords_48 (s : State) : s.halfWords 48 = blockPairIV s :=
  Prod.ext (halfWord_regBytes_48_second s.block (by decide)) (halfWord_regBytes_48_first s.block (by decide))

theorem State.blockOf_halfWords {n : Nat} (hn : n ≤ 64) (s : State) :
    blockOf (s.halfWords n) = s.blockBytes.take (n / 8 + n / 8) := by
  have hlen := s.blockBytes_length
  rw [blockOf, State.halfWords, leBytes_halfWord (by omega), leBytes_halfWord (by omega), List.take_add, List.drop_zero]

/-- A register past the bytes written stays. -/
theorem State.setBlock_block_getElem_past {s : State} {b : List Byte} {i : Nat} (hi : i < 4)
    (hpast : b.length ≤ 4 * i) : (s.setBlock b).block[i] = s.block[i] := by
  have hbytes : (b ++ s.blockBytes.drop b.length).drop (4 * i) = s.blockBytes.drop (4 * i) := by
    rw [List.drop_append, List.drop_of_length_le hpast, List.nil_append, List.drop_drop, Nat.add_sub_cancel' hpast]
  calc (s.setBlock b).block[i]
      = (packWords 4 s.blockBytes)[i] := by simp [packWords, hbytes]
    _ = s.block[i] := by rw [State.blockBytes, packWords_regBytes]

section
variable {s : State} {b : List Byte} (hb : b.length ≤ 16)
include hb

theorem State.setBlock_blockBytes : (s.setBlock b).blockBytes = b ++ s.blockBytes.drop b.length :=
  regBytes_packWords (by simp; omega)

/-- A second write of as many bytes leaves nothing of the first one, whether or not a command ended between them. -/
theorem State.setBlock_complete_setBlock {c : List Byte} (hc : c.length = b.length) :
    (s.setBlock b).complete.setBlock c = (s.setBlock c).complete := by
  have hbytes : (s.setBlock b).complete.blockBytes = b ++ s.blockBytes.drop b.length := State.setBlock_blockBytes hb
  rw [State.setBlock, hbytes, hc, List.drop_left, ← hc]
  rfl

end

theorem State.setBlock_take (s : State) (k : Nat) (hk : k ≤ 16) : s.setBlock (s.blockBytes.take k) = s := by
  rw [State.setBlock, List.length_take, State.blockBytes_length, Nat.min_eq_left hk, List.take_append_drop,
    State.blockBytes, packWords_regBytes]

/-- The half-words of a block just written. -/
theorem State.setBlock_halfWords {n : Nat} (h8 : n % 8 = 0) (hn : n ≤ 64) (s : State) (p : BitVec n × BitVec n) :
    (s.setBlock (blockOf p)).halfWords n = p := by
  have hbytes : (s.setBlock (blockOf p)).blockBytes =
      leBytes p.2 ++ (leBytes p.1 ++ s.blockBytes.drop (blockOf p).length) := by
    rw [State.setBlock_blockBytes (by rw [blockOf_length]; omega), ← List.append_assoc]
    rfl
  rw [State.halfWords, hbytes]
  refine Prod.ext ?_ (halfWord_append_leBytes h8 [] _ p.2)
  simpa using halfWord_append_leBytes h8 (leBytes p.2) _ p.1

/-! ### The ECB commands (`43_ecb.md` R207, R208) -/

/-- DEC for ENC, and ENC for DEC. -/
def Direction.opposite : Direction → Direction
  | .enc => .dec
  | .dec => .enc

theorem cipherBlock_opposite {n T : Nat} (hn : 8 < n) (dir : Direction) (rk : Vector (BitVec n) T) (x y : BitVec n) :
    cipherBlock dir.opposite rk (cipherBlock dir rk x y).1 (cipherBlock dir rk x y).2 = (x, y) := by
  cases dir with
  | enc => exact decKeys_encKeys hn rk.toList x y
  | dec => exact encKeys_decKeys hn rk.toList x y

/-- The state an ECB command under the round keys `rk` leaves. -/
def State.ciphered {n T : Nat} (s : State) (dir : Direction) (rk : Vector (BitVec n) T) : State :=
  (s.setBlock (blockOf (cipherBlock dir rk (s.halfWords n).1 (s.halfWords n).2))).complete

theorem ecbCommand_valid {n T : Nat} {slot : Slot n T} (h : slot.valid = true) (dir : Direction) (s : State) :
    ecbCommand slot dir s = .next (s.ciphered dir slot.rk) := by
  rcases ecbCommand_cases slot dir s with ⟨hv, -⟩ | ⟨-, hs⟩
  · exact absurd h (by simp [hv])
  · exact hs

theorem ecbCommand_noKey {n T : Nat} {slot : Slot n T} (h : slot.valid = false) (dir : Direction) (s : State) :
    ecbCommand slot dir s = .next (s.reject .noKey) := if_pos h

section
variable {n T : Nat} (s : State) (dir : Direction) (rk : Vector (BitVec n) T)

/-- Nothing changes but the block and the flags. -/
theorem State.ciphered_frame : s.ciphered dir rk = { completed s with block := (s.ciphered dir rk).block } := rfl

theorem State.ciphered_block_getElem_past {i : Nat} (hi : i < 4) (hpast : n / 8 + n / 8 ≤ 4 * i) :
    (s.ciphered dir rk).block[i] = s.block[i] :=
  State.setBlock_block_getElem_past hi (by rwa [blockOf_length])

variable (hn : n ≤ 64) (h8 : n % 8 = 0)
include hn h8

theorem State.ciphered_halfWords :
    (s.ciphered dir rk).halfWords n = cipherBlock dir rk (s.halfWords n).1 (s.halfWords n).2 :=
  State.setBlock_halfWords h8 hn s _

/-- The opposite direction writes back the bytes the block held. -/
theorem State.ciphered_opposite (hn8 : 8 < n) : (s.ciphered dir rk).ciphered dir.opposite rk = completed s := by
  calc (s.ciphered dir rk).ciphered dir.opposite rk
      = ((s.ciphered dir rk).setBlock (blockOf (s.halfWords n))).complete := by
        rw [State.ciphered, s.ciphered_halfWords dir rk hn h8, cipherBlock_opposite hn8]
    _ = (s.setBlock (s.blockBytes.take (n / 8 + n / 8))).complete.complete := by
        rw [State.ciphered, State.setBlock_complete_setBlock (by rw [blockOf_length]; omega) (by simp),
          s.blockOf_halfWords hn]
    _ = completed s := by
        rw [s.setBlock_take _ (by omega)]
        rfl

end

/-- Either direction first, under a slot that the first command keeps. -/
theorem ecbCommand_roundTrip {n T : Nat} (hn8 : 8 < n) (hn : n ≤ 64) (h8 : n % 8 = 0) {slot : State → Slot n T}
    {s : State} (hkept : ∀ dir, slot (s.ciphered dir (slot s).rk) = slot s) (hv : (slot s).valid = true)
    (dir : Direction) :
    ∃ t, ecbCommand (slot s) dir s = .next t ∧ ecbCommand (slot t) dir.opposite t = .next (completed s) := by
  refine ⟨_, ecbCommand_valid hv dir s, ?_⟩
  rw [hkept, ecbCommand_valid hv, s.ciphered_opposite dir (slot s).rk hn h8 hn8]

/-- What a command on slot S or H does: R207 in terms of the registers. -/
theorem ecbCommand_blockPair {T : Nat} {slot : Slot 64 T} (hv : slot.valid = true) (dir : Direction) (s : State) :
    ∃ t, ecbCommand slot dir s = .next t ∧ t = { completed s with block := t.block } ∧
      blockPair t = cipherBlock dir slot.rk (blockPair s).1 (blockPair s).2 := by
  refine ⟨_, ecbCommand_valid hv dir s, s.ciphered_frame dir slot.rk, ?_⟩
  simpa only [State.halfWords_64] using s.ciphered_halfWords dir slot.rk (by decide) (by decide)

/-- What a command on slot IV does; the 12 bytes it writes end before BLOCK3 (`43_ecb.md` R206). -/
theorem ecbCommand_blockPairIV {T : Nat} {slot : Slot 48 T} (hv : slot.valid = true) (dir : Direction) (s : State) :
    ∃ t, ecbCommand slot dir s = .next t ∧ t = { completed s with block := t.block } ∧ t.block[3] = s.block[3] ∧
      blockPairIV t = cipherBlock dir slot.rk (blockPairIV s).1 (blockPairIV s).2 := by
  refine ⟨_, ecbCommand_valid hv dir s, s.ciphered_frame dir slot.rk,
    s.ciphered_block_getElem_past dir slot.rk (by decide) (by decide), ?_⟩
  simpa only [State.halfWords_48] using s.ciphered_halfWords dir slot.rk (by decide) (by decide)

end Sys2Proof.Machine

namespace Sys2Proof.Proofs

open Sys2Proof.Machine Sys2Proof.Spec

/-- Settles O26: what an ECB command does under a valid slot, for ENC. -/
theorem ecbEncryptResult : Obligations.EcbEncryptResult := fun s =>
  ⟨(ecbCommand_blockPair · .enc s), (ecbCommand_blockPair · .enc s), (ecbCommand_blockPairIV · .enc s)⟩

/-- Settles O27: what an ECB command does under a valid slot, for DEC. -/
theorem ecbDecryptResult : Obligations.EcbDecryptResult := fun s =>
  ⟨(ecbCommand_blockPair · .dec s), (ecbCommand_blockPair · .dec s), (ecbCommand_blockPairIV · .dec s)⟩

/-- Settles O28: the first command keeps the slot, so the second undoes it under the same round keys. -/
theorem ecbRoundTrip : Obligations.EcbRoundTrip := by
  intro s enc dec valid hcmd hv
  rcases hcmd with ⟨rfl, rfl, rfl⟩ | ⟨rfl, rfl, rfl⟩ | ⟨rfl, rfl, rfl⟩
  · have trip := ecbCommand_roundTrip (slot := State.slotS) (by decide) (by decide) (by decide) (fun _ => rfl) hv
    exact ⟨trip .enc, trip .dec⟩
  · have trip := ecbCommand_roundTrip (slot := State.slotH) (by decide) (by decide) (by decide) (fun _ => rfl) hv
    exact ⟨trip .enc, trip .dec⟩
  · have trip := ecbCommand_roundTrip (slot := State.slotIV) (by decide) (by decide) (by decide) (fun _ => rfl) hv
    exact ⟨trip .enc, trip .dec⟩

/-- Settles O8: the command is rejected in its first check. -/
theorem ecbWithoutKeyRejected : Obligations.EcbWithoutKeyRejected := fun s =>
  ⟨fun hv => ⟨ecbCommand_noKey hv .enc s, ecbCommand_noKey hv .dec s⟩,
    fun hv => ⟨ecbCommand_noKey hv .enc s, ecbCommand_noKey hv .dec s⟩,
    fun hv => ⟨ecbCommand_noKey hv .enc s, ecbCommand_noKey hv .dec s⟩⟩

end Sys2Proof.Proofs
end

section
/-! PROOFS, family 44_ctr.md. The state a CTR command that passes its checks leaves, read byte by byte; from it the
self-inverse and the split law. -/

namespace Sys2Proof.Machine

open Sys2Proof.Spec

/-! ### The keystream byte by byte (`44_ctr.md` R221, R223) -/

section
variable {T : Nat} (rk : Vector (BitVec 64) T) (hi lo : BitVec 64)

/-- `BYTES(y') || BYTES(x')` of a keystream block, by index. -/
theorem keystreamBlock_getElem? (i : Nat) :
    (keystreamBlock rk hi lo (i / 16))[i % 16]? = some (keystreamByte rk hi lo i) := by
  have hmod : i % 16 < 16 := Nat.mod_lt i (by decide)
  unfold keystreamBlock blockOf keystreamByte
  rw [List.getElem?_append, leBytes_length]
  split
  · next hy => rw [List.getElem?_eq_getElem (by simpa using hy), leBytes_getElem]
  · next hx => rw [List.getElem?_eq_getElem (by rw [leBytes_length]; omega), leBytes_getElem]

theorem keystream_byte {len i : Nat} (h : i < len) :
    (keystream rk hi lo len)[i]? = some (keystreamByte rk hi lo i) :=
  (keystream_getElem? rk hi lo len i h).trans (keystreamBlock_getElem? rk hi lo i)

/-- From a counter `k` blocks on, the keystream goes on at byte `16 k`. -/
theorem keystreamByte_add_blocks (k i : Nat) :
    keystreamByte rk hi (lo + BitVec.ofNat 64 k) i = keystreamByte rk hi lo (16 * k + i) := by
  have hdiv : (16 * k + i) / 16 = k + i / 16 := by omega
  have hmod : (16 * k + i) % 16 = i % 16 := by omega
  simp only [keystreamByte, hdiv, hmod, BitVec.add_assoc, ← BitVec.ofNat_add]

end

/-! ### The state a CTR command leaves (`44_ctr.md` R220 to R224) -/

/-- The state a CTR command under the round keys `rk` leaves when it passes its checks. Irreducible: the lemmas below say
what its fields are, and comparing it field by field with another state is slow. -/
@[irreducible] def State.streamed {T : Nat} (s : State) (rk : Vector (BitVec 64) T) : State := (s.ctrBody rk).complete

section
variable {T : Nat} (s : State) (rk : Vector (BitVec 64) T)

theorem State.streamed_keepsSlots : KeepsSlots s (s.streamed rk) := by
  rw [State.streamed]
  exact s.ctrBody_keepsSlots rk

@[simp] theorem State.streamed_params : (s.streamed rk).params = s.params := by
  rw [State.streamed, State.complete_params, State.ctrBody_params]

@[simp] theorem State.streamed_len : (s.streamed rk).len = s.len := by
  rw [State.streamed, State.complete_len, s.ctrBody_eq rk]

@[simp] theorem State.streamed_epoch : (s.streamed rk).epoch = s.epoch := by
  rw [State.streamed, State.complete_epoch, s.ctrBody_eq rk]

@[simp] theorem State.streamed_faults : (s.streamed rk).faults = s.noteInput.faults := by
  rw [State.streamed, State.complete_faults, State.ctrBody_faults]

/-- Every DMEM byte after the command: LEN bytes at DST are input XOR keystream, the others are as before. -/
theorem State.load?_streamed (a : Nat) :
    Memory.load? (s.streamed rk).mem a =
      if s.dst.toNat ≤ a ∧ a < s.dst.toNat + s.len.toNat then
        some (s.readByte (s.src.toNat + (a - s.dst.toNat)) ^^^
          keystreamByte rk s.nonceHi s.nonceLo (a - s.dst.toNat))
      else Memory.load? s.mem a := by
  have hlen : (xorBytes s.inputBytes (keystream rk s.nonceHi s.nonceLo s.len.toNat)).length = s.len.toNat := by simp
  rw [State.streamed, State.complete_mem, State.ctrBody_mem, Memory.load?_storeBytes, hlen]
  refine if_ctx_congr Iff.rfl (fun hin => ?_) fun _ => rfl
  have hi : a - s.dst.toNat < s.len.toNat := by omega
  have hinput : s.inputBytes[a - s.dst.toNat]? = some (s.readByte (s.src.toNat + (a - s.dst.toNat))) := by
    rw [List.getElem?_eq_getElem (by simpa using hi)]
    exact congrArg some (s.readBytes_getElem _ _ _ _)
  rw [xorBytes, List.getElem?_zipWith, hinput, keystream_byte rk _ _ hi]

theorem State.load?_streamed_output {i : Nat} (hi : i < s.len.toNat) :
    Memory.load? (s.streamed rk).mem (s.dst.toNat + i) =
      some (s.readByte (s.src.toNat + i) ^^^ keystreamByte rk s.nonceHi s.nonceLo i) := by
  rw [s.load?_streamed rk, if_pos (by omega), Nat.add_sub_cancel_left]

theorem State.load?_streamed_outside {a : Nat} (ha : a < s.dst.toNat ∨ s.dst.toNat + s.len.toNat ≤ a) :
    Memory.load? (s.streamed rk).mem a = Memory.load? s.mem a := by
  rw [s.load?_streamed rk, if_neg (by omega)]

theorem State.streamed_frame :
    s.streamed rk = { completed s with
      mem := (s.streamed rk).mem, nonce := (s.streamed rk).nonce, faults := (s.streamed rk).faults } := by
  rw [State.streamed, s.ctrBody_eq rk]
  rfl

theorem State.streamed_nonce :
    (s.streamed rk).nonce = (s.setNonceLo (s.nonceLo + BitVec.ofNat 64 (blocksUsed s.len.toNat))).nonce := by
  rw [State.streamed, State.complete_nonce, State.ctrBody_nonce]

theorem State.setNonceLo_nonceLo (v : BitVec 64) : (s.setNonceLo v).nonceLo = v := by
  have halves : v.extractLsb' 32 32 ++ v.extractLsb' 0 32 = v.extractLsb' 0 64 :=
    BitVec.extractLsb'_append_extractLsb'_eq_extractLsb' (by decide)
  rw [BitVec.extractLsb'_eq_self] at halves
  exact halves

theorem State.setNonceLo_nonceHi (v : BitVec 64) : (s.setNonceLo v).nonceHi = s.nonceHi := by simp [State.nonceHi]

theorem State.nonceLo_congr {s t : State} (h : t.nonce = s.nonce) : t.nonceLo = s.nonceLo := by
  rw [State.nonceLo, State.nonceLo, h]

theorem State.nonceHi_congr {s t : State} (h : t.nonce = s.nonce) : t.nonceHi = s.nonceHi := by
  rw [State.nonceHi, State.nonceHi, h]

theorem State.streamed_nonceLo : (s.streamed rk).nonceLo = s.nonceLo + BitVec.ofNat 64 (blocksUsed s.len.toNat) :=
  (State.nonceLo_congr (s.streamed_nonce rk)).trans (s.setNonceLo_nonceLo _)

theorem State.streamed_nonceHi : (s.streamed rk).nonceHi = s.nonceHi :=
  (State.nonceHi_congr (s.streamed_nonce rk)).trans (s.setNonceLo_nonceHi _)

/-- The rules of CTR in terms of the specification. -/
theorem State.streamed_ctrResult : ctrResult rk s (s.streamed rk) :=
  ⟨s.streamed_frame rk, fun h => (s.streamed_faults rk).trans (s.noteInput_recordsInputRead.1 h),
    fun _ => s.load?_streamed_output rk, fun _ => s.load?_streamed_outside rk, s.streamed_nonceLo rk,
    by simp [State.streamed_nonce], by simp [State.streamed_nonce]⟩

end

/-! ### The command again, over its own output (`44_ctr.md` R228) -/

/-- `t` with the operands of the inverse of the command of `s`: its starting NONCE, its output for input. -/
def State.rewound (t s : State) (d : Word) : State := { t with nonce := s.nonce, src := s.dst, dst := d }

/-- Streaming the output again from the same counter gives the input: the keystream cancels. -/
theorem State.load?_rewound_streamed {T : Nat} (s : State) (rk : Vector (BitVec 64) T) (d : Word) {j : Nat}
    (hj : j < s.len.toNat) :
    Memory.load? (((s.streamed rk).rewound s d).streamed rk).mem (d.toNat + j) =
      some (s.readByte (s.src.toNat + j)) := by
  have hread : ((s.streamed rk).rewound s d).readByte (s.dst.toNat + j) =
      s.readByte (s.src.toNat + j) ^^^ keystreamByte rk s.nonceHi s.nonceLo j :=
    State.readByte_of_load? (s.load?_streamed_output rk hj)
  have hlen : ((s.streamed rk).rewound s d).len = s.len := s.streamed_len rk
  have hhi : ((s.streamed rk).rewound s d).nonceHi = s.nonceHi := State.nonceHi_congr rfl
  have hlo : ((s.streamed rk).rewound s d).nonceLo = s.nonceLo := State.nonceLo_congr rfl
  calc Memory.load? (((s.streamed rk).rewound s d).streamed rk).mem (d.toNat + j)
      = some (((s.streamed rk).rewound s d).readByte (s.dst.toNat + j) ^^^
          keystreamByte rk ((s.streamed rk).rewound s d).nonceHi ((s.streamed rk).rewound s d).nonceLo j) :=
        ((s.streamed rk).rewound s d).load?_streamed_output rk (hlen ▸ hj)
    _ = some (s.readByte (s.src.toNat + j)) := by
        rw [hread, hhi, hlo, BitVec.xor_assoc, BitVec.xor_self, BitVec.xor_zero]

/-! ### The command in two parts (`44_ctr.md` R230) -/

/-- The operands of the command over the first `b` bytes. -/
def State.firstPart (s : State) (b : Word) : State := { s with len := b }

/-- The state after the first part, with the operands of the command over the bytes after it. -/
def State.restPart {T : Nat} (s : State) (b : Word) (rk : Vector (BitVec 64) T) : State :=
  { (s.firstPart b).streamed rk with src := s.src + b, dst := s.dst + b, len := s.len - b }

theorem State.restPart_nonceHi {T : Nat} (s : State) (b : Word) (rk : Vector (BitVec 64) T) :
    (s.restPart b rk).nonceHi = s.nonceHi :=
  (State.nonceHi_congr rfl).trans ((s.firstPart b).streamed_nonceHi rk)

/-- A write of NONCE_LO leaves nothing of what the first part wrote there. -/
theorem State.restPart_setNonceLo_nonce {T : Nat} (s : State) (b : Word) (rk : Vector (BitVec 64) T) (v : BitVec 64) :
    ((s.restPart b rk).setNonceLo v).nonce = (s.setNonceLo v).nonce := by
  simp [State.restPart, State.streamed_nonce, State.firstPart]

/-- The buffers of `s` can be cut after `b` bytes, a multiple of 16 below LEN: no address or length wraps, and the
buffers are one or do not intersect. -/
structure CtrSplit (s : State) (b : Word) : Prop where
  aligned : b.toNat % 16 = 0
  lt : b.toNat < s.len.toNat
  src : (s.src + b).toNat = s.src.toNat + b.toNat
  dst : (s.dst + b).toNat = s.dst.toNat + b.toNat
  len : (s.len - b).toNat = s.len.toNat - b.toNat
  apart : s.src = s.dst ∨ s.src.toNat + s.len.toNat ≤ s.dst.toNat ∨ s.dst.toNat + s.len.toNat ≤ s.src.toNat

section
variable {s : State} {b : Word} {valid : Bool}

theorem ctrSplit_of_accepted (h : ctrAccepted valid s) (hmem : s.params.memSizeOk = true) (hb : b.toNat % 16 = 0)
    (hlt : b.toNat < s.len.toNat) : CtrSplit s b := by
  obtain ⟨-, -, hsrc, hdst, hapart⟩ := h
  unfold inDmem at hsrc hdst
  have hsize : s.params.memSize ≤ 2 ^ 32 := (of_decide_eq_true hmem).2
  exact ⟨hb, hlt, BitVec.toNat_add_of_lt (by omega), BitVec.toNat_add_of_lt (by omega),
    BitVec.toNat_sub_of_le (BitVec.le_def.mpr (by omega)), hapart⟩

/-- A command over a part of accepted buffers, at one offset `k` in both, is accepted. -/
theorem ctrAccepted_part (h : ctrAccepted valid s) {t : State} {k : Nat} (hparams : t.params = s.params)
    (hsrc : t.src.toNat = s.src.toNat + k) (hdst : t.dst.toNat = s.dst.toNat + k) (hpos : 0 < t.len.toNat)
    (hle : k + t.len.toNat ≤ s.len.toNat) : ctrAccepted valid t := by
  obtain ⟨hvalid, -, hsrcIn, hdstIn, hapart⟩ := h
  unfold inDmem at hsrcIn hdstIn
  refine ⟨hvalid, fun hzero => absurd hpos (by simp [hzero]), ?_, ?_, ?_⟩
  · rw [inDmem, hparams]
    omega
  · rw [inDmem, hparams]
    omega
  · rcases hapart with heq | hbefore | hafter
    · exact .inl (BitVec.eq_of_toNat_eq (by rw [hsrc, hdst, heq]))
    · exact .inr (.inl (by omega))
    · exact .inr (.inr (by omega))

theorem ctrAccepted_firstPart (h : ctrAccepted valid s) (hpos : 0 < b.toNat) (hlt : b.toNat < s.len.toNat) :
    ctrAccepted valid (s.firstPart b) :=
  ctrAccepted_part h (k := 0) rfl rfl rfl hpos ((Nat.zero_add _).trans_le hlt.le)

end

section
variable {T : Nat} {s : State} {b : Word} (split : CtrSplit s b) (rk : Vector (BitVec 64) T)
include split

theorem CtrSplit.rest_src : (s.restPart b rk).src.toNat = s.src.toNat + b.toNat := split.src

theorem CtrSplit.rest_dst : (s.restPart b rk).dst.toNat = s.dst.toNat + b.toNat := split.dst

theorem CtrSplit.rest_len : (s.restPart b rk).len.toNat = s.len.toNat - b.toNat := split.len

theorem CtrSplit.accepted_rest {valid : Bool} (h : ctrAccepted valid s) : ctrAccepted valid (s.restPart b rk) := by
  have hlen := split.rest_len rk
  have hlt := split.lt
  exact ctrAccepted_part h ((s.firstPart b).streamed_params rk) (split.rest_src rk) (split.rest_dst rk)
    (by omega) (by omega)

/-- The rest reads the input of the whole: the first part has not written it. -/
theorem CtrSplit.readByte_rest {i : Nat} (hb : b.toNat ≤ i) (hi : i < s.len.toNat) :
    (s.restPart b rk).readByte (s.src.toNat + i) = s.readByte (s.src.toNat + i) := by
  have outside : s.src.toNat + i < s.dst.toNat ∨ s.dst.toNat + b.toNat ≤ s.src.toNat + i := by
    rcases split.apart with heq | hbefore | hafter
    · rw [heq]
      omega
    · omega
    · omega
  exact State.readByte_congr ((s.firstPart b).load?_streamed_outside rk outside)
    ((s.firstPart b).streamed_epoch rk)

theorem CtrSplit.nonceLo_rest : (s.restPart b rk).nonceLo = s.nonceLo + BitVec.ofNat 64 (b.toNat / 16) := by
  have hblocks : blocksUsed b.toNat = b.toNat / 16 := by
    have haligned := split.aligned
    unfold blocksUsed
    omega
  rw [← hblocks]
  exact (s.firstPart b).streamed_nonceLo rk

/-- The keystream of the rest is that of the whole, `b` bytes on. -/
theorem CtrSplit.keystreamByte_rest (j : Nat) :
    keystreamByte rk (s.restPart b rk).nonceHi (s.restPart b rk).nonceLo j =
      keystreamByte rk s.nonceHi s.nonceLo (b.toNat + j) := by
  rw [s.restPart_nonceHi, split.nonceLo_rest, keystreamByte_add_blocks,
    Nat.mul_div_cancel' (Nat.dvd_of_mod_eq_zero split.aligned)]

/-- The output of the rest is the output of the whole after its first `b` bytes. -/
theorem CtrSplit.load?_rest_output {j : Nat} (hj : b.toNat + j < s.len.toNat) :
    Memory.load? ((s.restPart b rk).streamed rk).mem (s.dst.toNat + (b.toNat + j)) =
      Memory.load? (s.streamed rk).mem (s.dst.toNat + (b.toNat + j)) := by
  have hlen := split.rest_len rk
  have houtput := (s.restPart b rk).load?_streamed_output rk (i := j) (by omega)
  rw [split.rest_src, split.rest_dst, Nat.add_assoc, Nat.add_assoc,
    split.readByte_rest rk (Nat.le_add_right _ j) hj, split.keystreamByte_rest rk] at houtput
  rw [houtput, s.load?_streamed_output rk hj]

/-- The two parts leave the DMEM of the whole. -/
theorem CtrSplit.load?_rest (a : Nat) :
    Memory.load? ((s.restPart b rk).streamed rk).mem a = Memory.load? (s.streamed rk).mem a := by
  have hdst := split.rest_dst rk
  have hlen := split.rest_len rk
  have hlt := split.lt
  by_cases hrest : s.dst.toNat + b.toNat ≤ a ∧ a < s.dst.toNat + s.len.toNat
  · obtain ⟨j, rfl⟩ := Nat.exists_eq_add_of_le hrest.1
    rw [Nat.add_assoc]
    exact split.load?_rest_output rk (by omega)
  · have hbounds : (s.dst.toNat ≤ a ∧ a < s.dst.toNat + b.toNat) ↔
        s.dst.toNat ≤ a ∧ a < s.dst.toNat + s.len.toNat := by omega
    calc Memory.load? ((s.restPart b rk).streamed rk).mem a
        = Memory.load? ((s.firstPart b).streamed rk).mem a :=
          (s.restPart b rk).load?_streamed_outside rk (by omega)
      _ = Memory.load? (s.streamed rk).mem a := by
          rw [s.load?_streamed, State.load?_streamed]
          exact if_congr hbounds rfl rfl

/-- The two parts count as many blocks as the whole. -/
theorem CtrSplit.nonce_rest : ((s.restPart b rk).streamed rk).nonce = (s.streamed rk).nonce := by
  have hblocks : b.toNat / 16 + blocksUsed (s.len - b).toNat = blocksUsed s.len.toNat := by
    have haligned := split.aligned
    have hlt := split.lt
    rw [split.len]
    unfold blocksUsed
    omega
  calc ((s.restPart b rk).streamed rk).nonce
      = ((s.restPart b rk).setNonceLo
          ((s.restPart b rk).nonceLo + BitVec.ofNat 64 (blocksUsed (s.len - b).toNat))).nonce :=
        (s.restPart b rk).streamed_nonce rk
    _ = (s.setNonceLo (s.nonceLo + BitVec.ofNat 64 (blocksUsed s.len.toNat))).nonce := by
        rw [s.restPart_setNonceLo_nonce, split.nonceLo_rest, BitVec.add_assoc, ← BitVec.ofNat_add, hblocks]
    _ = (s.streamed rk).nonce := (s.streamed_nonce rk).symm

end

/-! ### The CTR commands (`44_ctr.md` R225, R226, R229) -/

theorem ctrCommand_noKey {T : Nat} {slot : Slot 64 T} (h : slot.valid = false) (s : State) :
    ctrCommand slot s = .next (s.reject .noKey) := if_pos h

/-- A length of 0 completes before any other check. -/
theorem ctrCommand_len_zero {T : Nat} {slot : Slot 64 T} (h : slot.valid = true) {s : State} (hlen : s.len = 0) :
    ctrCommand slot s = .next (completed s) := by
  rw [ctrCommand, if_neg (by simp [h]), if_pos hlen]
  rfl

theorem ctrCommand_streamed {T : Nat} {slot : Slot 64 T} {s : State} (h : ctrAccepted slot.valid s) :
    ctrCommand slot s = .next (s.streamed slot.rk) := by
  rw [State.streamed]
  exact ctrCommand_accepted h

theorem ctrCommand_ctrResult {T : Nat} {slot : Slot 64 T} {s : State} (h : ctrAccepted slot.valid s) :
    ∃ t, ctrCommand slot s = .next t ∧ ctrResult slot.rk s t :=
  ⟨_, ctrCommand_streamed h, s.streamed_ctrResult slot.rk⟩

/-- A CTR instruction streams under the round keys of its slot, in every state with the slots of `s` whose buffers pass
the checks. -/
theorem exec_ctr {s : State} {i : Instr} {valid : Bool}
    (hi : (i = .ctrS ∧ valid = s.slotS.valid) ∨ (i = .ctrH ∧ valid = s.slotH.valid)) :
    ∃ (T : Nat) (rk : Vector (BitVec 64) T),
      ∀ t, KeepsSlots s t → ctrAccepted valid t → exec i t = .next (t.streamed rk) := by
  rcases hi with ⟨rfl, rfl⟩ | ⟨rfl, rfl⟩
  · refine ⟨_, s.slotS.rk, fun t ⟨hslot, _, _⟩ hacc => ?_⟩
    rw [← hslot] at hacc ⊢
    exact ctrCommand_streamed hacc
  · refine ⟨_, s.slotH.rk, fun t ⟨_, hslot, _⟩ hacc => ?_⟩
    rw [← hslot] at hacc ⊢
    exact ctrCommand_streamed hacc

end Sys2Proof.Machine

namespace Sys2Proof.Proofs

open Sys2Proof.Machine Sys2Proof.Spec

/-- Settles O29: the state a command on either slot leaves. -/
theorem ctrTransformsBuffer : Obligations.CtrTransformsBuffer := fun s =>
  ⟨ctrCommand_ctrResult (slot := s.slotS), ctrCommand_ctrResult (slot := s.slotH)⟩

/-- Settles O31: the first command keeps the slot, so the second cancels the same keystream. -/
theorem ctrIsSelfInverse : Obligations.CtrIsSelfInverse := by
  intro s i valid hi hacc
  obtain ⟨T, rk, hrun⟩ := exec_ctr hi
  refine ⟨_, hrun s (.refl s) hacc, fun d hd => ⟨_, hrun _ (s.streamed_keepsSlots rk) hd, fun j hj => ?_⟩⟩
  exact s.load?_rewound_streamed rk d hj

/-- Settles O32: both parts pass the checks under the slot of the whole, and they write and count what the whole does. -/
theorem ctrSplitLaw : Obligations.CtrSplitLaw := by
  intro s b i valid hi hacc hmem hb hpos hlt
  obtain ⟨T, rk, hrun⟩ := exec_ctr hi
  have split : CtrSplit s b := ctrSplit_of_accepted hacc hmem hb hlt
  exact ⟨_, _, _, hrun s (.refl s) hacc, hrun _ (.refl s) (ctrAccepted_firstPart hacc hpos hlt),
    hrun (s.restPart b rk) ((s.firstPart b).streamed_keepsSlots rk) (split.accepted_rest rk hacc),
    split.nonce_rest rk, split.load?_rest rk⟩

/-- Settles O30: a length of 0 completes, and the key is checked before it. -/
theorem ctrZeroLength : Obligations.CtrZeroLength := fun s hlen =>
  ⟨(ctrCommand_len_zero · hlen), (ctrCommand_noKey · s), (ctrCommand_len_zero · hlen), (ctrCommand_noKey · s)⟩

end Sys2Proof.Proofs
end

section
/-! PROOFS, family 60_exceptions.md. The checks of a CTR command, one lemma each in their order; the interrupt after a
command and after a host write to STATUS or CTRL. -/

namespace Sys2Proof.Machine

open Sys2Proof.Spec

/-! ### The checks of a CTR command after its key and its length (`60_exceptions.md` R253) -/

theorem State.exceedsMem_or_of_not_inDmem {s : State} (h : ¬ (inDmem s s.src ∧ inDmem s s.dst)) :
    (s.exceedsMem s.src || s.exceedsMem s.dst) = true := by
  rw [Bool.or_eq_true, s.exceedsMem_eq_true, s.exceedsMem_eq_true]
  exact (not_and_or.mp h).imp Nat.lt_of_not_le Nat.lt_of_not_le

section
variable {T : Nat} {slot : Slot 64 T} {s : State} (hvalid : slot.valid = true) (hlen : s.len ≠ 0)
include hvalid hlen

/-- A buffer past MEM_SIZE is rejected before the buffers are compared. -/
theorem ctrCommand_outOfRange (h : ¬ (inDmem s s.src ∧ inDmem s s.dst)) :
    ctrCommand slot s = .next (s.reject .range) := by
  rw [ctrCommand, if_neg (by simp [hvalid]), if_neg hlen, if_pos (State.exceedsMem_or_of_not_inDmem h)]

theorem ctrCommand_overlap (hsrc : inDmem s s.src) (hdst : inDmem s s.dst) (hover : s.buffersOverlap = true) :
    ctrCommand slot s = .next (s.reject .overlap) := by
  have inside : ¬ (s.exceedsMem s.src || s.exceedsMem s.dst) = true := by
    simp [(s.exceedsMem_eq_false s.src).mpr hsrc, (s.exceedsMem_eq_false s.dst).mpr hdst]
  rw [ctrCommand, if_neg (by simp [hvalid]), if_neg hlen, if_neg inside, if_pos hover]

end

/-- A CTR instruction is the CTR command on its slot. -/
theorem exec_eq_ctrCommand {s : State} {i : Instr} {valid : Bool}
    (hi : (i = .ctrS ∧ valid = s.slotS.valid) ∨ (i = .ctrH ∧ valid = s.slotH.valid)) :
    ∃ (T : Nat) (slot : Slot 64 T), valid = slot.valid ∧ exec i s = ctrCommand slot s := by
  rcases hi with ⟨rfl, hvalid⟩ | ⟨rfl, hvalid⟩
  · exact ⟨_, s.slotS, hvalid, rfl⟩
  · exact ⟨_, s.slotH, hvalid, rfl⟩

/-! ### The interrupt (`60_exceptions.md` R258) -/

theorem State.irq_eq_true_iff (s : State) : s.irq = true ↔ s.ie = true ∧ (s.done = true ∨ s.err = true) := by
  simp [State.irq]

theorem State.irq_of_ie_eq_false {s : State} (h : s.ie = false) : s.irq = false := by simp [State.irq, h]

theorem State.irq_of_ie {s : State} (h : s.ie = true) : s.irq = (s.done || s.err) := by simp [State.irq, h]

/-- Acknowledging DONE and ERR lowers the interrupt (`60_exceptions.md` R256). -/
theorem State.acknowledge_irq {s : State} {v : Word} (hdone : v.getLsbD 1 = true) (herr : v.getLsbD 2 = true) :
    (s.acknowledge v).irq = false := by
  simp [State.irq, hdone, herr]

/-- A command ends with one of the two flags set: DONE by a completion, ERR by a rejection. -/
theorem exec_done_or_err {i : Instr} {s t : State} (ht : exec i s = .next t) : t.done = true ∨ t.err = true := by
  obtain ⟨u, hu, shape⟩ := exec_shape i s
  cases hu.symm.trans ht
  rcases shape.completed_or_rejected with ⟨hdone, -⟩ | ⟨e, -, rfl⟩
  · exact .inl hdone
  · exact .inr rfl

theorem exec_ie {i : Instr} {s t : State} (ht : exec i s = .next t) : t.ie = s.ie := by
  obtain ⟨-, -, -, hie, -⟩ := (exec_resultShape ht).keepsOperands
  exact hie

end Sys2Proof.Machine

namespace Sys2Proof.Proofs

open Sys2Proof.Machine Sys2Proof.Spec

/-- Settles O6: each clause is one check, reached by passing those before it. -/
theorem ctrChecksInOrder : Obligations.CtrChecksInOrder := by
  intro s i valid hi
  obtain ⟨T, slot, rfl, hexec⟩ := exec_eq_ctrCommand hi
  simp only [rejectedWith, hexec]
  refine ⟨(ctrCommand_noKey · s), (ctrCommand_len_zero · ·), ctrCommand_outOfRange, ?_⟩
  intro hvalid hlen hsrc hdst hne hs hd
  exact ctrCommand_overlap hvalid hlen hsrc hdst (decide_eq_true ⟨hne, hs, hd⟩)

/-- Settles O44: a command sets one of the flags and keeps IE; the host's writes are its acknowledgement and the new
IE. -/
theorem interruptFollowsFlags : Obligations.InterruptFollowsFlags := by
  intro s
  refine ⟨s.irq_eq_true_iff, fun i t hie ht => ?_, ?_, ?_, ?_⟩
  · exact t.irq_eq_true_iff.mpr ⟨(exec_ie ht).trans hie, exec_done_or_err ht⟩
  · exact ⟨_, hostWrite_regOffset .status 0xE s, State.acknowledge_irq (s := s) rfl rfl⟩
  · exact ⟨_, hostWrite_regOffset .ctrl 0 s, State.irq_of_ie_eq_false rfl⟩
  · exact ⟨_, hostWrite_regOffset .ctrl 1 s, State.irq_of_ie rfl⟩

end Sys2Proof.Proofs
end

section
/-! PROOFS, family 70_reset_and_hazards.md. What a host move leaves of a running command, and the end of every command:
each step while BUSY ends it or takes one of the host's turns. -/

namespace Sys2Proof.Machine

/-! ### The host's moves while BUSY (`70_reset_and_hazards.md` R284) -/

/-- Nothing of the running command has changed: the two states differ only in the flags but BUSY, the fault record, the
host's events, answers and draws, and the disturbance. -/
def KeepsCommand (s t : State) : Prop :=
  t = { s with
    done := t.done, err := t.err, ovr := t.ovr, errcode := t.errcode, ie := t.ie, faults := t.faults
    pending := t.pending, responses := t.responses, draws := t.draws, disturbed := t.disturbed }

theorem KeepsCommand.refl (s : State) : KeepsCommand s s := rfl

theorem KeepsCommand.respond {s t : State} (h : KeepsCommand s t) (r : Response) : KeepsCommand s (t.respond r) :=
  congrArg (State.respond · r) h

theorem State.readReg_keepsCommand (s : State) (r : Option Reg) : KeepsCommand s (s.readReg r) := by
  have result : ∀ v, KeepsCommand s (s.readResult v) := fun v => by
    unfold State.readResult
    split <;> rfl
  cases r with
  | none => rfl
  | some r =>
    cases r with
    | nonce r | block r | digest r => exact result _
    | _ => rfl

section
variable {s : State} (hb : s.busy = true)
include hb

/-- A guarded write while BUSY sets OVR alone (`10_state.md` R34). -/
theorem State.guarded_keepsCommand (s' : State) : KeepsCommand s (s.guarded s') := by
  rw [State.guarded_busy hb]
  rfl

/-- While BUSY a register write can change no more than the flags and IE: every other one is guarded or ignored. -/
theorem State.writeReg_keepsCommand (v : Word) (r : Option Reg) : KeepsCommand s (s.writeReg v r) := by
  cases r with
  | none => rfl
  | some r =>
    cases r with
    | status | ctrl | digest => rfl
    | _ => exact State.guarded_keepsCommand hb _

theorem registerAccess_keepsCommand (offset : Nat) (a : Access) : KeepsCommand s (registerAccess offset a s) := by
  unfold registerAccess
  split
  · cases a with
    | read w => exact s.readReg_keepsCommand _
    | write w v => exact (State.writeReg_keepsCommand hb v _).respond _
  · rfl

/-- A DMEM access while BUSY leaves DMEM as it is until the engine's step: a write only marks the command disturbed. -/
theorem dmemAccess_keepsCommand (address : Nat) (a : Access) :
    ∃ t, dmemAccess address a s = .next t ∧ KeepsCommand s t :=
  ⟨_, dmemAccess_busy hb address a, by rw [busyDmemAccess_eq]; rfl⟩

/-- Every host move but a reset leaves a running command as it is. -/
theorem hostMove_keepsCommand {e : HostEvent} (he : e ≠ .reset) : ∃ t, hostMove e s = .next t ∧ KeepsCommand s t := by
  cases e with
  | register offset a => exact ⟨_, rfl, registerAccess_keepsCommand hb offset a⟩
  | dmem address a => exact dmemAccess_keepsCommand hb address a
  | platform hostAddress a =>
    rcases platformAccess_cases hostAddress a s with ⟨offset, h⟩ | ⟨address, h⟩ | h
    · exact ⟨_, h, registerAccess_keepsCommand hb offset a⟩
    · obtain ⟨t, ht, keeps⟩ := dmemAccess_keepsCommand hb address a
      exact ⟨t, h.trans ht, keeps⟩
    · exact ⟨_, h, .refl s⟩
  | awaitIdle => exact ⟨_, rfl, by rw [poll_eq]; rfl⟩
  | reset => exact absurd rfl he

end

/-! ### The end of a command (`70_reset_and_hazards.md` R291) -/

theorem ExecShape.busy_eq_false {s t : State} (shape : ExecShape s t) : t.busy = false := by
  cases shape with
  | rejected e => exact s.reject_busy e
  | _ => exact State.complete_busy _

theorem runLatch_ends (s : State) : ∃ t, runLatch s = .next t ∧ t.busy = false := by
  obtain ⟨t, ht, rfl | shape⟩ := runLatch_shape s
  · exact ⟨_, ht, s.reject_busy .illegal⟩
  · exact ⟨t, ht, shape.busy_eq_false⟩

/-- The engine's step ends the command, disturbed or not: the disturbance is of DMEM alone. -/
theorem engineStep_ends (s : State) : ∃ t, engineStep s = .next t ∧ t.busy = false := by
  rcases engineStep_cases s with ⟨-, e⟩ | ⟨-, u, hu, e⟩
  · rw [e]
    exact runLatch_ends s
  · obtain ⟨t, ht, hbusy⟩ := runLatch_ends s.disturb
    cases hu.symm.trans ht
    exact ⟨_, e, hbusy⟩

/-- A step while BUSY ends the command, or leaves it running and takes one of the host's turns. -/
theorem step_ends_or_takesTurn {s : State} (hb : s.busy = true) :
    ∃ t, step s = .next t ∧ (t.busy = false ∨ (t.busy = true ∧ t.hostTurns + 1 = s.hostTurns)) := by
  rcases s.mover_cases with ⟨-, -, hturn⟩ | ⟨e, rest, -, hp, hturns⟩ | ⟨-, hidle, -⟩
  · rw [step_engine hb hturn]
    exact (engineStep_ends s).imp fun _ h => h.imp_right .inl
  · rw [step_host hp hturns]
    by_cases he : e = .reset
    · subst he
      exact ⟨(s.takeTurn rest).applyReset, rfl, .inl rfl⟩
    · obtain ⟨t, ht, keeps⟩ := hostMove_keepsCommand (s := s.takeTurn rest) hb he
      have hturn : t.hostTurns = s.hostTurns - 1 := congrArg State.hostTurns keeps
      exact ⟨t, ht, .inr ⟨(congrArg State.busy keeps).trans hb, by have := hturns hb; omega⟩⟩
  · exact nomatch hb.symm.trans hidle

/-- A run of one more step goes on from the state of its first step. -/
theorem run_succ_of_step {s t : State} (h : step s = .next t) (k : Nat) :
    Host.Core.run core (k + 1) s = Host.Core.run core k t := by
  have hcore : core.step s = .next t := h
  simp only [Host.Core.run, hcore]

/-! ### Reset (`70_reset_and_hazards.md` R280) -/

/-- STATUS reads 0 after a reset: no flag, no code and no VALID bit is set. -/
theorem State.applyReset_statusWord (s : State) : s.applyReset.statusWord = 0 := by
  have hreset : State.reset.statusWord = 0 := by decide
  exact hreset

end Sys2Proof.Machine

namespace Sys2Proof.Proofs

open Sys2Proof.Machine Sys2Proof.Spec

/-- Settles O57: the host's move, made in the state with its turn taken, leaves the running command as it is. -/
theorem operandsHeldWhileBusy : Obligations.OperandsHeldWhileBusy := by
  intro s t e rest hb hturns hp he ht
  obtain ⟨u, hu, keeps⟩ := hostMove_keepsCommand (s := s.takeTurn rest) hb he
  cases (hu.symm.trans (step_host hp fun _ => hturns).symm).trans ht
  rw [keeps]
  exact ⟨hb, rfl, rfl, rfl, rfl, rfl, rfl, rfl, rfl, rfl, rfl, rfl, fun _ => rfl, rfl,
    Nat.sub_add_cancel (Nat.pos_of_ne_zero hturns)⟩

/-- Settles O58, by induction on the host's turns: a step while BUSY ends the command or takes one of them. -/
theorem busyCommandEnds : Obligations.BusyCommandEnds := by
  intro s hb
  induction hn : s.hostTurns generalizing s with
  | zero =>
    obtain ⟨t, ht, hidle | ⟨-, hturn⟩⟩ := step_ends_or_takesTurn hb
    · exact ⟨1, t, le_rfl, le_rfl, run_succ_of_step ht 0, hidle⟩
    · exact absurd (hturn.trans hn) (Nat.succ_ne_zero _)
  | succ n ih =>
    obtain ⟨t, ht, hidle | ⟨hbusy, hturn⟩⟩ := step_ends_or_takesTurn hb
    · exact ⟨1, t, le_rfl, by omega, run_succ_of_step ht 0, hidle⟩
    · obtain ⟨k, u, -, hk, hrun, hend⟩ := ih t hbusy (by omega)
      exact ⟨k + 1, u, by omega, by omega, (run_succ_of_step ht k).trans hrun, hend⟩

/-- Settles O52: the reset's state is the state after reset in every field but those that stay. -/
theorem resetAbandonsCommand : Obligations.ResetAbandonsCommand := fun s =>
  ⟨s.applyReset, rfl, rfl, s.applyReset_statusWord, rfl, Memory.load?_nil⟩

end Sys2Proof.Proofs
end
